-- ==== Sys2Proof/Word.lean ====
section
/-! DEFINITION. The bit-vector types of B32 and the one named operand value of its command words. -/

namespace Sys2Proof

/-- One byte: a character, a symbol or a raw payload byte (R62). -/
abbrev Byte := BitVec 8

/-- The checksum accumulator's 30 bits (R22: a 30-bit register is exact, R122). -/
abbrev Chk := BitVec 30

/-- A command word (R90). -/
abbrev CmdWord := BitVec 16

/-- A value of the register port (R21). -/
abbrev Word := BitVec 32

/-- A buffer-memory address as the host gives it (R60). -/
abbrev BufAddr := BitVec 10

/-- A register number of the register port (R21). -/
abbrev RegNum := BitVec 4

/-- The direction of `CONVERT` (R92): which region is read and which is written. -/
inductive Dir where
  /-- `dir` = 0: from region BYTE to region SYM. -/
  | b2s
  /-- `dir` = 1: from region SYM to region BYTE. -/
  | s2b
deriving DecidableEq, Repr

end Sys2Proof
end

