-- ==== Sys2Proof/Syntax.lean ====
section
/-! DEFINITION. The commands of B32, one constructor per row of the opcode table (R96). -/

namespace Sys2Proof

/-- A decoded command (R96): its operands are the fields of its word (R92). Every other operand of a command is
implicit (R93). -/
inductive Instr where
  /-- `CHK.INIT` (R124). -/
  | chkInit
  /-- `CHK.STEP` (R125). -/
  | chkStep
  /-- `CHK.FEEDLO imm8` (R126). -/
  | chkFeedlo (imm8 : Byte)
  /-- `CHK.FEEDHI imm8` (R127). -/
  | chkFeedhi (imm8 : Byte)
  /-- `ENCODE` (R141). -/
  | encode
  /-- `DECODE` (R150). -/
  | decode
  /-- `CONVERT dir, pad, inbits, outbits` (R183). -/
  | convert (dir : Dir) (pad : Bool) (inbits outbits : BitVec 4)
  /-- `ADDR.ENC` (R201). -/
  | addrEnc
  /-- `ADDR.DEC` (R204). -/
  | addrDec
deriving DecidableEq, Repr

end Sys2Proof
end

