-- ==== Sys2Proof/WellFormed.lean ====
section
/-! DEFINITION. Which terms of `Instr` are commands of the machine: the width constraint of `CONVERT` (R94, R95(c)). -/

namespace Sys2Proof

/-- A legal converter width: 1 to 8 (R92). -/
def legalWidth (n : BitVec 4) : Bool := decide (1 ≤ n.toNat) && decide (n.toNat ≤ 8)

/-- The command is one that a legal word encodes: only `CONVERT` has values of its fields that are no command (R95). -/
def Instr.wellFormed : Instr → Bool
  | .chkInit => true
  | .chkStep => true
  | .chkFeedlo _ => true
  | .chkFeedhi _ => true
  | .encode => true
  | .decode => true
  | .convert _ _ inbits outbits => legalWidth inbits && legalWidth outbits
  | .addrEnc => true
  | .addrDec => true

end Sys2Proof
end

