-- ==== Sys2Proof/Decode.lean ====
section
/-! DEFINITION. The decoder, total on all 65,536 words (R94), which rejects an illegal word by name (R95), and the
encoder, written from the formats of R91. -/

namespace Sys2Proof

/-- Why a word is illegal (R95). The reason is not recorded by the machine (R226). -/
inductive Illegal where
  /-- R95(a): opcode 0 or 10 to 15. -/
  | reservedOpcode
  /-- R95(b): a bit set in a field that must be 0. -/
  | mustBeZero
  /-- R95(c): a width of `CONVERT` that is 0 or above 8. -/
  | badWidth
deriving DecidableEq, Repr

/-- Bits 15:12, the opcode in every format (R90). -/
def opcodeField (w : CmdWord) : BitVec 4 := w.extractLsb' 12 4

/-- Format Z (R91): bits 11:0 must be 0. -/
def decodeZ (w : CmdWord) (i : Instr) : Except Illegal Instr :=
  if w.extractLsb' 0 12 = 0#12 then .ok i else .error .mustBeZero

/-- Format I (R91): bits 11:8 must be 0, bits 7:0 are `imm8`. -/
def decodeI (w : CmdWord) (mk : Byte → Instr) : Except Illegal Instr :=
  if w.extractLsb' 8 4 = 0#4 then .ok (mk (w.extractLsb' 0 8)) else .error .mustBeZero

/-- The direction that bit 11 of a format C word selects (R92). -/
def Dir.ofBit (b : Bool) : Dir := if b then .s2b else .b2s

/-- Bit 11 of a format C word (R92). -/
def Dir.toBit : Dir → Bool
  | .b2s => false
  | .s2b => true

/-- Format C (R91): bits 9:8 must be 0 and both widths must be 1 to 8 (R94). -/
def decodeC (w : CmdWord) : Except Illegal Instr :=
  if w.extractLsb' 8 2 = 0#2 then
    if legalWidth (w.extractLsb' 4 4) && legalWidth (w.extractLsb' 0 4) then
      .ok (.convert (Dir.ofBit (w.getLsbD 11)) (w.getLsbD 10) (w.extractLsb' 4 4) (w.extractLsb' 0 4))
    else .error .badWidth
  else .error .mustBeZero

/-- `decode(w)` of R94. -/
def decode (w : CmdWord) : Except Illegal Instr :=
  match (opcodeField w).toNat with
  | 1 => decodeZ w .chkInit
  | 2 => decodeZ w .chkStep
  | 3 => decodeI w .chkFeedlo
  | 4 => decodeI w .chkFeedhi
  | 5 => decodeZ w .encode
  | 6 => decodeZ w .decode
  | 7 => decodeC w
  | 8 => decodeZ w .addrEnc
  | 9 => decodeZ w .addrDec
  | _ => .error .reservedOpcode

/-- The opcode of each command (R96). -/
def Instr.opcode : Instr → BitVec 4
  | .chkInit => 1#4
  | .chkStep => 2#4
  | .chkFeedlo _ => 3#4
  | .chkFeedhi _ => 4#4
  | .encode => 5#4
  | .decode => 6#4
  | .convert _ _ _ _ => 7#4
  | .addrEnc => 8#4
  | .addrDec => 9#4

/-- Bits 11:0 of each command's word (R91). -/
def Instr.lowBits : Instr → BitVec 12
  | .chkFeedlo imm8 => 0#4 ++ imm8
  | .chkFeedhi imm8 => 0#4 ++ imm8
  | .convert dir pad inbits outbits => BitVec.ofBool dir.toBit ++ BitVec.ofBool pad ++ 0#2 ++ inbits ++ outbits
  | .chkInit => 0#12
  | .chkStep => 0#12
  | .encode => 0#12
  | .decode => 0#12
  | .addrEnc => 0#12
  | .addrDec => 0#12

/-- The word of a command (R91, R96). -/
def encode (i : Instr) : CmdWord := i.opcode ++ i.lowBits

/-- What the decoder reads from a word numbered as the opcode table numbers its bits: every row is one 16-bit word, so
bits above 15 are no part of a command (R90, R97). -/
def decodeTableWord (nbits w : Nat) : Option Instr :=
  if w % 2 ^ nbits < 2 ^ 16 then
    match decode (BitVec.ofNat 16 (w % 2 ^ nbits)) with
    | .ok i => some i
    | .error _ => none
  else none

end Sys2Proof
end

