-- ==== Sys2Proof/Config.lean ====
section
/-! DEFINITION. The free values of the model: what the spec calls `UNSPEC` (R12, U1, U2). Nothing in Lean can evaluate
them or prove a value of one. A draw is numbered by State's counter `draw`; one draw supplies every register and every
byte that one failure or one reset leaves unspecified, each under an argument of its own, so that no two are related.
B32 has no other parameter (R8: the model takes none). -/

namespace Sys2Proof

/-- The value that draw `draw` gives the buffer byte at `addr` (U1, U2; log entry 3). -/
opaque Config.unspecByte (draw addr : Nat) : Byte

/-- The value that draw `draw` gives the 8-bit register with number `reg` of the register map (U1; log entry 4). -/
opaque Config.unspecReg (draw reg : Nat) : Byte

/-- The value that draw `draw` gives `CHK`, within its 30 bits (U1; log entry 4). -/
opaque Config.unspecChk (draw : Nat) : Chk

end Sys2Proof
end

