-- ==== Sys2Proof/Machine/State.lean ====
section
/-! DEFINITION. The state of B32 as plain data (R20), the vocabulary of its registers, regions and host transactions, the
reasons a step can stop, and the state after reset (R36). -/

namespace Sys2Proof.Machine

/-- The five regions of buffer memory (R61). -/
inductive Region where
  /-- The encoded string. -/
  | str
  /-- The prefix. -/
  | hrp
  /-- 5-bit symbols, one per byte. -/
  | sym
  /-- Raw payload bytes. -/
  | byte
  /-- The expected prefix of `ADDR.DEC`. -/
  | exp
deriving DecidableEq, Repr

/-- The 8-bit registers of the register map (R21): the five lengths and the converter's capacity. -/
inductive Reg8 where
  /-- `HLEN` (R23). -/
  | hlen
  /-- `SLEN` (R24). -/
  | slen
  /-- `DLEN` (R25). -/
  | dlen
  /-- `BLEN` (R26). -/
  | blen
  /-- `ELEN` (R27). -/
  | elen
  /-- `CCAP` (R30). -/
  | ccap
deriving DecidableEq, Repr

/-- A host transaction (R16, R70, D1). -/
inductive Transaction where
  /-- `BufRead(a)` (R65). -/
  | bufRead (addr : BufAddr)
  /-- `BufWrite(a, v)`, which keeps `v[7:0]` (R65; log entry 8 for the width of `v`). -/
  | bufWrite (addr : BufAddr) (value : Word)
  /-- `RegRead(n)` (R21). -/
  | regRead (num : RegNum)
  /-- `RegWrite(n, v)` (R21). -/
  | regWrite (num : RegNum) (value : Word)
  /-- `Cmd(w)` (R90). -/
  | cmd (word : CmdWord)
  /-- `Reset` (R250). -/
  | reset
deriving DecidableEq, Repr

/-- What a transaction returns to the host: `BufRead` a byte, `RegRead` a 32-bit word, every other nothing (R21, R65). -/
inductive Reply where
  /-- Nothing is returned. -/
  | none
  /-- The byte a `BufRead` returns. -/
  | byte (b : Byte)
  /-- The value a `RegRead` returns. -/
  | word (v : Word)
deriving DecidableEq, Repr

/-- The reasons of a host fault (R226). The machine does not record the reason. -/
inductive HostFault where
  /-- A `Cmd(w)` whose word is illegal (R95). -/
  | illegalCommand
  /-- A buffer access at 0x280 or above (R65). -/
  | unmappedBuffer
  /-- A register access with number 8 to 15 (R21). -/
  | reservedRegister
deriving DecidableEq, Repr

/-- The causes of a failure (R223): labels for the conditions, no part of the state (U8). When several hold, the label
is the first one met in the order of the command's pseudocode (R224). -/
inductive Cause where
  | lenBound
  | noSeparator
  | dataShort
  | emptyPrefix
  | prefixRange
  | symbolRange
  | notInAlphabet
  | prefixUpper
  | mixedCase
  | checksum
  | prefixMismatch
  | discriminant
  | payloadLen
  | leftover
  | capacity
  | inputRange
  | inputLen
deriving DecidableEq, Repr

/-- Why the machine would stop with a fault. There is no such reason: a failure and a host fault are ordinary next
states (R220, R226), nothing traps and nothing hangs (R18, R228), so no step of this machine raises a fault (log
entry 12, safe). -/
inductive Fault where
deriving DecidableEq, Repr

/-- Why the model would refuse a command. -/
inductive Refusal where
  /-- Raised only by an arm of `exec` whose command has no meaning yet (no arm at present); safe, since a refused command
  proves nothing about the machine. -/
  | notModelled (mnemonic : String)
deriving DecidableEq, Repr

/-- Buffer memory: the bytes that hold a known value, as cells of strictly rising address. A byte that is not listed is
`UNSPEC` (R36, R222): it reads as a free value (log entry 3). -/
abbrev Memory := List Host.Cell

/-- For each region, the number of the draw that supplies its unlisted bytes (the model's own; log entries 3 and 5). -/
structure Fill where
  str : Nat
  hrp : Nat
  sym : Nat
  byte : Nat
  exp : Nat
deriving DecidableEq, Repr

/-- The state. The first group of fields is the architectural state of R20, exactly; the second is the model's own. -/
structure State where
  /-- `CHK`, the checksum accumulator (R22). -/
  chk : Chk
  /-- `STATUS.OK` (R29). -/
  ok : Bool
  /-- `STATUS.HFLT` (R29). -/
  hflt : Bool
  /-- `HLEN` (R23). -/
  hlen : Byte
  /-- `SLEN` (R24). -/
  slen : Byte
  /-- `DLEN` (R25). -/
  dlen : Byte
  /-- `BLEN` (R26). -/
  blen : Byte
  /-- `ELEN` (R27). -/
  elen : Byte
  /-- `CCAP` (R30). -/
  ccap : Byte
  /-- The 640 bytes of buffer memory (R34). -/
  mem : Memory
  /-- Where the unlisted bytes of each region come from (log entry 3). -/
  fill : Fill
  /-- The number of the next draw of unspecified values (log entry 5). -/
  draw : Nat
  /-- The run: the host's list of transactions (R261; log entry 1). -/
  program : List Transaction
  /-- The index in the run of the next transaction (R28; log entry 1). -/
  pc : Nat
  /-- What the latest transaction returned to the host (log entry 2). -/
  reply : Reply
deriving DecidableEq, Repr

/-- The block after reset (R36, R250), with no transaction issued yet (R251): every byte of buffer memory is unspecified,
so nothing is listed. -/
def State.reset : State where
  chk := 1
  ok := false
  hflt := false
  hlen := 0
  slen := 0
  dlen := 0
  blen := 0
  elen := 0
  ccap := 64
  mem := []
  fill := ⟨0, 0, 0, 0, 0⟩
  draw := 1
  program := []
  pc := 0
  reply := .none

end Sys2Proof.Machine
end

