-- ==== Sys2Proof/Machine/Flags.lean ====
section
/-! DEFINITION. The two flags of `STATUS` (R29) and the register's value as software reads it. -/

namespace Sys2Proof.Machine

/-- `STATUS.OK <- b`. -/
def State.setOk (b : Bool) (s : State) : State := { s with ok := b }

/-- `STATUS.HFLT <- 1`: it is set by a host fault and cleared by reset only (R29). -/
def State.setHflt (s : State) : State := { s with hflt := true }

/-- `STATUS` as the register port reads it: `OK` in bit 0, `HFLT` in bit 1, every other bit 0 (R21, U6). -/
def State.statusWord (s : State) : Word := 0#30 ++ BitVec.ofBool s.hflt ++ BitVec.ofBool s.ok

/-- `succeed` (R221): `STATUS.OK <- 1`, and no other write than those the command has made. -/
def State.succeed (s : State) : State := s.setOk true

end Sys2Proof.Machine
end

