-- ==== Sys2Proof/Machine/Tables.lean ====
section
/-! DEFINITION. The parameters that the spec fixes (R6, R7, R8), the character classes (R13) and the constant tables
`GEN`, `CHARSET` and `REV` (R31, R32, R33). -/

namespace Sys2Proof.Machine

/-- `IDENT`: the accumulator's initial value and the target of a valid string (R6, R124). -/
def ident : Chk := 1#30

/-- `SEP`, the character `'1'` (R6). -/
def sepChar : Byte := 0x31#8

/-- The terminator of the strings in STR and HRP (R148, D17). -/
def terminator : Byte := 0x00#8

/-- `CK_LEN`: the number of checksum symbols (R6). -/
def ckLen : Nat := 6

/-- `MAX_STR` (R6). -/
def maxStr : Nat := 90

/-- `MIN_STR` (R6). -/
def minStr : Nat := 8

/-- `STAGE_CAP`: the address wrapper's capacity and payload bound in symbols (R6). -/
def stageCap : Nat := 64

/-- `REGION_SIZE` (R8). -/
def regionSize : Nat := 128

/-- The number of implemented bytes of buffer memory: 0x280 (R60). -/
def bufSize : Nat := 640

/-- `is_upper` (R13). -/
def isUpper (c : Byte) : Bool := decide (65 ≤ c.toNat) && decide (c.toNat ≤ 90)

/-- `is_lower` (R13). -/
def isLower (c : Byte) : Bool := decide (97 ≤ c.toNat) && decide (c.toNat ≤ 122)

/-- `to_lower` (R13). -/
def toLower (c : Byte) : Byte := if isUpper c then c + 32#8 else c

/-- `in_hrp_range`: `HRP_LO` to `HRP_HI` (R6, R13; 90_conflicts.md C2). -/
def inHrpRange (c : Byte) : Bool := decide (33 ≤ c.toNat) && decide (c.toNat ≤ 126)

/-- `GEN[i]` (R31); the table has five entries. -/
def gen : Nat → Chk
  | 0 => 0x3b6a57b2#30
  | 1 => 0x26508e6d#30
  | 2 => 0x1ea119fa#30
  | 3 => 0x3d4233dd#30
  | 4 => 0x2a1462b3#30
  | _ => 0#30

/-- The 32 characters of `CHARSET`, `qpzry9x8gf2tvdw0s3jn54khce6mua7l`, by their codes (R32). -/
def charset : List Byte :=
  [0x71#8, 0x70#8, 0x7a#8, 0x72#8, 0x79#8, 0x39#8, 0x78#8, 0x38#8,
   0x67#8, 0x66#8, 0x32#8, 0x74#8, 0x76#8, 0x64#8, 0x77#8, 0x30#8,
   0x73#8, 0x33#8, 0x6a#8, 0x6e#8, 0x35#8, 0x34#8, 0x6b#8, 0x68#8,
   0x63#8, 0x65#8, 0x36#8, 0x6d#8, 0x75#8, 0x61#8, 0x37#8, 0x6c#8]

/-- `CHARSET[v]` for a symbol `v` below 32 (R32); every use has checked the bound. -/
def charsetAt (v : Byte) : Byte := charset.getD v.toNat 0#8

/-- The position of the first element equal to `c`, counted from `base`. -/
def positionFrom (c : Byte) : Nat → List Byte → Option Nat
  | _, [] => none
  | base, x :: xs => if x = c then some base else positionFrom c (base + 1) xs

/-- `REV[c]` (R33): the `v` with `CHARSET[v]` = `to_lower(c)`; `none` is the table's `INVALID`, and a byte of 128 or
above has no entry. -/
def rev (c : Byte) : Option Byte :=
  if c.toNat < 128 then (positionFrom (toLower c) 0 charset).map (BitVec.ofNat 8) else none

end Sys2Proof.Machine
end

