-- ==== Sys2Proof/Machine/Ops.lean ====
section
/-! DEFINITION. The named operations over buffer memory and registers: addresses (R61), one-byte access (R62), making
state `UNSPEC` (R222), how a command ends (R221, R222), the host fault (R226), reset (R250) and the register port (R21). -/

namespace Sys2Proof.Machine

/-! Addresses -/

/-- A region's first address (R61). -/
def Region.base : Region → Nat
  | .str => 0x000
  | .hrp => 0x080
  | .sym => 0x100
  | .byte => 0x180
  | .exp => 0x200

/-- The region that address bits [9:7] select; 5, 6 and 7 are unmapped (R61). -/
def Region.ofAddr (a : Nat) : Option Region :=
  match a / 128 with
  | 0 => some .str
  | 1 => some .hrp
  | 2 => some .sym
  | 3 => some .byte
  | 4 => some .exp
  | _ => none

/-! Memory as a list of cells in canonical form -/

/-- The value listed for address `a`; `none` when the byte is `UNSPEC`. -/
def Memory.find? (a : Nat) : Memory → Option Byte
  | [] => none
  | (b, v) :: m => if a = b then some v else Memory.find? a m

/-- `m` with `v` listed for address `a`, in its place in the order. -/
def Memory.insert (a : Nat) (v : Byte) : Memory → Memory
  | [] => [(a, v)]
  | (b, w) :: m =>
    if a < b then (a, v) :: (b, w) :: m
    else if a = b then (a, v) :: m
    else (b, w) :: Memory.insert a v m

/-- Address `a` lies in one of the regions `rs`. -/
def inRegions (rs : List Region) (a : Nat) : Bool :=
  match Region.ofAddr a with
  | some r => rs.contains r
  | none => false

/-- `m` without the bytes of the regions `rs`. -/
def Memory.forget (rs : List Region) (m : Memory) : Memory := m.filter fun c => !inRegions rs c.1

/-- The addresses of `m` rise strictly, the first at least `lo`. -/
def Memory.rising : Nat → Memory → Bool
  | _, [] => true
  | lo, (a, _) :: m => decide (lo ≤ a) && Memory.rising (a + 1) m

/-- The canonical form: strictly rising addresses, all of them implemented (R60). An unlisted byte reads as no listed
value, so no entry can equal it (log entry 3). -/
def Memory.wf (m : Memory) : Bool := Memory.rising 0 m && m.all fun c => decide (c.1 < bufSize)

/-! Where unlisted bytes come from -/

/-- The draw that supplies the unlisted bytes of region `r`. -/
def Fill.get (f : Fill) : Region → Nat
  | .str => f.str
  | .hrp => f.hrp
  | .sym => f.sym
  | .byte => f.byte
  | .exp => f.exp

/-- The regions `rs` take draw `d`, the others keep theirs. -/
def Fill.refresh (rs : List Region) (d : Nat) (f : Fill) : Fill where
  str := if rs.contains .str then d else f.str
  hrp := if rs.contains .hrp then d else f.hrp
  sym := if rs.contains .sym then d else f.sym
  byte := if rs.contains .byte then d else f.byte
  exp := if rs.contains .exp then d else f.exp

/-! One byte of buffer memory -/

/-- `BUF[a]` (R11, R65). A byte that nothing has written since reset or since it became `UNSPEC` is a free value, the
same at every read (R62, U2); an unmapped address reads as 0x00 (R65). -/
def State.readByte (s : State) (a : Nat) : Byte :=
  match Region.ofAddr a with
  | some r =>
    match Memory.find? a s.mem with
    | some v => v
    | none => Config.unspecByte (s.fill.get r) a
  | none => 0x00#8

/-- `BUF[a] <- v` (R11); an unmapped address writes nothing (R65). -/
def State.writeByte (a : Nat) (v : Byte) (s : State) : State :=
  match Region.ofAddr a with
  | some _ => { s with mem := Memory.insert a v s.mem }
  | none => s

/-! Registers -/

/-- The register number of an 8-bit register (R21). -/
def Reg8.num : Reg8 → Nat
  | .hlen => 2
  | .slen => 3
  | .dlen => 4
  | .blen => 5
  | .elen => 6
  | .ccap => 7

/-- `CHK <- v` (R22). -/
def State.setChk (v : Chk) (s : State) : State := { s with chk := v }

/-- The value of an 8-bit register. -/
def State.getReg8 (s : State) : Reg8 → Byte
  | .hlen => s.hlen
  | .slen => s.slen
  | .dlen => s.dlen
  | .blen => s.blen
  | .elen => s.elen
  | .ccap => s.ccap

/-- An 8-bit register is written. -/
def State.setReg8 (r : Reg8) (v : Byte) (s : State) : State :=
  match r with
  | .hlen => { s with hlen := v }
  | .slen => { s with slen := v }
  | .dlen => { s with dlen := v }
  | .blen => { s with blen := v }
  | .elen => { s with elen := v }
  | .ccap => { s with ccap := v }

/-! How a command ends -/

/-- The outputs of a command: the state that is `UNSPEC` after it fails (R222). -/
structure Outputs where
  /-- The regions, all 128 bytes of each. -/
  regions : List Region
  /-- The length registers. -/
  regs : List Reg8
  /-- Whether `CHK` is an output. -/
  chk : Bool
deriving DecidableEq, Repr

/-- An 8-bit register after a failure with outputs `o` (R222). -/
def State.regAfterFail (o : Outputs) (r : Reg8) (s : State) : Byte :=
  if o.regs.contains r then Config.unspecReg s.draw r.num else s.getReg8 r

/-- `fail(Cause)` (R222): `STATUS.OK <- 0`, every output becomes `UNSPEC` by a draw of its own, every other piece of
state keeps the value it had before the command. The cause is recorded nowhere (R223). -/
def State.fail (o : Outputs) (_cause : Cause) (s : State) : State :=
  { s with
    ok := false
    chk := if o.chk then Config.unspecChk s.draw else s.chk
    hlen := s.regAfterFail o .hlen
    slen := s.regAfterFail o .slen
    dlen := s.regAfterFail o .dlen
    blen := s.regAfterFail o .blen
    elen := s.regAfterFail o .elen
    ccap := s.regAfterFail o .ccap
    mem := Memory.forget o.regions s.mem
    fill := Fill.refresh o.regions s.draw s.fill
    draw := s.draw + 1 }

/-- How a legal command ends (R220): `attempt` is the state its writes leave when it succeeds, or the cause of its
failure. -/
def State.complete (o : Outputs) (attempt : Except Cause State) (s : State) : State :=
  match attempt with
  | .ok t => t.succeed
  | .error c => s.fail o c

/-! The host fault and reset -/

/-- `raise HostFault(reason)` (R226), the one operation for all three reasons: `STATUS.HFLT <- 1`, and for an illegal
command `STATUS.OK <- 0`. -/
def State.raiseHostFault (reason : HostFault) (s : State) : State :=
  match reason with
  | .illegalCommand => (s.setHflt).setOk false
  | .unmappedBuffer => s.setHflt
  | .reservedRegister => s.setHflt

/-- Every region of buffer memory. -/
def Region.all : List Region := [.str, .hrp, .sym, .byte, .exp]

/-- The `Reset` transaction (R250): every register at its reset value, every byte of buffer memory `UNSPEC` by a new
draw. The host's run and its place in it are the host's (R28) and stay. -/
def State.resetBlock (s : State) : State :=
  { s with
    chk := ident
    ok := false
    hflt := false
    hlen := 0
    slen := 0
    dlen := 0
    blen := 0
    elen := 0
    ccap := 64
    mem := []
    fill := Fill.refresh Region.all s.draw s.fill
    draw := s.draw + 1 }

/-! The register port -/

/-- What a register number of the port names (R21). -/
inductive PortReg where
  | chk
  | status
  | reg8 (r : Reg8)
  | reserved
deriving DecidableEq, Repr

/-- The register map (R21). -/
def PortReg.ofNum (n : RegNum) : PortReg :=
  match n.toNat with
  | 0 => .chk
  | 1 => .status
  | 2 => .reg8 .hlen
  | 3 => .reg8 .slen
  | 4 => .reg8 .dlen
  | 5 => .reg8 .blen
  | 6 => .reg8 .elen
  | 7 => .reg8 .ccap
  | _ => .reserved

/-- The value `RegRead(n)` returns: unimplemented bits, and a reserved register, read as 0 (R21, R226). -/
def State.portValue (s : State) (n : RegNum) : Word :=
  match PortReg.ofNum n with
  | .chk => s.chk.setWidth 32
  | .status => s.statusWord
  | .reg8 r => (s.getReg8 r).setWidth 32
  | .reserved => 0#32

/-- What `RegRead(n)` does to the state: nothing but the host fault of a reserved number (R21). -/
def State.portRead (n : RegNum) (s : State) : State :=
  match PortReg.ofNum n with
  | .chk => s
  | .status => s
  | .reg8 _ => s
  | .reserved => s.raiseHostFault .reservedRegister

/-- `RegWrite(n, v)` (R21): unimplemented bits ignore the write, so does the whole of `STATUS` (U7). -/
def State.portWrite (n : RegNum) (v : Word) (s : State) : State :=
  match PortReg.ofNum n with
  | .chk => s.setChk (v.setWidth 30)
  | .status => s
  | .reg8 r => s.setReg8 r (v.setWidth 8)
  | .reserved => s.raiseHostFault .reservedRegister

/-! The buffer port -/

/-- What `BufRead(a)` does to the state: nothing but the host fault of an unmapped address (R62, R65). -/
def State.bufRead (a : BufAddr) (s : State) : State :=
  match Region.ofAddr a.toNat with
  | some _ => s
  | none => s.raiseHostFault .unmappedBuffer

/-- `BufWrite(a, v)` (R65): the byte `v[7:0]` is stored; an unmapped address is a host fault and stores nothing. -/
def State.bufWrite (a : BufAddr) (v : Word) (s : State) : State :=
  match Region.ofAddr a.toNat with
  | some _ => s.writeByte a.toNat (v.setWidth 8)
  | none => s.raiseHostFault .unmappedBuffer

end Sys2Proof.Machine
end

