-- ==== Sys2Proof/Machine/Operands.lean ====
section
/-! DEFINITION. The operand forms: the fields of `imm8` (R93), a run of bytes of a region (R66), the operand map of
`CONVERT` (R181) and the outputs of each command (R222). -/

namespace Sys2Proof.Machine

/-- `zext_30(imm8[4:0])`: the low 5 bits (R126). -/
def low5 (c : Byte) : Chk := (c.extractLsb' 0 5).setWidth 30

/-- `zext_30(imm8[7:5])`: the top 3 bits (R127). -/
def high3 (c : Byte) : Chk := (c.extractLsb' 5 3).setWidth 30

/-- The first `n` bytes of region `r` (R66: region base + index). -/
def State.span (s : State) (r : Region) (n : Nat) : List Byte := (List.range n).map fun i => s.readByte (r.base + i)

/-- The bytes `bs` are written to region `r` from index `i` up (R66). -/
def State.writeSpan (r : Region) : Nat → List Byte → State → State
  | _, [], s => s
  | i, b :: bs, s => State.writeSpan r (i + 1) bs (s.writeByte (r.base + i) b)

/-- The input region of `CONVERT` (R181). -/
def Dir.source : Dir → Region
  | .b2s => .byte
  | .s2b => .sym

/-- The output region of `CONVERT` (R181). -/
def Dir.target : Dir → Region
  | .b2s => .sym
  | .s2b => .byte

/-- The input length register of `CONVERT` (R181). -/
def Dir.inLen : Dir → Reg8
  | .b2s => .blen
  | .s2b => .dlen

/-- The output length register of `CONVERT`, read as the append position and written (R181, R188). -/
def Dir.outLen : Dir → Reg8
  | .b2s => .dlen
  | .s2b => .blen

/-- `min(CCAP, 128)`, the capacity of `CONVERT` (R30). -/
def State.convertCap (s : State) : Nat := min s.ccap.toNat regionSize

/-- The outputs of `ENCODE` (R222). -/
def encodeOutputs : Outputs := { regions := [.str], regs := [.slen], chk := true }

/-- The outputs of `DECODE` (R222). -/
def decodeOutputs : Outputs := { regions := [.hrp, .sym], regs := [.hlen, .dlen], chk := true }

/-- The outputs of `CONVERT` (R222). -/
def convertOutputs (dir : Dir) : Outputs := { regions := [Dir.target dir], regs := [Dir.outLen dir], chk := false }

/-- The outputs of `ADDR.ENC` (R222). -/
def addrEncOutputs : Outputs := { regions := [.sym, .str], regs := [.dlen, .slen], chk := true }

/-- The outputs of `ADDR.DEC` (R222). -/
def addrDecOutputs : Outputs := { regions := [.hrp, .sym, .byte], regs := [.hlen, .dlen, .blen], chk := true }

end Sys2Proof.Machine
end

