-- ==== Sys2Proof/Machine/Checksum.lean ====
section
/-! DEFINITION. The checksum engine: `STEP` (R121), the pass (R128), the checksum value (R129), and the four commands
that drive `CHK` directly (R124 to R127). -/

namespace Sys2Proof.Machine

/-- `GEN[i]` when bit `i` of the high part is set, else nothing to fold in (R121). -/
def genIf (b : BitVec 5) (i : Nat) : Chk := if b.getLsbD i then gen i else 0#30

/-- `STEP(c)` (R121): the low 25 bits move up by 5, and bit `25 + i` of `c` folds in `GEN[i]`. -/
def chkStep (c : Chk) : Chk :=
  let b := c.extractLsb' 25 5
  let r : Chk := c.extractLsb' 0 25 ++ 0#5
  r ^^^ genIf b 0 ^^^ genIf b 1 ^^^ genIf b 2 ^^^ genIf b 3 ^^^ genIf b 4

/-- One `STEP` for each value of `vs`, the value folded in after it. -/
def feedAll (c : Chk) (vs : List Chk) : Chk := vs.foldl (fun c v => chkStep c ^^^ v) c

/-- `PASS(p, s)` (R128): the prefix's top 3 bits, the separator step, the prefix's low 5 bits, then one step per symbol. -/
def pass (p syms : List Byte) : Chk :=
  let high := feedAll ident (p.map high3)
  let low := feedAll (chkStep high) (p.map low5)
  feedAll low (syms.map fun v => v.setWidth 30)

/-- `CHECKSUM(p, d)` (R129): the pass over the data and 6 zero-padding steps, XORed with 1. -/
def checksum (p d : List Byte) : Chk := pass p (d ++ List.replicate ckLen 0#8) ^^^ ident

/-- The checksum symbols (R129, R147): symbol `t` is `k[29-5t : 25-5t]`. -/
def checkSymbols (k : Chk) : List Byte := (List.range ckLen).map fun t => (k.extractLsb' (25 - 5 * t) 5).setWidth 8

/-- `CHK.INIT` (R124). -/
def execChkInit (s : State) : Host.Outcome State Fault Refusal := .next (s.setChk ident).succeed

/-- `CHK.STEP` (R125). -/
def execChkStep (s : State) : Host.Outcome State Fault Refusal := .next (s.setChk (chkStep s.chk)).succeed

/-- `CHK.FEEDLO imm8` (R126). -/
def execChkFeedlo (imm8 : Byte) (s : State) : Host.Outcome State Fault Refusal :=
  .next (s.setChk (chkStep s.chk ^^^ low5 imm8)).succeed

/-- `CHK.FEEDHI imm8` (R127). -/
def execChkFeedhi (imm8 : Byte) (s : State) : Host.Outcome State Fault Refusal :=
  .next (s.setChk (chkStep s.chk ^^^ high3 imm8)).succeed

end Sys2Proof.Machine
end

