-- ==== Sys2Proof/Machine/Codec.lean ====
section
/-! DEFINITION. The generic codec: `ENCODE` (R141 to R149) and `DECODE` (R150 to R158). -/

namespace Sys2Proof.Machine

/-- The failure that the first bad prefix character gives `ENCODE` (R143). -/
def prefixFault : List Byte → Option Cause
  | [] => none
  | c :: cs =>
    if !inHrpRange c then some .prefixRange
    else if isUpper c then some .prefixUpper
    else prefixFault cs

/-- The byte is a symbol: a value of 5 bits, tested on the whole byte (R145). -/
def isSymbol (v : Byte) : Bool := decide (v.toNat < 32)

/-- The string of a prefix and its data symbols (R140, R146, R147). -/
def encodedString (p d : List Byte) : List Byte :=
  p ++ [sepChar] ++ d.map charsetAt ++ (checkSymbols (checksum p d)).map charsetAt

/-- The writes of a successful `ENCODE` of prefix `p` and data `d` (R141, R148). -/
def State.putString (p d : List Byte) (s : State) : State :=
  let str := encodedString p d
  (((s.writeSpan .str 0 (str ++ [terminator])).setReg8 .slen (BitVec.ofNat 8 str.length)).setChk (checksum p d))

/-- `ENCODE` up to how it ends (R141). -/
def State.encodeAttempt (s : State) : Except Cause State :=
  let h := s.hlen.toNat
  let n := s.dlen.toNat
  if h = 0 then .error .emptyPrefix
  else if h + 7 + n > maxStr then .error .lenBound
  else
    let p := s.span .hrp h
    let d := s.span .sym n
    match prefixFault p with
    | some c => .error c
    | none => if d.all isSymbol then .ok (s.putString p d) else .error .symbolRange

/-- `ENCODE` (R141). -/
def execEncode (s : State) : Host.Outcome State Fault Refusal :=
  .next (s.complete encodeOutputs s.encodeAttempt)

/-- The position of the last `1` of a string (R152). -/
def lastSep : List Byte → Option Nat
  | [] => none
  | c :: cs =>
    match lastSep cs with
    | some i => some (i + 1)
    | none => if c = sepChar then some 0 else none

/-- The symbols of the data-part characters; `none` when one of them is not in the alphabet (R154). -/
def revAll : List Byte → Option (List Byte)
  | [] => some []
  | c :: cs =>
    match rev c, revAll cs with
    | some v, some vs => some (v :: vs)
    | _, _ => none

/-- Upper- and lower-case letters are both present (R155). -/
def mixedCase (cs : List Byte) : Bool := cs.any isLower && cs.any isUpper

/-- The tests that `DECODE` makes on a string of legal length, and what it recovers: the lower-case prefix and the
symbols of the whole data part (R150). -/
def parseString (str : List Byte) : Except Cause (List Byte × List Byte) :=
  match lastSep str with
  | none => .error .noSeparator
  | some sep =>
    if str.length - 1 - sep < ckLen then .error .dataShort
    else if sep = 0 then .error .emptyPrefix
    else
      let p := str.take sep
      let e := str.drop (sep + 1)
      if !p.all inHrpRange then .error .prefixRange
      else
        match revAll e with
        | none => .error .notInAlphabet
        | some syms =>
          if mixedCase (p ++ e) then .error .mixedCase
          else if pass (p.map toLower) syms ≠ ident then .error .checksum
          else .ok (p.map toLower, syms)

/-- The writes of a successful `DECODE` that recovered prefix `p` and data part `syms` (R150, R157). -/
def State.putParsed (p syms : List Byte) (s : State) : State :=
  let d := syms.take (syms.length - ckLen)
  ((((s.setChk ident).writeSpan .hrp 0 (p ++ [terminator])).writeSpan .sym 0 d).setReg8 .hlen
    (BitVec.ofNat 8 p.length)).setReg8 .dlen (BitVec.ofNat 8 d.length)

/-- `DECODE` up to how it ends (R150). -/
def State.decodeAttempt (s : State) : Except Cause State :=
  let l := s.slen.toNat
  if l < minStr ∨ l > maxStr then .error .lenBound
  else
    match parseString (s.span .str l) with
    | .error c => .error c
    | .ok (p, syms) => .ok (s.putParsed p syms)

/-- `DECODE` (R150). -/
def execDecode (s : State) : Host.Outcome State Fault Refusal :=
  .next (s.complete decodeOutputs s.decodeAttempt)

end Sys2Proof.Machine
end

