-- ==== Sys2Proof/Machine/Converter.lean ====
section
/-! DEFINITION. The bit-width converter `CONVERT` (R180 to R189). -/

namespace Sys2Proof.Machine

/-- The converter's locals (R183, R35): the bits not yet emitted as a number, how many they are, and the values appended
so far. -/
structure Regroup where
  val : Nat
  bits : Nat
  out : List Byte
deriving DecidableEq, Repr

/-- Appending one value tests the output position against the capacity first (R185). `base` is the entry value of the
output length register, `room` the capacity. -/
def Regroup.append (base room : Nat) (v : Nat) (a : Regroup) : Except Cause Regroup :=
  if base + a.out.length ≥ room then .error .capacity
  else .ok { a with out := a.out ++ [BitVec.ofNat 8 v] }

/-- The loop `while bits ≥ outbits` of R183. Each round takes at least one bit, so `bits` rounds are enough fuel. -/
def Regroup.emit (outbits base room : Nat) : Nat → Regroup → Except Cause Regroup
  | 0, a => .ok a
  | fuel + 1, a =>
    if a.bits < outbits then .ok a
    else
      let left := a.bits - outbits
      match Regroup.append base room ((a.val >>> left) % 2 ^ outbits) { a with bits := left } with
      | .error c => .error c
      | .ok b => Regroup.emit outbits base room fuel b

/-- The loop over the input values (R183, R184). -/
def Regroup.absorb (inbits outbits base room : Nat) : List Byte → Regroup → Except Cause Regroup
  | [], a => .ok a
  | x :: xs, a =>
    if x.toNat >>> inbits ≠ 0 then .error .inputRange
    else
      let b : Regroup := { a with val := (a.val <<< inbits) ||| x.toNat, bits := a.bits + inbits }
      match Regroup.emit outbits base room b.bits b with
      | .error c => .error c
      | .ok d => Regroup.absorb inbits outbits base room xs { d with val := d.val % 2 ^ d.bits }

/-- The tail (R186). -/
def Regroup.tail (pad : Bool) (inbits outbits base room : Nat) (a : Regroup) : Except Cause Regroup :=
  let top := (a.val <<< (outbits - a.bits)) % 2 ^ outbits
  if pad then
    if a.bits > 0 then Regroup.append base room top a else .ok a
  else if a.bits ≥ inbits then .error .leftover
  else if top ≠ 0 then .error .leftover
  else .ok a

/-- The values that the input `xs` regroups to, or the failure (R183). -/
def regroup (pad : Bool) (inbits outbits base room : Nat) (xs : List Byte) : Except Cause (List Byte) :=
  match Regroup.absorb inbits outbits base room xs { val := 0, bits := 0, out := [] } with
  | .error c => .error c
  | .ok a =>
    match Regroup.tail pad inbits outbits base room a with
    | .error c => .error c
    | .ok b => .ok b.out

/-- `CONVERT` with capacity `room`, up to how it ends (R181, R182, R183). -/
def State.convertAttempt (dir : Dir) (pad : Bool) (inbits outbits room : Nat) (s : State) : Except Cause State :=
  let ilen := (s.getReg8 (Dir.inLen dir)).toNat
  let base := (s.getReg8 (Dir.outLen dir)).toNat
  if ilen > regionSize then .error .inputLen
  else
    match regroup pad inbits outbits base room (s.span (Dir.source dir) ilen) with
    | .error c => .error c
    | .ok out =>
      .ok ((s.writeSpan (Dir.target dir) base out).setReg8 (Dir.outLen dir) (BitVec.ofNat 8 (base + out.length)))

/-- `CONVERT dir, pad, inbits, outbits` (R183). Widths outside 1 to 8 are no command: their word is illegal, and the
machine answers it with the host fault of R95 (log entry 7). -/
def execConvert (dir : Dir) (pad : Bool) (inbits outbits : BitVec 4) (s : State) : Host.Outcome State Fault Refusal :=
  if legalWidth inbits && legalWidth outbits then
    .next (s.complete (convertOutputs dir) (s.convertAttempt dir pad inbits.toNat outbits.toNat s.convertCap))
  else .next (s.raiseHostFault .illegalCommand)

end Sys2Proof.Machine
end

