-- ==== Sys2Proof/Machine/Address.lean ====
section
/-! DEFINITION. The address wrapper: `ADDR.ENC` (R201 to R203) and `ADDR.DEC` (R204 to R208), which perform the attempts
of the core commands in order and end at the first failing stage. -/

namespace Sys2Proof.Machine

/-- `ADDR.ENC` up to how it ends (R201). -/
def State.addrEncAttempt (s : State) : Except Cause State :=
  match (s.setReg8 .dlen 0).convertAttempt .b2s true 8 5 stageCap with
  | .error c => .error c
  | .ok t => t.encodeAttempt

/-- `ADDR.ENC` (R201). -/
def execAddrEnc (s : State) : Host.Outcome State Fault Refusal :=
  .next (s.complete addrEncOutputs s.addrEncAttempt)

/-- The recovered prefix equals the expected one in length and in every byte (R206); EXP is read only when the lengths
agree. -/
def State.prefixMatches (t : State) : Bool :=
  if t.hlen = t.elen then decide (t.span .hrp t.hlen.toNat = t.span .exp t.elen.toNat) else false

/-- The tests and the conversion that `ADDR.DEC` makes after its `DECODE` stage left state `t` (R204 to R207). -/
def State.acceptPayload (t : State) : Except Cause State :=
  if t.dlen.toNat = 0 ∨ t.dlen.toNat > stageCap then .error .payloadLen
  else if !t.prefixMatches then .error .prefixMismatch
  else
    match (t.setReg8 .blen 0).convertAttempt .s2b false 5 8 stageCap with
    | .error c => .error c
    | .ok u => if u.readByte Region.byte.base ≠ 0#8 then .error .discriminant else .ok u

/-- `ADDR.DEC` up to how it ends (R204). -/
def State.addrDecAttempt (s : State) : Except Cause State :=
  match s.decodeAttempt with
  | .error c => .error c
  | .ok t => t.acceptPayload

/-- `ADDR.DEC` (R204). -/
def execAddrDec (s : State) : Host.Outcome State Fault Refusal :=
  .next (s.complete addrDecOutputs s.addrDecAttempt)

end Sys2Proof.Machine
end

