-- ==== Sys2Proof/Machine/Dispatch.lean ====
section
/-! DEFINITION. One arm per command (R96): the call of its meaning. -/

namespace Sys2Proof.Machine

def exec (i : Instr) (s : State) : Host.Outcome State Fault Refusal :=
  match i with
  | .chkInit => Sys2Proof.Machine.execChkInit s
  | .chkStep => Sys2Proof.Machine.execChkStep s
  | .chkFeedlo imm8 => Sys2Proof.Machine.execChkFeedlo imm8 s
  | .chkFeedhi imm8 => Sys2Proof.Machine.execChkFeedhi imm8 s
  | .encode => Sys2Proof.Machine.execEncode s
  | .decode => Sys2Proof.Machine.execDecode s
  | .convert dir pad inbits outbits => Sys2Proof.Machine.execConvert dir pad inbits outbits s
  | .addrEnc => Sys2Proof.Machine.execAddrEnc s
  | .addrDec => Sys2Proof.Machine.execAddrDec s

end Sys2Proof.Machine
end

