-- ==== Sys2Proof/Machine/Transactions.lean ====
section
/-! DEFINITION. What each host transaction does (R16, R21, R65, R94, R226, R250), the fetch of the next one, and the
advance to the one after it (R28). -/

namespace Sys2Proof.Machine

/-- `Cmd(w)` (R94): a decoded command executes by its rule; an illegal word is a host fault (R95). -/
def State.runCmd (w : CmdWord) (s : State) : Host.Outcome State Fault Refusal :=
  match decode w with
  | .ok i => exec i s
  | .error _ => .next (s.raiseHostFault .illegalCommand)

/-- What a transaction does to the block. -/
def State.perform (t : Transaction) (s : State) : Host.Outcome State Fault Refusal :=
  match t with
  | .bufRead a => .next (s.bufRead a)
  | .bufWrite a v => .next (s.bufWrite a v)
  | .regRead n => .next (s.portRead n)
  | .regWrite n v => .next (s.portWrite n v)
  | .cmd w => s.runCmd w
  | .reset => .next s.resetBlock

/-- What a transaction issued in state `s` returns to the host (R21, R65): a read returns the value before it, a faulting
read 0 (R226). -/
def State.replyTo (t : Transaction) (s : State) : Reply :=
  match t with
  | .bufRead a => .byte (s.readByte a.toNat)
  | .regRead n => .word (s.portValue n)
  | .bufWrite _ _ => .none
  | .regWrite _ _ => .none
  | .cmd _ => .none
  | .reset => .none

/-- The transaction is over: its reply stands, and the index in the run advances by exactly 1 (R28). -/
def State.finish (r : Reply) (s : State) : State := { s with reply := r, pc := s.pc + 1 }

/-- The next transaction of the run; none once the run has ended (R261). -/
def State.nextTransaction (s : State) : Option Transaction := s.program[s.pc]?

/-- The host's next transaction is performed to completion (R71). With no transaction left the block holds its state
(R251, R261). -/
def State.advance (s : State) : Host.Outcome State Fault Refusal :=
  match s.nextTransaction with
  | none => .next s
  | some t =>
    match s.perform t with
    | .next u => .next (u.finish (s.replyTo t))
    | .fault f => .fault f
    | .refused r => .refused r

/-- The run with transaction `t` at index `pos`; an index beyond the end, which no run reaches, is first filled up with
reads of `STATUS`, which have no effect and are never performed. -/
def placeTransaction (pos : Nat) (t : Transaction) (run : List Transaction) : List Transaction :=
  (run ++ List.replicate (pos - run.length) (Transaction.regRead 1#4)).take pos ++ t :: run.drop (pos + 1)

/-- The command word that a table row's number stands for: the row's `nbits` bits, every bit above them 0 (R90). -/
def tableWord (nbits w : Nat) : CmdWord := BitVec.ofNat 16 (w % 2 ^ nbits)

end Sys2Proof.Machine
end

