-- ==== Sys2Proof/Machine/Step.lean ====
section
/-! DEFINITION. One step of the machine: the next transaction of the run (R70, R71). -/

namespace Sys2Proof.Machine

/-- One step. -/
def step (s : State) : Host.Outcome State Fault Refusal := s.advance

/-- `s` with the command word of a table row as the run's next transaction (log entry 1: commands are never fetched from
memory, R74, so this stands for the host issuing it). -/
def State.withFetchWord (s : State) (nbits w : Nat) : State :=
  { s with program := placeTransaction s.pc (.cmd (tableWord nbits w)) s.program }

end Sys2Proof.Machine
end

