-- ==== Sys2Proof/Machine/Assembly.lean ====
section
/-! DEFINITION. The assembly text of a command (R98) and the pseudo-commands (R99). -/

namespace Sys2Proof.Machine

/-- The `dir` operand as the assembly syntax writes it (R98). -/
def dirText : Dir → String
  | .b2s => "b2s"
  | .s2b => "s2b"

/-- The `pad` operand as the assembly syntax writes it (R98). -/
def padText (pad : Bool) : String := if pad then "pad" else "nopad"

/-- The line of the assembly syntax for a command (R98). An immediate is written in decimal (log entry 16: the syntax
also admits hexadecimal and a quoted character). -/
def assemblyText : Instr → String
  | .chkInit => "CHK.INIT"
  | .chkStep => "CHK.STEP"
  | .chkFeedlo imm8 => "CHK.FEEDLO " ++ toString imm8.toNat
  | .chkFeedhi imm8 => "CHK.FEEDHI " ++ toString imm8.toNat
  | .encode => "ENCODE"
  | .decode => "DECODE"
  | .convert dir pad inbits outbits =>
    "CONVERT " ++ dirText dir ++ ", " ++ padText pad ++ ", " ++ toString inbits.toNat ++ ", " ++ toString outbits.toNat
  | .addrEnc => "ADDR.ENC"
  | .addrDec => "ADDR.DEC"

/-- The pseudo-commands (R99). They have no words of their own. -/
inductive Pseudo where
  /-- `CHK.SEP`. -/
  | chkSep
  /-- `CHK.PAD6`. -/
  | chkPad6
  /-- `CHK.FEED v`, `v` in 0 to 31. -/
  | chkFeed (v : BitVec 5)
  /-- `CONV.8TO5`. -/
  | conv8to5
  /-- `CONV.5TO8`. -/
  | conv5to8
deriving DecidableEq, Repr

/-- The exact expansion of a pseudo-command (R99). -/
def Pseudo.expand : Pseudo → List Instr
  | .chkSep => [.chkStep]
  | .chkPad6 => List.replicate 6 .chkStep
  | .chkFeed v => [.chkFeedlo (v.setWidth 8)]
  | .conv8to5 => [.convert .b2s true 8#4 5#4]
  | .conv5to8 => [.convert .s2b false 5#4 8#4]

end Sys2Proof.Machine
end

