-- ==== Sys2Proof/Safety.lean ====
section
/-! DEFINITION. What counts as a safe run: the host keeps the protocol (R226, R258), a run goes wrong exactly when `HFLT`
is 1 at its end (R261), and the invariant that every step keeps. -/

namespace Sys2Proof.Machine

/-- The word is illegal, by the three conditions of R95 on its fields, read as numbers: bits 15:12 are `w / 4096`. -/
def illegalWord (w : CmdWord) : Bool :=
  let n := w.toNat
  match n / 4096 with
  | 1 | 2 | 5 | 6 | 8 | 9 => decide (n % 4096 ≠ 0)
  | 3 | 4 => decide (n / 256 % 16 ≠ 0)
  | 7 => decide (n / 256 % 4 ≠ 0 ∨ n / 16 % 16 = 0 ∨ 8 < n / 16 % 16 ∨ n % 16 = 0 ∨ 8 < n % 16)
  | _ => true

/-- The transaction is one that a host must not make: it raises a host fault (R226). -/
def Transaction.breaksProtocol : Transaction → Bool
  | .bufRead a => decide (0x280 ≤ a.toNat)
  | .bufWrite a _ => decide (0x280 ≤ a.toNat)
  | .regRead n => decide (8 ≤ n.toNat)
  | .regWrite n _ => decide (8 ≤ n.toNat)
  | .cmd w => illegalWord w
  | .reset => false

/-- A run from `s`: the host's transactions `ts`, none of them performed yet (R261). -/
def State.load (ts : List Transaction) (s : State) : State := { s with program := ts, pc := 0 }

/-- `n` steps, ending at a fault or a refusal. -/
def steps : Nat → State → Host.Outcome State Fault Refusal
  | 0, s => .next s
  | n + 1, s =>
    match step s with
    | .next t => steps n t
    | .fault f => .fault f
    | .refused r => .refused r

/-- The run that ended in `s` has gone wrong (R261). -/
def State.wentWrong (s : State) : Bool := s.hflt

/-- The invariant: buffer memory is in its canonical form (strictly rising implemented addresses, R60), the index is
within the run (R28), and the next draw of unspecified values is one that no region holds yet (U1: a fresh draw). -/
abbrev State.Inv (s : State) : Prop :=
  Memory.wf s.mem = true ∧ s.pc ≤ s.program.length ∧
    s.fill.str < s.draw ∧ s.fill.hrp < s.draw ∧ s.fill.sym < s.draw ∧ s.fill.byte < s.draw ∧ s.fill.exp < s.draw

end Sys2Proof.Machine
end

