-- ==== Sys2Proof/Certificates/Slice0/Obligations.lean ====
section
/-! DEFINITION. The statements about B32 for the provers. The vocabulary comes first, written from the spec's rules and
not from the meanings; then one definition per statement. -/

namespace Sys2Proof.Claims

open Sys2Proof.Machine

/-! Vocabulary -/

/-- Byte `i` of region `r` (R11: `STR[i]`, `HRP[i]`, ...). -/
abbrev cell (s : State) (r : Region) (i : Nat) : Byte := s.readByte (r.base + i)

/-- Address `a` is one of `r[lo..hi)`. -/
abbrev inSpan (r : Region) (lo hi a : Nat) : Prop := r.base + lo ≤ a ∧ a < r.base + hi

/-- The transaction that the next step performs. -/
abbrev nextIs (s : State) (x : Transaction) : Prop := s.program[s.pc]? = some x

/-- The host's side of the state: the run, the place in it and the latest reply. -/
abbrev sameHost (s t : State) : Prop := t.program = s.program ∧ t.pc = s.pc ∧ t.reply = s.reply

/-- The 8-bit registers outside `rs` are unchanged. -/
abbrev keepsRegs (rs : List Reg8) (s t : State) : Prop := ∀ r, r ∉ rs → t.getReg8 r = s.getReg8 r

/-- Where unspecified bytes come from is unchanged. -/
abbrev sameDraws (s t : State) : Prop := t.fill = s.fill ∧ t.draw = s.draw

/-- A legal prefix character of `ENCODE`: 33 to 126 and not 65 to 90 (R143). -/
abbrev encodePrefixChar (c : Byte) : Prop := 33 ≤ c.toNat ∧ c.toNat ≤ 126 ∧ ¬(65 ≤ c.toNat ∧ c.toNat ≤ 90)

/-- The prefix in HRP is one that `ENCODE` accepts (R143, R144). -/
abbrev encodePrefix (s : State) : Prop :=
  1 ≤ s.hlen.toNat ∧ ∀ i < s.hlen.toNat, encodePrefixChar (cell s .hrp i)

/-- The inputs of `ENCODE` meet none of its failure conditions (R142 to R145). -/
abbrev encodeLegal (s : State) : Prop :=
  encodePrefix s ∧ s.hlen.toNat + 7 + s.dlen.toNat ≤ 90 ∧ ∀ j < s.dlen.toNat, (cell s .sym j).toNat < 32

/-- `PASS` (R128) of the prefix `p[i]`, `i < h`, and the symbols `e[j]`, `j < m`. -/
abbrev passOf (h : Nat) (p : Nat → Byte) (m : Nat) (e : Nat → Byte) : Chk :=
  pass ((List.range h).map p) ((List.range m).map e)

/-- `CHECKSUM` (R129): the pass over the data and six zeros, XORed with 1. -/
abbrev checksumOf (h : Nat) (p : Nat → Byte) (n : Nat) (d : Nat → Byte) : Chk :=
  passOf h p (n + 6) (fun j => if j < n then d j else 0#8) ^^^ 1#30

/-- The value of a data-part character, 0 where it has none (R33). -/
abbrev revOr0 (c : Byte) : Byte := (rev c).getD 0#8

/-- An upper-case letter, 65 to 90 (R13). -/
abbrev upperLetter (c : Byte) : Prop := 65 ≤ c.toNat ∧ c.toNat ≤ 90

/-- A lower-case letter, 97 to 122 (R13). -/
abbrev lowerLetter (c : Byte) : Prop := 97 ≤ c.toNat ∧ c.toNat ≤ 122

/-- `to_lower`: 65 to 90 become 97 to 122, every other byte stays (R13). -/
abbrev lowered (c : Byte) : Byte := if upperLetter c then BitVec.ofNat 8 (c.toNat + 32) else c

/-- `to_upper`, on letters the inverse of `to_lower`. -/
abbrev raised (c : Byte) : Byte := if lowerLetter c then BitVec.ofNat 8 (c.toNat - 32) else c

/-- The string in STR is one that `DECODE` accepts, with its separator at index `sep` (R151 to R156). -/
abbrev decodeLegal (s : State) (sep : Nat) : Prop :=
  8 ≤ s.slen.toNat ∧ s.slen.toNat ≤ 90 ∧ 1 ≤ sep ∧ sep + 7 ≤ s.slen.toNat ∧ cell s .str sep = 0x31#8 ∧
    (∀ i < s.slen.toNat, sep < i → cell s .str i ≠ 0x31#8) ∧
    (∀ i < sep, 33 ≤ (cell s .str i).toNat ∧ (cell s .str i).toNat ≤ 126) ∧
    (∀ i < s.slen.toNat, sep < i → (rev (cell s .str i)).isSome = true) ∧
    ¬((∃ i < s.slen.toNat, lowerLetter (cell s .str i)) ∧ ∃ i < s.slen.toNat, upperLetter (cell s .str i)) ∧
    passOf sep (fun i => lowered (cell s .str i)) (s.slen.toNat - 1 - sep) (fun j => revOr0 (cell s .str (sep + 1 + j))) =
      1#30

/-- The stream of `n` values of `inbits` bits as one number, the first value in its highest bits (R180). -/
def stream (inbits : Nat) (x : Nat → Byte) : Nat → Nat
  | 0 => 0
  | n + 1 => stream inbits x n * 2 ^ inbits + (x n).toNat

/-- How many values a conversion of `n` inputs appends (R190). -/
abbrev outCount (pad : Bool) (inbits outbits n : Nat) : Nat :=
  n * inbits / outbits + if pad = true ∧ n * inbits % outbits ≠ 0 then 1 else 0

/-- Output value `j` of a conversion of `n` inputs (R180, R186): the next `outbits` bits of the stream, and for the padded
tail the leftover bits moved to the top of the value. -/
abbrev outValue (inbits outbits : Nat) (x : Nat → Byte) (n j : Nat) : Nat :=
  if (j + 1) * outbits ≤ n * inbits then stream inbits x n / 2 ^ (n * inbits - (j + 1) * outbits) % 2 ^ outbits
  else stream inbits x n % 2 ^ (n * inbits % outbits) * 2 ^ (outbits - n * inbits % outbits)

/-- The tail is one that the non-padding mode accepts (R186): fewer leftover bits than `inbits`, all of them zero. -/
abbrev cleanTail (inbits outbits : Nat) (x : Nat → Byte) (n : Nat) : Prop :=
  n * inbits % outbits < inbits ∧ stream inbits x n % 2 ^ (n * inbits % outbits) = 0

/-- The input region, input length register, output region and output length register of `CONVERT` (R181). -/
abbrev srcOf : Dir → Region
  | .b2s => .byte
  | .s2b => .sym

abbrev dstOf : Dir → Region
  | .b2s => .sym
  | .s2b => .byte

abbrev inLenOf : Dir → Reg8
  | .b2s => .blen
  | .s2b => .dlen

abbrev outLenOf : Dir → Reg8
  | .b2s => .dlen
  | .s2b => .blen

/-- `CONVERT` with these widths meets none of its failure conditions (R182, R184, R185, R186). -/
abbrev convertLegal (dir : Dir) (pad : Bool) (inbits outbits : Nat) (s : State) : Prop :=
  let n := (s.getReg8 (inLenOf dir)).toNat
  let base := (s.getReg8 (outLenOf dir)).toNat
  let count := outCount pad inbits outbits n
  n ≤ 128 ∧ (∀ i < n, (cell s (srcOf dir) i).toNat < 2 ^ inbits) ∧
    (count = 0 ∨ base + count ≤ min s.ccap.toNat 128) ∧ (pad = true ∨ cleanTail inbits outbits (cell s (srcOf dir)) n)

/-- The inputs of `ADDR.ENC` meet none of its failure conditions (R201, R202). -/
abbrev addrEncLegal (s : State) : Prop :=
  s.blen.toNat ≤ 40 ∧ encodePrefix s ∧ s.hlen.toNat + 7 + outCount true 8 5 s.blen.toNat ≤ 90

/-- The inputs of `ADDR.DEC` meet none of its failure conditions, the separator being at `sep` (R204 to R207). -/
abbrev addrDecLegal (s : State) (sep : Nat) : Prop :=
  let d := s.slen.toNat - 7 - sep
  let e := fun j => revOr0 (cell s .str (sep + 1 + j))
  decodeLegal s sep ∧ 1 ≤ d ∧ d ≤ 64 ∧ s.elen.toNat = sep ∧
    (∀ i < sep, lowered (cell s .str i) = cell s .exp i) ∧ cleanTail 5 8 e d ∧ outValue 5 8 e d 0 = 0

/-- The regions that are `UNSPEC` after the command fails (R222). -/
abbrev failRegions : Instr → List Region
  | .chkInit => []
  | .chkStep => []
  | .chkFeedlo _ => []
  | .chkFeedhi _ => []
  | .encode => [.str]
  | .decode => [.hrp, .sym]
  | .convert dir _ _ _ => [dstOf dir]
  | .addrEnc => [.sym, .str]
  | .addrDec => [.hrp, .sym, .byte]

/-- The length registers that are `UNSPEC` after the command fails (R222), which are those it writes on success (R21). -/
abbrev outRegs : Instr → List Reg8
  | .chkInit => []
  | .chkStep => []
  | .chkFeedlo _ => []
  | .chkFeedhi _ => []
  | .encode => [.slen]
  | .decode => [.hlen, .dlen]
  | .convert dir _ _ _ => [outLenOf dir]
  | .addrEnc => [.dlen, .slen]
  | .addrDec => [.hlen, .dlen, .blen]

/-- `CHK` is `UNSPEC` after the command fails (R222). -/
abbrev failChk : Instr → Bool
  | .chkInit => false
  | .chkStep => false
  | .chkFeedlo _ => false
  | .chkFeedhi _ => false
  | .encode => true
  | .decode => true
  | .convert _ _ _ _ => false
  | .addrEnc => true
  | .addrDec => true

/-- The command is one of the four that drive `CHK` directly and cannot fail (R222). -/
abbrev isChk : Instr → Bool
  | .chkInit => true
  | .chkStep => true
  | .chkFeedlo _ => true
  | .chkFeedhi _ => true
  | .encode => false
  | .decode => false
  | .convert _ _ _ _ => false
  | .addrEnc => false
  | .addrDec => false

/-- The bytes that a successful command writes, from state `s` to state `t` (R66). -/
abbrev written (i : Instr) (s t : State) (a : Nat) : Prop :=
  match i with
  | .chkInit => False
  | .chkStep => False
  | .chkFeedlo _ => False
  | .chkFeedhi _ => False
  | .encode => inSpan .str 0 (t.slen.toNat + 1) a
  | .decode => inSpan .hrp 0 (t.hlen.toNat + 1) a ∨ inSpan .sym 0 t.dlen.toNat a
  | .convert dir _ _ _ => inSpan (dstOf dir) (s.getReg8 (outLenOf dir)).toNat (t.getReg8 (outLenOf dir)).toNat a
  | .addrEnc => inSpan .sym 0 t.dlen.toNat a ∨ inSpan .str 0 (t.slen.toNat + 1) a
  | .addrDec =>
    inSpan .hrp 0 (t.hlen.toNat + 1) a ∨ inSpan .sym 0 t.dlen.toNat a ∨ inSpan .byte 0 t.blen.toNat a

/-- The bytes `r[0..len)` that exist are the same in both states. -/
abbrev sameCells (r : Region) (len : Byte) (s t : State) : Prop :=
  ∀ i < len.toNat, i < 128 → cell s r i = cell t r i

/-- The input bytes of the command, those that R66 says it reads, are the same in both states: `ADDR.DEC` reads EXP only
when `ELEN` is the length of the prefix that its `DECODE` recovers. -/
abbrev sameInputs (i : Instr) (s t : State) : Prop :=
  match i with
  | .chkInit => True
  | .chkStep => True
  | .chkFeedlo _ => True
  | .chkFeedhi _ => True
  | .encode => sameCells .hrp s.hlen s t ∧ sameCells .sym s.dlen s t
  | .decode => sameCells .str s.slen s t
  | .convert dir _ _ _ => sameCells (srcOf dir) (s.getReg8 (inLenOf dir)) s t
  | .addrEnc => sameCells .byte s.blen s t ∧ sameCells .hrp s.hlen s t
  | .addrDec =>
    sameCells .str s.slen s t ∧ ∀ sep, decodeLegal s sep → s.elen.toNat = sep → sameCells .exp s.elen s t

/-- The commands of `is` performed one after the other. -/
def execAll : List Instr → State → Host.Outcome State Fault Refusal
  | [], s => .next s
  | i :: is, s =>
    match exec i s with
    | .next t => execAll is t
    | .fault f => .fault f
    | .refused r => .refused r

/-- The command stream of a pass (R128). -/
def passCommands (p syms : List Byte) : List Instr :=
  [.chkInit] ++ p.map .chkFeedhi ++ [.chkStep] ++ p.map .chkFeedlo ++ syms.map .chkFeedlo

/-- Fold in `GEN[i]` at bit `k` when bit `25 + i` is set (R123). -/
abbrev genBit (c : Chk) (i k : Nat) : Bool := c.getLsbD (25 + i) && (gen i).getLsbD k

/-- What a host fault of this transaction returns (R226): a faulting read returns 0. -/
abbrev faultReply : Transaction → Reply
  | .bufRead _ => .byte 0x00#8
  | .regRead _ => .word 0#32
  | .bufWrite _ _ => .none
  | .regWrite _ _ => .none
  | .cmd _ => .none
  | .reset => .none

/-- The transaction is a `Cmd` (R90). -/
abbrev isCmd : Transaction → Bool
  | .cmd _ => true
  | .bufRead _ => false
  | .bufWrite _ _ => false
  | .regRead _ => false
  | .regWrite _ _ => false
  | .reset => false

/-- The transaction may write the byte at `a`, or make it `UNSPEC`: a reset, a host write there, or a command that has
`a`'s region among its outputs (R66, R222, R250). -/
abbrev mayWrite (a : Nat) : Transaction → Bool
  | .bufRead _ => false
  | .bufWrite b _ => decide (b.toNat = a)
  | .regRead _ => false
  | .regWrite _ _ => false
  | .cmd w =>
    match decode w with
    | .ok i => inRegions (failRegions i) a
    | .error _ => false
  | .reset => true

/-- The reverse table of R33, row by row; -1 is `INVALID`. -/
def revTable : List Int :=
  List.replicate 48 (-1) ++
    [15, -1, 10, 17, 21, 20, 26, 30, 7, 5, -1, -1, -1, -1, -1, -1] ++
    [-1, 29, -1, 24, 13, 25, 9, 8, 23, -1, 18, 22, 31, 27, 19, -1] ++
    [1, 0, 3, 16, 11, 28, 12, 14, 6, 4, 2, -1, -1, -1, -1, -1] ++
    [-1, 29, -1, 24, 13, 25, 9, 8, 23, -1, 18, 22, 31, 27, 19, -1] ++
    [1, 0, 3, 16, 11, 28, 12, 14, 6, 4, 2, -1, -1, -1, -1, -1]

end Sys2Proof.Claims

open Sys2Proof Sys2Proof.Machine Sys2Proof.Claims

/-! Encoding -/

/-- Every command's word decodes to that command with every operand at every value (30_encoding.md sections 1 and 3). -/
def Obligations.DecodingAnEncodedCommandGivesItBack : Prop :=
  ∀ i : Instr, i.wellFormed = true → decode (encode i) = .ok i

/-- A word that decodes is the word of what it decodes to, and what it decodes to is a command (30_encoding.md sections 1
and 3). -/
def Obligations.EveryDecodedWordIsItsCommandsWord : Prop :=
  ∀ (w : CmdWord) (i : Instr), decode w = .ok i → i.wellFormed = true ∧ encode i = w

/-- The rows of the opcode map: a word selects a row when its bits under the row's mask are the row's match, and for
`CONVERT` when the widths are legal (30_encoding.md section 3). -/
def Obligations.WordsSelectTheirOpcodeRow : Prop :=
  ∀ w : CmdWord,
    (decode w = .ok .chkInit ↔ w &&& 0xFFFF#16 = 0x1000#16) ∧
    (decode w = .ok .chkStep ↔ w &&& 0xFFFF#16 = 0x2000#16) ∧
    (∀ imm : Byte, decode w = .ok (.chkFeedlo imm) ↔ w &&& 0xFF00#16 = 0x3000#16 ∧ w.toNat % 256 = imm.toNat) ∧
    (∀ imm : Byte, decode w = .ok (.chkFeedhi imm) ↔ w &&& 0xFF00#16 = 0x4000#16 ∧ w.toNat % 256 = imm.toNat) ∧
    (decode w = .ok .encode ↔ w &&& 0xFFFF#16 = 0x5000#16) ∧
    (decode w = .ok .decode ↔ w &&& 0xFFFF#16 = 0x6000#16) ∧
    (∀ (dir : Dir) (pad : Bool) (inb outb : BitVec 4), decode w = .ok (.convert dir pad inb outb) ↔
      w &&& 0xF300#16 = 0x7000#16 ∧ (dir = .s2b ↔ w.toNat / 2048 % 2 = 1) ∧ (pad = true ↔ w.toNat / 1024 % 2 = 1) ∧
        w.toNat / 16 % 16 = inb.toNat ∧ w.toNat % 16 = outb.toNat ∧
        1 ≤ inb.toNat ∧ inb.toNat ≤ 8 ∧ 1 ≤ outb.toNat ∧ outb.toNat ≤ 8) ∧
    (decode w = .ok .addrEnc ↔ w &&& 0xFFFF#16 = 0x8000#16) ∧
    (decode w = .ok .addrDec ↔ w &&& 0xFFFF#16 = 0x9000#16)

/-- R95: the three kinds of illegal word, and what issuing one does: `HFLT` is set, `OK` cleared, nothing else of the
block changes, and the run goes on; and no legal word executes as a no-op. -/
def Obligations.IllegalWordIsAHostFault : Prop :=
  (∀ w : CmdWord, (∃ e, decode w = .error e) ↔ illegalWord w = true) ∧
  (∀ (w : CmdWord) (s : State), illegalWord w = true → nextIs s (.cmd w) →
    step s = .next { s with hflt := true, ok := false, reply := .none, pc := s.pc + 1 }) ∧
  ∀ (w : CmdWord) (i : Instr), decode w = .ok i → ∃ s t, exec i s = .next t ∧ t ≠ s

/-- A few words written out from the encodings of R91 and R96 decode to the commands they stand for. -/
def Obligations.SpecWordsDecode : Prop :=
  decode 0b0001_0000_0000_0000#16 = .ok .chkInit ∧
  decode 0b0010_0000_0000_0000#16 = .ok .chkStep ∧
  decode 0b0011_0000_1111_1111#16 = .ok (.chkFeedlo 0xff#8) ∧
  decode 0b0100_0000_0110_0001#16 = .ok (.chkFeedhi 0x61#8) ∧
  decode 0b0101_0000_0000_0000#16 = .ok .encode ∧
  decode 0b0110_0000_0000_0000#16 = .ok .decode ∧
  decode 0b0111_0100_1000_0101#16 = .ok (.convert .b2s true 8#4 5#4) ∧
  decode 0b0111_1000_0101_1000#16 = .ok (.convert .s2b false 5#4 8#4) ∧
  decode 0b1000_0000_0000_0000#16 = .ok .addrEnc ∧
  decode 0b1001_0000_0000_0000#16 = .ok .addrDec

/-- R99: each pseudo-command is its exact expansion, and `CHK.STEP` and `CHK.FEEDLO 0` have the same effect on every state
but are distinct encodings. -/
def Obligations.PseudoCommandsAreTheirExpansions : Prop :=
  Pseudo.chkSep.expand.map encode = [0x2000#16] ∧
  Pseudo.chkPad6.expand.map encode = [0x2000#16, 0x2000#16, 0x2000#16, 0x2000#16, 0x2000#16, 0x2000#16] ∧
  (∀ v : BitVec 5, (Pseudo.chkFeed v).expand.map encode = [BitVec.ofNat 16 (0x3000 + v.toNat)]) ∧
  Pseudo.conv8to5.expand.map encode = [0x7485#16] ∧
  Pseudo.conv5to8.expand.map encode = [0x7858#16] ∧
  (∀ s : State, exec .chkStep s = exec (.chkFeedlo 0#8) s) ∧
  encode .chkStep ≠ encode (.chkFeedlo 0#8)

/-! The run and the host's transactions -/

/-- A step whose next transaction issues the word of command `i` is `exec i`, and around it only the reply (none) and
the index in the run (one further). -/
def Obligations.StepRunsTheDecodedCommand : Prop :=
  ∀ (s : State) (w : CmdWord) (i : Instr), nextIs s (.cmd w) → decode w = .ok i →
    ∃ t, exec i s = .next t ∧ step s = .next { t with reply := .none, pc := t.pc + 1 }

/-- R28: the index in the run starts at 0 and advances by exactly 1 at every transaction, whether a command succeeded,
failed or raised a host fault; no command changes it; the run ends after the last transaction, and then the index stays.
Every transaction completes: none ends in a fault or a refusal. -/
def Obligations.IndexAdvancesByOneAtEveryTransaction : Prop :=
  State.reset.pc = 0 ∧
  (∀ (s : State) (x : Transaction), nextIs s x →
    ∃ t, step s = .next t ∧ t.pc = s.pc + 1 ∧ t.program = s.program) ∧
  (∀ (i : Instr) (s t : State), exec i s = .next t → t.pc = s.pc ∧ t.program = s.program) ∧
  (∀ s : State, s.program[s.pc]? = none → step s = .next s)

/-- After reset the block does nothing until the host's first transaction, and it holds its state whenever no transaction
is left (70_reset_and_hazards.md sections 1 and 5; the step of an ended run is the model's choice, log entry 1). -/
def Obligations.BlockHoldsItsStateWithoutATransaction : Prop :=
  step State.reset = .next State.reset ∧
  ∀ s : State, s.program.length ≤ s.pc → step s = .next s

/-- What reset leaves (10_state.md section 8): the spec's values of every register, `STATUS` read as 0, and no byte of
buffer memory with a known value. -/
def Obligations.ResetStateHoldsTheSpecsValues : Prop :=
  State.reset.chk = 1#30 ∧ State.reset.ok = false ∧ State.reset.hflt = false ∧ State.reset.statusWord = 0#32 ∧
  State.reset.hlen = 0#8 ∧ State.reset.slen = 0#8 ∧ State.reset.dlen = 0#8 ∧ State.reset.blen = 0#8 ∧
  State.reset.elen = 0#8 ∧ State.reset.ccap = 64#8 ∧ ∀ a, Memory.find? a State.reset.mem = none

/-- R250: `Reset` sets every register to its reset value and makes every byte of buffer memory `UNSPEC` (the value of a
new draw, whatever the byte held); it is the only way to clear `HFLT`; and power-on is a `Reset`. -/
def Obligations.ResetTransactionRestoresTheBlock : Prop :=
  (∀ s : State, nextIs s .reset → ∃ t, step s = .next t ∧
    t.chk = 1#30 ∧ t.ok = false ∧ t.hflt = false ∧ t.hlen = 0#8 ∧ t.slen = 0#8 ∧ t.dlen = 0#8 ∧ t.blen = 0#8 ∧
    t.elen = 0#8 ∧ t.ccap = 64#8 ∧ (∀ a < 640, t.readByte a = Config.unspecByte s.draw a) ∧
    t.chk = State.reset.chk ∧ t.ok = State.reset.ok ∧ t.hflt = State.reset.hflt ∧
    (∀ r, t.getReg8 r = State.reset.getReg8 r) ∧ t.mem = State.reset.mem) ∧
  (∀ (s t : State) (x : Transaction), nextIs s x → x ≠ .reset → s.hflt = true → step s = .next t → t.hflt = true)

/-- The register port (10_state.md section 2): what `RegRead` returns for each number, that it changes nothing else, and
what `RegWrite` writes. -/
def Obligations.RegisterPortReadsAndWrites : Prop :=
  ∀ (s : State) (n : RegNum) (v : Word),
    (nextIs s (.regRead n) → n.toNat < 8 → step s = .next { s with
      reply := .word (BitVec.ofNat 32 (match n.toNat with
        | 0 => s.chk.toNat
        | 1 => s.ok.toNat + 2 * s.hflt.toNat
        | 2 => s.hlen.toNat
        | 3 => s.slen.toNat
        | 4 => s.dlen.toNat
        | 5 => s.blen.toNat
        | 6 => s.elen.toNat
        | _ => s.ccap.toNat))
      pc := s.pc + 1 }) ∧
    (nextIs s (.regWrite n v) → n.toNat < 8 →
      let u := { s with reply := .none, pc := s.pc + 1 }
      step s = .next (match n.toNat with
        | 0 => { u with chk := BitVec.ofNat 30 v.toNat }
        | 1 => u
        | 2 => { u with hlen := BitVec.ofNat 8 v.toNat }
        | 3 => { u with slen := BitVec.ofNat 8 v.toNat }
        | 4 => { u with dlen := BitVec.ofNat 8 v.toNat }
        | 5 => { u with blen := BitVec.ofNat 8 v.toNat }
        | 6 => { u with elen := BitVec.ofNat 8 v.toNat }
        | _ => { u with ccap := BitVec.ofNat 8 v.toNat }))

/-- R65: `BufRead(a)` returns `BUF[a]` and changes nothing; `BufWrite(a, v)` sets `BUF[a] <- v[7:0]` and changes nothing
else; an access at 0x280 or above is a host fault, which reads 0x00 and writes nothing; and a byte that nothing has
written since reset is read as `UNSPEC`, the value of its region's draw. -/
def Obligations.BufferPortReadsAndWritesOneByte : Prop :=
  ∀ s : State,
    (∀ a : BufAddr, nextIs s (.bufRead a) →
      step s = .next { s with
        hflt := s.hflt || decide (0x280 ≤ a.toNat)
        reply := .byte (if a.toNat < 0x280 then s.readByte a.toNat else 0x00#8)
        pc := s.pc + 1 }) ∧
    (∀ (a : BufAddr) (v : Word), nextIs s (.bufWrite a v) → a.toNat < 0x280 → ∃ t, step s = .next t ∧
      t.readByte a.toNat = BitVec.ofNat 8 v.toNat ∧ (∀ b, b ≠ a.toNat → t.readByte b = s.readByte b) ∧
      { t with mem := s.mem } = { s with reply := .none, pc := s.pc + 1 }) ∧
    (∀ (a : BufAddr) (v : Word), nextIs s (.bufWrite a v) → 0x280 ≤ a.toNat →
      step s = .next { s with hflt := true, reply := .none, pc := s.pc + 1 }) ∧
    (∀ (r : Region) (i : Nat), i < 128 → Memory.find? (r.base + i) s.mem = none →
      s.readByte (r.base + i) = Config.unspecByte (s.fill.get r) (r.base + i))

/-- R226: a host fault sets `HFLT`; an illegal command also clears `OK`; a faulting read returns 0; nothing else changes;
`HFLT` stays 1 until reset, whatever command or register write follows; and the block goes on. -/
def Obligations.HostFaultSetsTheStickyFlagOnly : Prop :=
  (∀ (s : State) (x : Transaction), nextIs s x → x.breaksProtocol = true →
    step s = .next { s with hflt := true, ok := s.ok && !isCmd x, reply := faultReply x, pc := s.pc + 1 }) ∧
  (∀ (s t : State) (x : Transaction), nextIs s x → x ≠ .reset → s.hflt = true → step s = .next t → t.hflt = true)

/-- `HFLT` after a transaction is 1 exactly when it was 1 or the transaction breaks the protocol, and 0 after a reset
(60_exceptions.md section 4). -/
def Obligations.HfltRecordsExactlyTheProtocolBreaks : Prop :=
  ∀ (s t : State) (x : Transaction), nextIs s x → step s = .next t →
    t.hflt = (if x = .reset then false else s.hflt || x.breaksProtocol)

/-- `OK` is written by every `Cmd` and by reset, and by no other transaction: after a legal command it is what `exec`
gives it, and the outcome of `exec` does not depend on the `OK` before, which no command reads (10_state.md section 3). -/
def Obligations.OkDescribesTheMostRecentCommand : Prop :=
  ∀ (s t : State) (x : Transaction), nextIs s x → step s = .next t →
    (isCmd x = false → x ≠ .reset → t.ok = s.ok) ∧ (x = .reset → t.ok = false) ∧
    (∀ w, x = .cmd w → illegalWord w = true → t.ok = false) ∧
    (∀ w i, x = .cmd w → decode w = .ok i →
      (∃ u, exec i s = .next u ∧ t.ok = u.ok) ∧ ∀ b : Bool, exec i { s with ok := b } = exec i s)

/-- A whole run completes, performs every transaction, and has gone wrong exactly when the host broke the protocol after
its last reset, or before the run with no reset in it (70_reset_and_hazards.md section 5). -/
def Obligations.RunGoesWrongExactlyWhenTheHostBreaksTheProtocol : Prop :=
  ∀ (ts : List Transaction) (s : State), ∃ t, steps ts.length (s.load ts) = .next t ∧ t.pc = ts.length ∧
    t.wentWrong = ts.foldl (fun wrong x => if x = .reset then false else wrong || x.breaksProtocol) s.hflt

/-- Every read returns the value of the latest write (20_memory.md section 6): a byte the host wrote is read back after
any transactions that do not write it. -/
def Obligations.ReadReturnsTheLatestWrite : Prop :=
  ∀ (ts : List Transaction) (s : State) (a : BufAddr) (v : Word), a.toNat < 0x280 →
    (∀ x ∈ ts, mayWrite a.toNat x = false) →
    ∃ t, steps (ts.length + 2) (s.load ([.bufWrite a v] ++ ts ++ [.bufRead a])) = .next t ∧
      t.reply = .byte (BitVec.ofNat 8 v.toNat)

/-! The invariant -/

/-- The invariant holds at reset. -/
def Obligations.InvariantHoldsAtReset : Prop := State.reset.Inv

/-- Every step keeps the invariant: buffer memory stays in its canonical form within the implemented addresses, the index
stays within the run, and the next draw of unspecified values stays one that no region holds. -/
def Obligations.EveryStepKeepsTheInvariant : Prop :=
  ∀ s t : State, s.Inv → step s = .next t → t.Inv

/-! The checksum engine -/

/-- The constant tables (10_state.md section 5): the five generators in their order, the alphabet, and the reverse table
entry by entry. -/
def Obligations.ConstantTablesAreTheSpecs : Prop :=
  [gen 0, gen 1, gen 2, gen 3, gen 4] = [0x3b6a57b2#30, 0x26508e6d#30, 0x1ea119fa#30, 0x3d4233dd#30, 0x2a1462b3#30] ∧
  (List.range 32).map (fun v => Char.ofNat (charsetAt (BitVec.ofNat 8 v)).toNat) =
    "qpzry9x8gf2tvdw0s3jn54khce6mua7l".toList ∧
  (∀ c : Byte, c.toNat < 128 →
    revTable[c.toNat]? = some (match rev c with | some v => (v.toNat : Int) | none => -1)) ∧
  (∀ c : Byte, 128 ≤ c.toNat → rev c = none)

/-- R124: `CHK.INIT`, word 0x1000, sets `CHK` to 1 and `OK`, whatever `CHK` held, and changes nothing else. -/
def Obligations.ChkInitSetsTheIdentity : Prop :=
  encode .chkInit = 0x1000#16 ∧ ∀ s : State, exec .chkInit s = .next { s with chk := 1#30, ok := true }

/-- R125: `CHK.STEP`, word 0x2000, applies `STEP` once with nothing folded in, sets `OK` and changes nothing else. -/
def Obligations.ChkStepAppliesTheStepFunction : Prop :=
  encode .chkStep = 0x2000#16 ∧
  (∀ s : State, exec .chkStep s = .next { s with chk := chkStep s.chk, ok := true }) ∧
  chkStep 0#30 = 0#30 ∧ chkStep 0x3fffffff#30 = 0x2b326eab#30 ∧ chkStep 1#30 = 0x20#30 ∧
  chkStep 0x02000000#30 = 0x3b6a57b2#30

/-- R126: `CHK.FEEDLO imm8`, word `0x3000 | imm8`, is one step and the low 5 bits of `imm8` folded in; bits 7:5 are
ignored; `OK` is set and nothing else changes. -/
def Obligations.ChkFeedloFoldsTheLowFiveBits : Prop :=
  ∀ imm : Byte,
    encode (.chkFeedlo imm) = 0x3000#16 ||| imm.setWidth 16 ∧
    (∀ s : State, exec (.chkFeedlo imm) s =
      .next { s with chk := chkStep s.chk ^^^ BitVec.ofNat 30 (imm.toNat % 32), ok := true }) ∧
    (imm = 0x00#8 ∨ imm = 0x20#8 ∨ imm = 0xE0#8 → ∀ s : State, exec (.chkFeedlo imm) s = exec .chkStep s)

/-- R127: `CHK.FEEDHI imm8`, word `0x4000 | imm8`, is one step and the top 3 bits of `imm8` folded in; bits 4:0 are
ignored; no test is made on `imm8`; `OK` is set and nothing else changes. -/
def Obligations.ChkFeedhiFoldsTheTopThreeBits : Prop :=
  ∀ imm : Byte,
    encode (.chkFeedhi imm) = 0x4000#16 ||| imm.setWidth 16 ∧
    (∀ s : State, exec (.chkFeedhi imm) s =
      .next { s with chk := chkStep s.chk ^^^ BitVec.ofNat 30 (imm.toNat / 32), ok := true }) ∧
    (imm.toNat < 32 → ∀ s : State, exec (.chkFeedhi imm) s = exec .chkStep s)

/-- The bit-level form of `STEP` (40_checksum.md section 1; the spec marks it derived from its step formula). -/
def Obligations.StepHasItsBitLevelForm : Prop :=
  ∀ (c : Chk) (k : Nat), k < 30 →
    (chkStep c).getLsbD k =
      (((((((decide (5 ≤ k) && c.getLsbD (k - 5)) ^^ genBit c 0 k) ^^ genBit c 1 k) ^^ genBit c 2 k) ^^ genBit c 3 k) ^^
        genBit c 4 k))

/-- `STEP` is linear over GF(2), with its images of the unit vectors (40_checksum.md section 1; the spec marks it derived
from its step formula). -/
def Obligations.StepIsLinear : Prop :=
  (∀ a b : Chk, chkStep (a ^^^ b) = chkStep a ^^^ chkStep b) ∧ chkStep 0#30 = 0#30 ∧
  (∀ k < 25, chkStep (1#30 <<< k) = 1#30 <<< (k + 5)) ∧ (∀ i < 5, chkStep (1#30 <<< (25 + i)) = gen i)

/-- The command stream of a pass leaves `CHK` = `PASS(p, s)` from every state, and changes nothing but `CHK` and `OK`
(40_checksum.md section 3; the spec marks it derived from the commands' rules). -/
def Obligations.CommandsOfAPassComputeIt : Prop :=
  ∀ (p syms : List Byte) (s : State), (∀ v ∈ syms, v.toNat < 32) →
    execAll (passCommands p syms) s = .next { s with chk := pass p syms, ok := true }

/-- The checksum symbols always satisfy the validity test: `PASS(p, d ++ k) = 1` (40_checksum.md section 3; the spec marks
it derived from the linearity of `STEP`). -/
def Obligations.EmittedChecksumAlwaysValidates : Prop :=
  ∀ p d : List Byte, pass p (d ++ checkSymbols (checksum p d)) = 1#30

/-! The codec -/

/-- `ENCODE` on legal inputs: success, with the string of the wire format and its checksum (R147: 6 symbols, most
significant first; R148: terminator, `SLEN`, `CHK`), and nothing else written. -/
def Obligations.EncodeWritesTheString : Prop :=
  ∀ s : State, encodeLegal s → ∃ t, exec .encode s = .next t ∧ t.ok = true ∧
    t.slen.toNat = s.hlen.toNat + 7 + s.dlen.toNat ∧
    t.chk = checksumOf s.hlen.toNat (cell s .hrp) s.dlen.toNat (cell s .sym) ∧
    (∀ i < s.hlen.toNat, cell t .str i = cell s .hrp i) ∧
    cell t .str s.hlen.toNat = 0x31#8 ∧
    (∀ j < s.dlen.toNat, cell t .str (s.hlen.toNat + 1 + j) = charset.getD (cell s .sym j).toNat 0#8) ∧
    (∀ k < 6, cell t .str (s.hlen.toNat + 1 + s.dlen.toNat + k) =
      charset.getD (t.chk.toNat / 2 ^ (25 - 5 * k) % 32) 0#8) ∧
    cell t .str (s.hlen.toNat + 7 + s.dlen.toNat) = 0x00#8 ∧
    (∀ a, ¬inSpan .str 0 (s.hlen.toNat + 8 + s.dlen.toNat) a → t.readByte a = s.readByte a) ∧
    keepsRegs [.slen] s t ∧ t.hflt = s.hflt ∧ sameHost s t ∧ sameDraws s t

/-- `ENCODE` fails exactly when a prefix character is outside [33, 126] or upper case (R143), the prefix is empty (R144),
a data value is 32 or more (R145), or the string would exceed 90 characters. -/
def Obligations.EncodeFailsExactlyOnIllegalInputs : Prop :=
  ∀ s : State, ∃ t, exec .encode s = .next t ∧ (t.ok = false ↔
    s.hlen.toNat = 0 ∨ 90 < s.hlen.toNat + 7 + s.dlen.toNat ∨
    (∃ i < s.hlen.toNat, (cell s .hrp i).toNat < 33 ∨ 126 < (cell s .hrp i).toNat ∨
      (65 ≤ (cell s .hrp i).toNat ∧ (cell s .hrp i).toNat ≤ 90)) ∨
    ∃ j < s.dlen.toNat, 32 ≤ (cell s .sym j).toNat)

/-- `DECODE` on a legal string: success, with the lower-case prefix, its length and terminator, the data symbols without
the 6 checksum symbols and their count, and `CHK` = 1 (R157), and nothing else written. -/
def Obligations.DecodeRecoversPrefixAndData : Prop :=
  ∀ (s : State) (sep : Nat), decodeLegal s sep → ∃ t, exec .decode s = .next t ∧ t.ok = true ∧
    t.hlen.toNat = sep ∧ t.dlen.toNat = s.slen.toNat - 7 - sep ∧ t.chk = 1#30 ∧
    (∀ i < sep, cell t .hrp i = lowered (cell s .str i)) ∧ cell t .hrp sep = 0x00#8 ∧
    (∀ j < s.slen.toNat - 7 - sep,
      some (cell t .sym j) = rev (cell s .str (sep + 1 + j)) ∧ (cell t .sym j).toNat < 32) ∧
    (∀ a, ¬inSpan .hrp 0 (sep + 1) a → ¬inSpan .sym 0 (s.slen.toNat - 7 - sep) a → t.readByte a = s.readByte a) ∧
    keepsRegs [.hlen, .dlen] s t ∧ t.hflt = s.hflt ∧ sameHost s t ∧ sameDraws s t

/-- `DECODE` succeeds exactly on the strings whose length (R151), prefix characters (R153), data characters (R154), case
(R155) and checksum (R156) are right, with the last `1` as the separator. -/
def Obligations.DecodeSucceedsExactlyOnValidStrings : Prop :=
  ∀ s : State, ∃ t, exec .decode s = .next t ∧ (t.ok = true ↔ ∃ sep, decodeLegal s sep)

/-- Round trip (41_codec.md section 4; the spec marks it derived): `DECODE` of the string that a successful `ENCODE`
wrote, from every state that holds this string and its length, gives back the prefix, the data and their lengths. -/
def Obligations.DecodeInvertsEncode : Prop :=
  ∀ s t t' : State, exec .encode s = .next t → t.ok = true →
    t'.slen = t.slen → (∀ i < t.slen.toNat, cell t' .str i = cell t .str i) →
    ∃ u, exec .decode t' = .next u ∧ u.ok = true ∧ u.hlen = s.hlen ∧ u.dlen = s.dlen ∧
      (∀ i < s.hlen.toNat, cell u .hrp i = cell s .hrp i) ∧ ∀ j < s.dlen.toNat, cell u .sym j = cell s .sym j

/-- Case invariance (41_codec.md section 3, the consequence under case): a valid string without upper-case letters, with
every character upper-cased, decodes to the same prefix and the same payload. -/
def Obligations.UppercasedStringDecodesTheSame : Prop :=
  ∀ (s s' : State) (sep : Nat), decodeLegal s sep → (∀ i < s.slen.toNat, ¬upperLetter (cell s .str i)) →
    s'.slen = s.slen → (∀ i < s.slen.toNat, cell s' .str i = raised (cell s .str i)) →
    ∃ t t', exec .decode s = .next t ∧ exec .decode s' = .next t' ∧ t.ok = true ∧ t'.ok = true ∧ t'.hlen = t.hlen ∧ t'.dlen = t.dlen ∧
      (∀ i < sep, cell t' .hrp i = cell s .str i ∧ cell t' .hrp i = cell t .hrp i) ∧
      ∀ j < t.dlen.toNat, cell t' .sym j = cell t .sym j

/-- A change of one of the last six characters of a valid string to one of another value always makes `DECODE` fail
(41_codec.md section 4; the spec marks it derived from the linearity of `STEP`). -/
def Obligations.ChecksumRegionSubstitutionIsCaught : Prop :=
  ∀ (s s' : State) (sep q : Nat) (v v' : Byte), decodeLegal s sep → s'.slen = s.slen →
    s.slen.toNat ≤ q + 6 → q < s.slen.toNat → (∀ i < s.slen.toNat, i ≠ q → cell s' .str i = cell s .str i) →
    rev (cell s .str q) = some v → rev (cell s' .str q) = some v' → v ≠ v' →
    ∃ t, exec .decode s' = .next t ∧ t.ok = false

/-! The converter -/

/-- R180, R188: a legal conversion succeeds and appends the regrouped stream at the output position: the new length counts
the appended values, value `j` is bits `j * outbits` up of the most-significant-bit-first stream, the padded tail has
its bits at the top, values are right aligned with upper bits zero, and nothing else is written. -/
def Obligations.ConvertRegroupsTheStream : Prop :=
  ∀ (dir : Dir) (pad : Bool) (inb outb : BitVec 4) (s : State), (Instr.convert dir pad inb outb).wellFormed = true →
    convertLegal dir pad inb.toNat outb.toNat s →
    let n := (s.getReg8 (inLenOf dir)).toNat
    let base := (s.getReg8 (outLenOf dir)).toNat
    let count := outCount pad inb.toNat outb.toNat n
    ∃ t, exec (.convert dir pad inb outb) s = .next t ∧ t.ok = true ∧
      (t.getReg8 (outLenOf dir)).toNat = base + count ∧
      (∀ j < count, (cell t (dstOf dir) (base + j)).toNat = outValue inb.toNat outb.toNat (cell s (srcOf dir)) n j) ∧
      (∀ a, ¬inSpan (dstOf dir) base (base + count) a → t.readByte a = s.readByte a) ∧
      keepsRegs [outLenOf dir] s t ∧ t.chk = s.chk ∧ t.hflt = s.hflt ∧ sameHost s t ∧ sameDraws s t

/-- `CONVERT` fails exactly when its input length is above 128 (R182), an input value has a bit at or above `inbits`
(R184), an append would be at or beyond the capacity (R185), or the unpadded tail is not clean (R186); and the tail of a
success: with padding and leftover bits one more value, these bits at its top, and otherwise no more (R186). -/
def Obligations.ConvertSucceedsExactlyOnLegalInputs : Prop :=
  ∀ (dir : Dir) (pad : Bool) (inb outb : BitVec 4) (s : State), (Instr.convert dir pad inb outb).wellFormed = true →
    let n := (s.getReg8 (inLenOf dir)).toNat
    let base := (s.getReg8 (outLenOf dir)).toNat
    let whole := n * inb.toNat / outb.toNat
    let left := n * inb.toNat % outb.toNat
    ∃ t, exec (.convert dir pad inb outb) s = .next t ∧ (t.ok = true ↔ convertLegal dir pad inb.toNat outb.toNat s) ∧
      (t.ok = true → pad = true → left ≠ 0 → (t.getReg8 (outLenOf dir)).toNat = base + whole + 1 ∧
        (cell t (dstOf dir) (base + whole)).toNat =
          stream inb.toNat (cell s (srcOf dir)) n % 2 ^ left * 2 ^ (outb.toNat - left)) ∧
      (t.ok = true → pad = false ∨ left = 0 → (t.getReg8 (outLenOf dir)).toNat = base + whole)

/-- The form of `CONVERT` that no legal word encodes: with a width of 0 or above 8 the term takes the host fault of an
illegal command (the model's choice, log entry 7), and the decoder never yields such a term. -/
def Obligations.ConvertWithIllegalWidthIsAHostFault : Prop :=
  (∀ (dir : Dir) (pad : Bool) (inb outb : BitVec 4) (s : State), (Instr.convert dir pad inb outb).wellFormed = false →
    exec (.convert dir pad inb outb) s = .next { s with hflt := true, ok := false }) ∧
  ∀ (w : CmdWord) (dir : Dir) (pad : Bool) (inb outb : BitVec 4), decode w = .ok (.convert dir pad inb outb) →
    (Instr.convert dir pad inb outb).wellFormed = true

/-- The converter's half of the round trip (42_converter.md section 3; the spec marks it derived): padded 8 to 5 from
`DLEN` = 0; then unpadded 5 to 8 from `BLEN` = 0, from every state that holds the symbols produced and their number and
has enough capacity, gives back exactly the bytes. -/
def Obligations.ConvertBackGivesTheBytes : Prop :=
  ∀ s t t' : State, s.dlen = 0#8 → exec (.convert .b2s true 8#4 5#4) s = .next t → t.ok = true →
    t'.dlen = t.dlen → (∀ j < t.dlen.toNat, cell t' .sym j = cell t .sym j) → t'.blen = 0#8 →
    s.blen.toNat ≤ t'.ccap.toNat →
    ∃ u, exec (.convert .s2b false 5#4 8#4) t' = .next u ∧ u.ok = true ∧ u.blen = s.blen ∧
      ∀ i < s.blen.toNat, cell u .byte i = cell s .byte i

/-- Unpadded 5 to 8 succeeds only on 0, 2, 4, 5 or 7 symbols modulo 8, and appends five eighths of their number
(42_converter.md section 3; the spec marks it derived). -/
def Obligations.UnpaddedFiveToEightNeedsWholeBytes : Prop :=
  ∀ s t : State, exec (.convert .s2b false 5#4 8#4) s = .next t → t.ok = true →
    s.dlen.toNat % 8 ∈ [0, 2, 4, 5, 7] ∧ t.blen.toNat = s.blen.toNat + 5 * s.dlen.toNat / 8

/-- R30: `CONVERT` takes `min(CCAP, 128)` as its capacity, so values 129 to 255 act as 128; `ADDR.ENC` and `ADDR.DEC`
ignore `CCAP`; its reset value is 64; every 8-bit value may be held. -/
def Obligations.CapacityRegisterBoundsTheConverterOnly : Prop :=
  State.reset.ccap = 64#8 ∧
  (∀ (dir : Dir) (pad : Bool) (inb outb : BitVec 4) (s t : State) (c : Byte), 128 ≤ c.toNat →
    exec (.convert dir pad inb outb) { s with ccap := 128#8 } = .next t →
    exec (.convert dir pad inb outb) { s with ccap := c } = .next { t with ccap := c }) ∧
  (∀ (i : Instr) (s t : State) (c : Byte), i = .addrEnc ∨ i = .addrDec → exec i s = .next t →
    exec i { s with ccap := c } = .next { t with ccap := c })

/-! The address wrapper -/

/-- `ADDR.ENC` on legal inputs: success, with the bytes regrouped to SYM, the string over those symbols in STR, both
lengths and `CHK` as `CONVERT` and `ENCODE` leave them (43_address_wrapper.md section 1), and nothing else written. -/
def Obligations.AddrEncWritesSymbolsAndString : Prop :=
  ∀ s : State, addrEncLegal s →
    let h := s.hlen.toNat
    let n := outCount true 8 5 s.blen.toNat
    ∃ t, exec .addrEnc s = .next t ∧ t.ok = true ∧ t.dlen.toNat = n ∧ t.slen.toNat = h + 7 + n ∧
      (∀ j < n, (cell t .sym j).toNat = outValue 8 5 (cell s .byte) s.blen.toNat j) ∧
      t.chk = checksumOf h (cell s .hrp) n (cell t .sym) ∧
      (∀ i < h, cell t .str i = cell s .hrp i) ∧ cell t .str h = 0x31#8 ∧
      (∀ j < n, cell t .str (h + 1 + j) = charset.getD (cell t .sym j).toNat 0#8) ∧
      (∀ k < 6, cell t .str (h + 1 + n + k) = charset.getD (t.chk.toNat / 2 ^ (25 - 5 * k) % 32) 0#8) ∧
      cell t .str (h + 7 + n) = 0x00#8 ∧
      (∀ a, ¬inSpan .sym 0 n a → ¬inSpan .str 0 (h + 8 + n) a → t.readByte a = s.readByte a) ∧
      keepsRegs [.dlen, .slen] s t ∧ t.hflt = s.hflt ∧ sameHost s t ∧ sameDraws s t

/-- `ADDR.ENC` succeeds exactly when at most 40 bytes are given, the prefix is one that `ENCODE` accepts, and the string
has at most 90 characters (43_address_wrapper.md section 1). -/
def Obligations.AddrEncSucceedsExactlyOnLegalInputs : Prop :=
  ∀ s : State, ∃ t, exec .addrEnc s = .next t ∧ (t.ok = true ↔ addrEncLegal s)

/-- The host sequence that `ADDR.ENC` equals on success, with the wrapper's capacity of 64 (43_address_wrapper.md section
3; the spec marks it derived). -/
def Obligations.AddrEncEqualsItsCommandSequence : Prop :=
  ∀ s t u : State, exec (.convert .b2s true 8#4 5#4) { s with dlen := 0#8, ccap := 64#8 } = .next t → t.ok = true →
    exec .encode t = .next u → u.ok = true → exec .addrEnc s = .next { u with ccap := s.ccap }

/-- `ADDR.DEC` on legal inputs: success, with `DECODE`'s outputs, the payload regrouped to bytes in BYTE and their count
in `BLEN` (43_address_wrapper.md section 2), and nothing else written. -/
def Obligations.AddrDecRecoversTheBytes : Prop :=
  ∀ (s : State) (sep : Nat), addrDecLegal s sep →
    let d := s.slen.toNat - 7 - sep
    let e := fun j => revOr0 (cell s .str (sep + 1 + j))
    ∃ t, exec .addrDec s = .next t ∧ t.ok = true ∧ t.hlen.toNat = sep ∧ t.dlen.toNat = d ∧
      t.blen.toNat = 5 * d / 8 ∧ t.chk = 1#30 ∧
      (∀ i < sep, cell t .hrp i = lowered (cell s .str i)) ∧ cell t .hrp sep = 0x00#8 ∧
      (∀ j < d, cell t .sym j = e j) ∧ (∀ j < 5 * d / 8, (cell t .byte j).toNat = outValue 5 8 e d j) ∧
      (∀ a, ¬inSpan .hrp 0 (sep + 1) a → ¬inSpan .sym 0 d a → ¬inSpan .byte 0 (5 * d / 8) a →
        t.readByte a = s.readByte a) ∧
      keepsRegs [.hlen, .dlen, .blen] s t ∧ t.hflt = s.hflt ∧ sameHost s t ∧ sameDraws s t

/-- `ADDR.DEC` succeeds exactly when `DECODE` does, the payload has 1 to 64 symbols (R205), the recovered prefix is the
expected one in length and bytes (R206), the payload regroups cleanly, and its first byte is 0 (R207). -/
def Obligations.AddrDecSucceedsExactlyOnLegalInputs : Prop :=
  ∀ s : State, ∃ t, exec .addrDec s = .next t ∧ (t.ok = true ↔ ∃ sep, addrDecLegal s sep)

/-- The host sequence that `ADDR.DEC` equals on success, with the wrapper's capacity of 64 (43_address_wrapper.md section
3; the spec marks it derived). -/
def Obligations.AddrDecEqualsItsCommandSequence : Prop :=
  ∀ s t u : State, exec .decode s = .next t → t.ok = true → 1 ≤ t.dlen.toNat → t.dlen.toNat ≤ 64 → t.hlen = t.elen →
    (∀ i < t.hlen.toNat, cell t .hrp i = cell t .exp i) →
    exec (.convert .s2b false 5#4 8#4) { t with blen := 0#8, ccap := 64#8 } = .next u → u.ok = true →
    cell u .byte 0 = 0#8 → exec .addrDec s = .next { u with ccap := s.ccap }

/-- A successful `ADDR.DEC` leaves 1 to 40 bytes, the first of them the discriminant 0 (43_address_wrapper.md section 2). -/
def Obligations.AcceptedAddressHasAZeroDiscriminant : Prop :=
  ∀ s t : State, exec .addrDec s = .next t → t.ok = true →
    1 ≤ t.blen.toNat ∧ t.blen.toNat ≤ 40 ∧ cell t .byte 0 = 0#8 ∧ t.hlen = s.elen ∧
      ∀ i < s.elen.toNat, cell t .hrp i = cell s .exp i

/-- The round trip of addresses (95_test_vectors.md section 1, the source's round-trip property): the string that
`ADDR.ENC` makes of 1 or more bytes with discriminant 0, `ADDR.DEC` gives back from every state that holds this string,
its length, and the prefix as the expected one. -/
def Obligations.AddressRoundTrip : Prop :=
  ∀ s t t' : State, exec .addrEnc s = .next t → t.ok = true → 1 ≤ s.blen.toNat → cell s .byte 0 = 0#8 →
    t'.slen = t.slen → (∀ i < t.slen.toNat, cell t' .str i = cell t .str i) →
    t'.elen = s.hlen → (∀ i < s.hlen.toNat, cell t' .exp i = cell s .hrp i) →
    ∃ u, exec .addrDec t' = .next u ∧ u.ok = true ∧ u.blen = s.blen ∧ u.hlen = s.hlen ∧
      (∀ i < s.hlen.toNat, cell u .hrp i = cell s .hrp i) ∧ ∀ i < s.blen.toNat, cell u .byte i = cell s .byte i

/-! The whole machine -/

/-- Every legal command completes, in every state, in success or in failure: none faults and none is refused; and `HFLT`
is unchanged (60_exceptions.md section 1). -/
def Obligations.EveryCommandCompletes : Prop :=
  ∀ (i : Instr) (s : State), i.wellFormed = true → ∃ t, exec i s = .next t ∧ t.hflt = s.hflt

/-- R222 (and its instances R149, R158, R189, R203, R208): after a failure exactly the outputs of the command are
`UNSPEC`, each the value of the failure's own draw, every other piece of state is as before, and the `CHK.*` commands
cannot fail. -/
def Obligations.FailureLeavesExactlyTheOutputsUnspecified : Prop :=
  ∀ (i : Instr) (s t : State), i.wellFormed = true → exec i s = .next t → t.ok = false →
    isChk i = false ∧
    (∀ (r : Region) (k : Nat), k < 128 →
      cell t r k = if r ∈ failRegions i then Config.unspecByte s.draw (r.base + k) else cell s r k) ∧
    (∀ r, t.getReg8 r = if r ∈ outRegs i then Config.unspecReg s.draw r.num else s.getReg8 r) ∧
    t.chk = (if failChk i = true then Config.unspecChk s.draw else s.chk) ∧
    t.hflt = s.hflt ∧ sameHost s t ∧ t.draw = s.draw + 1

/-- A successful command writes exactly the bytes that 20_memory.md section 4 lists, all of them at an index below 128 of
a region it has as output, and leaves every other byte, every register that is none of its outputs, `HFLT`, the host's
side and the source of unspecified bytes as they were. -/
def Obligations.SuccessWritesOnlyTheListedBytes : Prop :=
  ∀ (i : Instr) (s t : State), i.wellFormed = true → exec i s = .next t → t.ok = true →
    (∀ a, ¬written i s t a → t.readByte a = s.readByte a) ∧
    (∀ a, written i s t a → ∃ r ∈ failRegions i, inSpan r 0 128 a) ∧
    keepsRegs (outRegs i) s t ∧ (isChk i = false → failChk i = false → t.chk = s.chk) ∧
    t.hflt = s.hflt ∧ sameHost s t ∧ sameDraws s t

/-- A command reads no byte but its inputs (20_memory.md section 4): two states with the same registers and the same input
bytes give the same verdict and, on success, the same outputs. -/
def Obligations.CommandsDependOnTheirInputsOnly : Prop :=
  ∀ (i : Instr) (s s' t t' : State), i.wellFormed = true → s'.chk = s.chk → (∀ r, s'.getReg8 r = s.getReg8 r) →
    sameInputs i s s' → exec i s = .next t → exec i s' = .next t' →
    t'.ok = t.ok ∧ (t.ok = true → t'.chk = t.chk ∧ (∀ r, t'.getReg8 r = t.getReg8 r) ∧
      ∀ a, written i s t a → t'.readByte a = t.readByte a)

/-- Where the regions lie (20_memory.md section 1), and which fields the names of the 8-bit registers and their numbers
stand for (10_state.md section 2): the vocabulary in which the other statements speak of bytes and lengths. -/
def Obligations.RegionsAndRegistersAreThoseOfTheMaps : Prop :=
  Region.str.base = 0x000 ∧ Region.hrp.base = 0x080 ∧ Region.sym.base = 0x100 ∧ Region.byte.base = 0x180 ∧
  Region.exp.base = 0x200 ∧
  (∀ (a : Nat) (r : Region), Region.ofAddr a = some r ↔ r.base ≤ a ∧ a < r.base + 128) ∧
  (∀ a : Nat, Region.ofAddr a = none ↔ 0x280 ≤ a) ∧
  (∀ s : State, s.getReg8 .hlen = s.hlen ∧ s.getReg8 .slen = s.slen ∧ s.getReg8 .dlen = s.dlen ∧
    s.getReg8 .blen = s.blen ∧ s.getReg8 .elen = s.elen ∧ s.getReg8 .ccap = s.ccap) ∧
  [Reg8.hlen, .slen, .dlen, .blen, .elen, .ccap].map Reg8.num = [2, 3, 4, 5, 6, 7]
end

