-- ==== Sys2Proof/Laws/State.lean ====
section
/-! SUPPORT. One lemma per field per named update of State, so that no later proof unfolds a record update. -/

namespace Sys2Proof.Machine


/-! `STATUS.OK <- b` -/

@[simp] theorem State.setOk_chk (b : Bool) (s : State) : (s.setOk b).chk = s.chk := rfl
@[simp] theorem State.setOk_ok (b : Bool) (s : State) : (s.setOk b).ok = b := rfl
@[simp] theorem State.setOk_hflt (b : Bool) (s : State) : (s.setOk b).hflt = s.hflt := rfl
@[simp] theorem State.setOk_hlen (b : Bool) (s : State) : (s.setOk b).hlen = s.hlen := rfl
@[simp] theorem State.setOk_slen (b : Bool) (s : State) : (s.setOk b).slen = s.slen := rfl
@[simp] theorem State.setOk_dlen (b : Bool) (s : State) : (s.setOk b).dlen = s.dlen := rfl
@[simp] theorem State.setOk_blen (b : Bool) (s : State) : (s.setOk b).blen = s.blen := rfl
@[simp] theorem State.setOk_elen (b : Bool) (s : State) : (s.setOk b).elen = s.elen := rfl
@[simp] theorem State.setOk_ccap (b : Bool) (s : State) : (s.setOk b).ccap = s.ccap := rfl
@[simp] theorem State.setOk_mem (b : Bool) (s : State) : (s.setOk b).mem = s.mem := rfl
@[simp] theorem State.setOk_fill (b : Bool) (s : State) : (s.setOk b).fill = s.fill := rfl
@[simp] theorem State.setOk_draw (b : Bool) (s : State) : (s.setOk b).draw = s.draw := rfl
@[simp] theorem State.setOk_program (b : Bool) (s : State) : (s.setOk b).program = s.program := rfl
@[simp] theorem State.setOk_pc (b : Bool) (s : State) : (s.setOk b).pc = s.pc := rfl
@[simp] theorem State.setOk_reply (b : Bool) (s : State) : (s.setOk b).reply = s.reply := rfl

/-! `STATUS.HFLT <- 1` -/

@[simp] theorem State.setHflt_chk (s : State) : s.setHflt.chk = s.chk := rfl
@[simp] theorem State.setHflt_ok (s : State) : s.setHflt.ok = s.ok := rfl
@[simp] theorem State.setHflt_hflt (s : State) : s.setHflt.hflt = true := rfl
@[simp] theorem State.setHflt_hlen (s : State) : s.setHflt.hlen = s.hlen := rfl
@[simp] theorem State.setHflt_slen (s : State) : s.setHflt.slen = s.slen := rfl
@[simp] theorem State.setHflt_dlen (s : State) : s.setHflt.dlen = s.dlen := rfl
@[simp] theorem State.setHflt_blen (s : State) : s.setHflt.blen = s.blen := rfl
@[simp] theorem State.setHflt_elen (s : State) : s.setHflt.elen = s.elen := rfl
@[simp] theorem State.setHflt_ccap (s : State) : s.setHflt.ccap = s.ccap := rfl
@[simp] theorem State.setHflt_mem (s : State) : s.setHflt.mem = s.mem := rfl
@[simp] theorem State.setHflt_fill (s : State) : s.setHflt.fill = s.fill := rfl
@[simp] theorem State.setHflt_draw (s : State) : s.setHflt.draw = s.draw := rfl
@[simp] theorem State.setHflt_program (s : State) : s.setHflt.program = s.program := rfl
@[simp] theorem State.setHflt_pc (s : State) : s.setHflt.pc = s.pc := rfl
@[simp] theorem State.setHflt_reply (s : State) : s.setHflt.reply = s.reply := rfl

/-! `succeed` -/

@[simp] theorem State.succeed_chk (s : State) : s.succeed.chk = s.chk := rfl
@[simp] theorem State.succeed_ok (s : State) : s.succeed.ok = true := rfl
@[simp] theorem State.succeed_hflt (s : State) : s.succeed.hflt = s.hflt := rfl
@[simp] theorem State.succeed_hlen (s : State) : s.succeed.hlen = s.hlen := rfl
@[simp] theorem State.succeed_slen (s : State) : s.succeed.slen = s.slen := rfl
@[simp] theorem State.succeed_dlen (s : State) : s.succeed.dlen = s.dlen := rfl
@[simp] theorem State.succeed_blen (s : State) : s.succeed.blen = s.blen := rfl
@[simp] theorem State.succeed_elen (s : State) : s.succeed.elen = s.elen := rfl
@[simp] theorem State.succeed_ccap (s : State) : s.succeed.ccap = s.ccap := rfl
@[simp] theorem State.succeed_mem (s : State) : s.succeed.mem = s.mem := rfl
@[simp] theorem State.succeed_fill (s : State) : s.succeed.fill = s.fill := rfl
@[simp] theorem State.succeed_draw (s : State) : s.succeed.draw = s.draw := rfl
@[simp] theorem State.succeed_program (s : State) : s.succeed.program = s.program := rfl
@[simp] theorem State.succeed_pc (s : State) : s.succeed.pc = s.pc := rfl
@[simp] theorem State.succeed_reply (s : State) : s.succeed.reply = s.reply := rfl

/-! `CHK <- v` -/

@[simp] theorem State.setChk_chk (v : Chk) (s : State) : (s.setChk v).chk = v := rfl
@[simp] theorem State.setChk_ok (v : Chk) (s : State) : (s.setChk v).ok = s.ok := rfl
@[simp] theorem State.setChk_hflt (v : Chk) (s : State) : (s.setChk v).hflt = s.hflt := rfl
@[simp] theorem State.setChk_hlen (v : Chk) (s : State) : (s.setChk v).hlen = s.hlen := rfl
@[simp] theorem State.setChk_slen (v : Chk) (s : State) : (s.setChk v).slen = s.slen := rfl
@[simp] theorem State.setChk_dlen (v : Chk) (s : State) : (s.setChk v).dlen = s.dlen := rfl
@[simp] theorem State.setChk_blen (v : Chk) (s : State) : (s.setChk v).blen = s.blen := rfl
@[simp] theorem State.setChk_elen (v : Chk) (s : State) : (s.setChk v).elen = s.elen := rfl
@[simp] theorem State.setChk_ccap (v : Chk) (s : State) : (s.setChk v).ccap = s.ccap := rfl
@[simp] theorem State.setChk_mem (v : Chk) (s : State) : (s.setChk v).mem = s.mem := rfl
@[simp] theorem State.setChk_fill (v : Chk) (s : State) : (s.setChk v).fill = s.fill := rfl
@[simp] theorem State.setChk_draw (v : Chk) (s : State) : (s.setChk v).draw = s.draw := rfl
@[simp] theorem State.setChk_program (v : Chk) (s : State) : (s.setChk v).program = s.program := rfl
@[simp] theorem State.setChk_pc (v : Chk) (s : State) : (s.setChk v).pc = s.pc := rfl
@[simp] theorem State.setChk_reply (v : Chk) (s : State) : (s.setChk v).reply = s.reply := rfl

/-! An 8-bit register is written -/

@[simp] theorem State.setReg8_chk (r : Reg8) (v : Byte) (s : State) : (s.setReg8 r v).chk = s.chk := by cases r <;> rfl
@[simp] theorem State.setReg8_ok (r : Reg8) (v : Byte) (s : State) : (s.setReg8 r v).ok = s.ok := by cases r <;> rfl
@[simp] theorem State.setReg8_hflt (r : Reg8) (v : Byte) (s : State) : (s.setReg8 r v).hflt = s.hflt := by cases r <;> rfl
@[simp] theorem State.setReg8_hlen (r : Reg8) (v : Byte) (s : State) : (s.setReg8 r v).hlen = (if r = .hlen then v else s.hlen) := by cases r <;> rfl
@[simp] theorem State.setReg8_slen (r : Reg8) (v : Byte) (s : State) : (s.setReg8 r v).slen = (if r = .slen then v else s.slen) := by cases r <;> rfl
@[simp] theorem State.setReg8_dlen (r : Reg8) (v : Byte) (s : State) : (s.setReg8 r v).dlen = (if r = .dlen then v else s.dlen) := by cases r <;> rfl
@[simp] theorem State.setReg8_blen (r : Reg8) (v : Byte) (s : State) : (s.setReg8 r v).blen = (if r = .blen then v else s.blen) := by cases r <;> rfl
@[simp] theorem State.setReg8_elen (r : Reg8) (v : Byte) (s : State) : (s.setReg8 r v).elen = (if r = .elen then v else s.elen) := by cases r <;> rfl
@[simp] theorem State.setReg8_ccap (r : Reg8) (v : Byte) (s : State) : (s.setReg8 r v).ccap = (if r = .ccap then v else s.ccap) := by cases r <;> rfl
@[simp] theorem State.setReg8_mem (r : Reg8) (v : Byte) (s : State) : (s.setReg8 r v).mem = s.mem := by cases r <;> rfl
@[simp] theorem State.setReg8_fill (r : Reg8) (v : Byte) (s : State) : (s.setReg8 r v).fill = s.fill := by cases r <;> rfl
@[simp] theorem State.setReg8_draw (r : Reg8) (v : Byte) (s : State) : (s.setReg8 r v).draw = s.draw := by cases r <;> rfl
@[simp] theorem State.setReg8_program (r : Reg8) (v : Byte) (s : State) : (s.setReg8 r v).program = s.program := by cases r <;> rfl
@[simp] theorem State.setReg8_pc (r : Reg8) (v : Byte) (s : State) : (s.setReg8 r v).pc = s.pc := by cases r <;> rfl
@[simp] theorem State.setReg8_reply (r : Reg8) (v : Byte) (s : State) : (s.setReg8 r v).reply = s.reply := by cases r <;> rfl

/-! One byte is written -/

@[simp] theorem State.writeByte_chk (a : Nat) (v : Byte) (s : State) : (s.writeByte a v).chk = s.chk := by
  unfold State.writeByte; cases Region.ofAddr a <;> rfl
@[simp] theorem State.writeByte_ok (a : Nat) (v : Byte) (s : State) : (s.writeByte a v).ok = s.ok := by
  unfold State.writeByte; cases Region.ofAddr a <;> rfl
@[simp] theorem State.writeByte_hflt (a : Nat) (v : Byte) (s : State) : (s.writeByte a v).hflt = s.hflt := by
  unfold State.writeByte; cases Region.ofAddr a <;> rfl
@[simp] theorem State.writeByte_hlen (a : Nat) (v : Byte) (s : State) : (s.writeByte a v).hlen = s.hlen := by
  unfold State.writeByte; cases Region.ofAddr a <;> rfl
@[simp] theorem State.writeByte_slen (a : Nat) (v : Byte) (s : State) : (s.writeByte a v).slen = s.slen := by
  unfold State.writeByte; cases Region.ofAddr a <;> rfl
@[simp] theorem State.writeByte_dlen (a : Nat) (v : Byte) (s : State) : (s.writeByte a v).dlen = s.dlen := by
  unfold State.writeByte; cases Region.ofAddr a <;> rfl
@[simp] theorem State.writeByte_blen (a : Nat) (v : Byte) (s : State) : (s.writeByte a v).blen = s.blen := by
  unfold State.writeByte; cases Region.ofAddr a <;> rfl
@[simp] theorem State.writeByte_elen (a : Nat) (v : Byte) (s : State) : (s.writeByte a v).elen = s.elen := by
  unfold State.writeByte; cases Region.ofAddr a <;> rfl
@[simp] theorem State.writeByte_ccap (a : Nat) (v : Byte) (s : State) : (s.writeByte a v).ccap = s.ccap := by
  unfold State.writeByte; cases Region.ofAddr a <;> rfl
@[simp] theorem State.writeByte_mem (a : Nat) (v : Byte) (s : State) : (s.writeByte a v).mem = (if (Region.ofAddr a).isSome then Memory.insert a v s.mem else s.mem) := by
  unfold State.writeByte; cases Region.ofAddr a <;> rfl
@[simp] theorem State.writeByte_fill (a : Nat) (v : Byte) (s : State) : (s.writeByte a v).fill = s.fill := by
  unfold State.writeByte; cases Region.ofAddr a <;> rfl
@[simp] theorem State.writeByte_draw (a : Nat) (v : Byte) (s : State) : (s.writeByte a v).draw = s.draw := by
  unfold State.writeByte; cases Region.ofAddr a <;> rfl
@[simp] theorem State.writeByte_program (a : Nat) (v : Byte) (s : State) : (s.writeByte a v).program = s.program := by
  unfold State.writeByte; cases Region.ofAddr a <;> rfl
@[simp] theorem State.writeByte_pc (a : Nat) (v : Byte) (s : State) : (s.writeByte a v).pc = s.pc := by
  unfold State.writeByte; cases Region.ofAddr a <;> rfl
@[simp] theorem State.writeByte_reply (a : Nat) (v : Byte) (s : State) : (s.writeByte a v).reply = s.reply := by
  unfold State.writeByte; cases Region.ofAddr a <;> rfl

/-! A failure -/

@[simp] theorem State.fail_chk (o : Outputs) (c : Cause) (s : State) : (s.fail o c).chk = (if o.chk then Config.unspecChk s.draw else s.chk) := rfl
@[simp] theorem State.fail_ok (o : Outputs) (c : Cause) (s : State) : (s.fail o c).ok = false := rfl
@[simp] theorem State.fail_hflt (o : Outputs) (c : Cause) (s : State) : (s.fail o c).hflt = s.hflt := rfl
@[simp] theorem State.fail_hlen (o : Outputs) (c : Cause) (s : State) : (s.fail o c).hlen = s.regAfterFail o .hlen := rfl
@[simp] theorem State.fail_slen (o : Outputs) (c : Cause) (s : State) : (s.fail o c).slen = s.regAfterFail o .slen := rfl
@[simp] theorem State.fail_dlen (o : Outputs) (c : Cause) (s : State) : (s.fail o c).dlen = s.regAfterFail o .dlen := rfl
@[simp] theorem State.fail_blen (o : Outputs) (c : Cause) (s : State) : (s.fail o c).blen = s.regAfterFail o .blen := rfl
@[simp] theorem State.fail_elen (o : Outputs) (c : Cause) (s : State) : (s.fail o c).elen = s.regAfterFail o .elen := rfl
@[simp] theorem State.fail_ccap (o : Outputs) (c : Cause) (s : State) : (s.fail o c).ccap = s.regAfterFail o .ccap := rfl
@[simp] theorem State.fail_mem (o : Outputs) (c : Cause) (s : State) : (s.fail o c).mem = Memory.forget o.regions s.mem := rfl
@[simp] theorem State.fail_fill (o : Outputs) (c : Cause) (s : State) : (s.fail o c).fill = Fill.refresh o.regions s.draw s.fill := rfl
@[simp] theorem State.fail_draw (o : Outputs) (c : Cause) (s : State) : (s.fail o c).draw = s.draw + 1 := rfl
@[simp] theorem State.fail_program (o : Outputs) (c : Cause) (s : State) : (s.fail o c).program = s.program := rfl
@[simp] theorem State.fail_pc (o : Outputs) (c : Cause) (s : State) : (s.fail o c).pc = s.pc := rfl
@[simp] theorem State.fail_reply (o : Outputs) (c : Cause) (s : State) : (s.fail o c).reply = s.reply := rfl

/-! `Reset` -/

@[simp] theorem State.resetBlock_chk (s : State) : s.resetBlock.chk = ident := rfl
@[simp] theorem State.resetBlock_ok (s : State) : s.resetBlock.ok = false := rfl
@[simp] theorem State.resetBlock_hflt (s : State) : s.resetBlock.hflt = false := rfl
@[simp] theorem State.resetBlock_hlen (s : State) : s.resetBlock.hlen = 0 := rfl
@[simp] theorem State.resetBlock_slen (s : State) : s.resetBlock.slen = 0 := rfl
@[simp] theorem State.resetBlock_dlen (s : State) : s.resetBlock.dlen = 0 := rfl
@[simp] theorem State.resetBlock_blen (s : State) : s.resetBlock.blen = 0 := rfl
@[simp] theorem State.resetBlock_elen (s : State) : s.resetBlock.elen = 0 := rfl
@[simp] theorem State.resetBlock_ccap (s : State) : s.resetBlock.ccap = 64 := rfl
@[simp] theorem State.resetBlock_mem (s : State) : s.resetBlock.mem = [] := rfl
@[simp] theorem State.resetBlock_fill (s : State) : s.resetBlock.fill = Fill.refresh Region.all s.draw s.fill := rfl
@[simp] theorem State.resetBlock_draw (s : State) : s.resetBlock.draw = s.draw + 1 := rfl
@[simp] theorem State.resetBlock_program (s : State) : s.resetBlock.program = s.program := rfl
@[simp] theorem State.resetBlock_pc (s : State) : s.resetBlock.pc = s.pc := rfl
@[simp] theorem State.resetBlock_reply (s : State) : s.resetBlock.reply = s.reply := rfl

/-! A transaction is over -/

@[simp] theorem State.finish_chk (r : Reply) (s : State) : (s.finish r).chk = s.chk := rfl
@[simp] theorem State.finish_ok (r : Reply) (s : State) : (s.finish r).ok = s.ok := rfl
@[simp] theorem State.finish_hflt (r : Reply) (s : State) : (s.finish r).hflt = s.hflt := rfl
@[simp] theorem State.finish_hlen (r : Reply) (s : State) : (s.finish r).hlen = s.hlen := rfl
@[simp] theorem State.finish_slen (r : Reply) (s : State) : (s.finish r).slen = s.slen := rfl
@[simp] theorem State.finish_dlen (r : Reply) (s : State) : (s.finish r).dlen = s.dlen := rfl
@[simp] theorem State.finish_blen (r : Reply) (s : State) : (s.finish r).blen = s.blen := rfl
@[simp] theorem State.finish_elen (r : Reply) (s : State) : (s.finish r).elen = s.elen := rfl
@[simp] theorem State.finish_ccap (r : Reply) (s : State) : (s.finish r).ccap = s.ccap := rfl
@[simp] theorem State.finish_mem (r : Reply) (s : State) : (s.finish r).mem = s.mem := rfl
@[simp] theorem State.finish_fill (r : Reply) (s : State) : (s.finish r).fill = s.fill := rfl
@[simp] theorem State.finish_draw (r : Reply) (s : State) : (s.finish r).draw = s.draw := rfl
@[simp] theorem State.finish_program (r : Reply) (s : State) : (s.finish r).program = s.program := rfl
@[simp] theorem State.finish_pc (r : Reply) (s : State) : (s.finish r).pc = s.pc + 1 := rfl
@[simp] theorem State.finish_reply (r : Reply) (s : State) : (s.finish r).reply = r := rfl

/-! A run is loaded -/

@[simp] theorem State.withFetchWord_chk (n w : Nat) (s : State) : (s.withFetchWord n w).chk = s.chk := rfl
@[simp] theorem State.withFetchWord_ok (n w : Nat) (s : State) : (s.withFetchWord n w).ok = s.ok := rfl
@[simp] theorem State.withFetchWord_hflt (n w : Nat) (s : State) : (s.withFetchWord n w).hflt = s.hflt := rfl
@[simp] theorem State.withFetchWord_hlen (n w : Nat) (s : State) : (s.withFetchWord n w).hlen = s.hlen := rfl
@[simp] theorem State.withFetchWord_slen (n w : Nat) (s : State) : (s.withFetchWord n w).slen = s.slen := rfl
@[simp] theorem State.withFetchWord_dlen (n w : Nat) (s : State) : (s.withFetchWord n w).dlen = s.dlen := rfl
@[simp] theorem State.withFetchWord_blen (n w : Nat) (s : State) : (s.withFetchWord n w).blen = s.blen := rfl
@[simp] theorem State.withFetchWord_elen (n w : Nat) (s : State) : (s.withFetchWord n w).elen = s.elen := rfl
@[simp] theorem State.withFetchWord_ccap (n w : Nat) (s : State) : (s.withFetchWord n w).ccap = s.ccap := rfl
@[simp] theorem State.withFetchWord_mem (n w : Nat) (s : State) : (s.withFetchWord n w).mem = s.mem := rfl
@[simp] theorem State.withFetchWord_fill (n w : Nat) (s : State) : (s.withFetchWord n w).fill = s.fill := rfl
@[simp] theorem State.withFetchWord_draw (n w : Nat) (s : State) : (s.withFetchWord n w).draw = s.draw := rfl
@[simp] theorem State.withFetchWord_program (n w : Nat) (s : State) : (s.withFetchWord n w).program = placeTransaction s.pc (.cmd (tableWord n w)) s.program := rfl
@[simp] theorem State.withFetchWord_pc (n w : Nat) (s : State) : (s.withFetchWord n w).pc = s.pc := rfl
@[simp] theorem State.withFetchWord_reply (n w : Nat) (s : State) : (s.withFetchWord n w).reply = s.reply := rfl

/-! A host fault -/

@[simp] theorem State.raiseHostFault_chk (x : HostFault) (s : State) : (s.raiseHostFault x).chk = s.chk := by
  cases x <;> rfl
@[simp] theorem State.raiseHostFault_ok (x : HostFault) (s : State) : (s.raiseHostFault x).ok = (if x = .illegalCommand then false else s.ok) := by
  cases x <;> rfl
@[simp] theorem State.raiseHostFault_hflt (x : HostFault) (s : State) : (s.raiseHostFault x).hflt = true := by
  cases x <;> rfl
@[simp] theorem State.raiseHostFault_hlen (x : HostFault) (s : State) : (s.raiseHostFault x).hlen = s.hlen := by
  cases x <;> rfl
@[simp] theorem State.raiseHostFault_slen (x : HostFault) (s : State) : (s.raiseHostFault x).slen = s.slen := by
  cases x <;> rfl
@[simp] theorem State.raiseHostFault_dlen (x : HostFault) (s : State) : (s.raiseHostFault x).dlen = s.dlen := by
  cases x <;> rfl
@[simp] theorem State.raiseHostFault_blen (x : HostFault) (s : State) : (s.raiseHostFault x).blen = s.blen := by
  cases x <;> rfl
@[simp] theorem State.raiseHostFault_elen (x : HostFault) (s : State) : (s.raiseHostFault x).elen = s.elen := by
  cases x <;> rfl
@[simp] theorem State.raiseHostFault_ccap (x : HostFault) (s : State) : (s.raiseHostFault x).ccap = s.ccap := by
  cases x <;> rfl
@[simp] theorem State.raiseHostFault_mem (x : HostFault) (s : State) : (s.raiseHostFault x).mem = s.mem := by
  cases x <;> rfl
@[simp] theorem State.raiseHostFault_fill (x : HostFault) (s : State) : (s.raiseHostFault x).fill = s.fill := by
  cases x <;> rfl
@[simp] theorem State.raiseHostFault_draw (x : HostFault) (s : State) : (s.raiseHostFault x).draw = s.draw := by
  cases x <;> rfl
@[simp] theorem State.raiseHostFault_program (x : HostFault) (s : State) : (s.raiseHostFault x).program = s.program := by
  cases x <;> rfl
@[simp] theorem State.raiseHostFault_pc (x : HostFault) (s : State) : (s.raiseHostFault x).pc = s.pc := by
  cases x <;> rfl
@[simp] theorem State.raiseHostFault_reply (x : HostFault) (s : State) : (s.raiseHostFault x).reply = s.reply := by
  cases x <;> rfl

/-! A run of bytes is written -/

@[simp] theorem State.writeSpan_chk (r : Region) (i : Nat) (bs : List Byte) (s : State) :
    (s.writeSpan r i bs).chk = s.chk := by
  induction bs generalizing i s with
  | nil => rfl
  | cons b bs ih => simp [State.writeSpan, ih]
@[simp] theorem State.writeSpan_ok (r : Region) (i : Nat) (bs : List Byte) (s : State) :
    (s.writeSpan r i bs).ok = s.ok := by
  induction bs generalizing i s with
  | nil => rfl
  | cons b bs ih => simp [State.writeSpan, ih]
@[simp] theorem State.writeSpan_hflt (r : Region) (i : Nat) (bs : List Byte) (s : State) :
    (s.writeSpan r i bs).hflt = s.hflt := by
  induction bs generalizing i s with
  | nil => rfl
  | cons b bs ih => simp [State.writeSpan, ih]
@[simp] theorem State.writeSpan_hlen (r : Region) (i : Nat) (bs : List Byte) (s : State) :
    (s.writeSpan r i bs).hlen = s.hlen := by
  induction bs generalizing i s with
  | nil => rfl
  | cons b bs ih => simp [State.writeSpan, ih]
@[simp] theorem State.writeSpan_slen (r : Region) (i : Nat) (bs : List Byte) (s : State) :
    (s.writeSpan r i bs).slen = s.slen := by
  induction bs generalizing i s with
  | nil => rfl
  | cons b bs ih => simp [State.writeSpan, ih]
@[simp] theorem State.writeSpan_dlen (r : Region) (i : Nat) (bs : List Byte) (s : State) :
    (s.writeSpan r i bs).dlen = s.dlen := by
  induction bs generalizing i s with
  | nil => rfl
  | cons b bs ih => simp [State.writeSpan, ih]
@[simp] theorem State.writeSpan_blen (r : Region) (i : Nat) (bs : List Byte) (s : State) :
    (s.writeSpan r i bs).blen = s.blen := by
  induction bs generalizing i s with
  | nil => rfl
  | cons b bs ih => simp [State.writeSpan, ih]
@[simp] theorem State.writeSpan_elen (r : Region) (i : Nat) (bs : List Byte) (s : State) :
    (s.writeSpan r i bs).elen = s.elen := by
  induction bs generalizing i s with
  | nil => rfl
  | cons b bs ih => simp [State.writeSpan, ih]
@[simp] theorem State.writeSpan_ccap (r : Region) (i : Nat) (bs : List Byte) (s : State) :
    (s.writeSpan r i bs).ccap = s.ccap := by
  induction bs generalizing i s with
  | nil => rfl
  | cons b bs ih => simp [State.writeSpan, ih]
@[simp] theorem State.writeSpan_fill (r : Region) (i : Nat) (bs : List Byte) (s : State) :
    (s.writeSpan r i bs).fill = s.fill := by
  induction bs generalizing i s with
  | nil => rfl
  | cons b bs ih => simp [State.writeSpan, ih]
@[simp] theorem State.writeSpan_draw (r : Region) (i : Nat) (bs : List Byte) (s : State) :
    (s.writeSpan r i bs).draw = s.draw := by
  induction bs generalizing i s with
  | nil => rfl
  | cons b bs ih => simp [State.writeSpan, ih]
@[simp] theorem State.writeSpan_program (r : Region) (i : Nat) (bs : List Byte) (s : State) :
    (s.writeSpan r i bs).program = s.program := by
  induction bs generalizing i s with
  | nil => rfl
  | cons b bs ih => simp [State.writeSpan, ih]
@[simp] theorem State.writeSpan_pc (r : Region) (i : Nat) (bs : List Byte) (s : State) :
    (s.writeSpan r i bs).pc = s.pc := by
  induction bs generalizing i s with
  | nil => rfl
  | cons b bs ih => simp [State.writeSpan, ih]
@[simp] theorem State.writeSpan_reply (r : Region) (i : Nat) (bs : List Byte) (s : State) :
    (s.writeSpan r i bs).reply = s.reply := by
  induction bs generalizing i s with
  | nil => rfl
  | cons b bs ih => simp [State.writeSpan, ih]

/-! The 8-bit registers by name -/

@[simp] theorem State.getReg8_setReg8 (r q : Reg8) (v : Byte) (s : State) :
    (s.setReg8 r v).getReg8 q = if q = r then v else s.getReg8 q := by
  cases r <;> cases q <;> rfl

@[simp] theorem State.getReg8_setChk (q : Reg8) (v : Chk) (s : State) : (s.setChk v).getReg8 q = s.getReg8 q := by
  cases q <;> rfl

@[simp] theorem State.getReg8_succeed (q : Reg8) (s : State) : s.succeed.getReg8 q = s.getReg8 q := by
  cases q <;> rfl

@[simp] theorem State.getReg8_writeSpan (q : Reg8) (r : Region) (i : Nat) (bs : List Byte) (s : State) :
    (s.writeSpan r i bs).getReg8 q = s.getReg8 q := by
  cases q <;> simp [State.getReg8]

@[simp] theorem State.getReg8_writeByte (q : Reg8) (a : Nat) (v : Byte) (s : State) :
    (s.writeByte a v).getReg8 q = s.getReg8 q := by
  cases q <;> simp [State.getReg8]

@[simp] theorem State.getReg8_fail (q : Reg8) (o : Outputs) (c : Cause) (s : State) :
    (s.fail o c).getReg8 q = s.regAfterFail o q := by
  cases q <;> rfl

@[simp] theorem State.getReg8_raiseHostFault (q : Reg8) (x : HostFault) (s : State) :
    (s.raiseHostFault x).getReg8 q = s.getReg8 q := by
  cases x <;> cases q <;> rfl

@[simp] theorem State.getReg8_finish (q : Reg8) (r : Reply) (s : State) : (s.finish r).getReg8 q = s.getReg8 q := by
  cases q <;> rfl

end Sys2Proof.Machine
end

