-- ==== Sys2Proof/Laws/Memory.lean ====
section
/-! SUPPORT. What the memory operations do, as seen by the read of one address, and that they keep the canonical form. -/

namespace Sys2Proof.Machine

@[simp] theorem Memory.find?_nil (a : Nat) : Memory.find? a [] = none := rfl

/-- Listing a value for `a` makes it the value found there and leaves every other address alone. -/
@[simp] theorem Memory.find?_insert (a b : Nat) (v : Byte) (m : Memory) :
    Memory.find? b (Memory.insert a v m) = if b = a then some v else Memory.find? b m := by
  induction m with
  | nil => simp only [Memory.insert, Memory.find?]
  | cons c m ih =>
    obtain ⟨c, w⟩ := c
    simp only [Memory.insert]
    by_cases h₁ : a < c
    · simp [h₁, Memory.find?]
    · by_cases h₂ : a = c
      · subst h₂
        by_cases h : b = a <;> simp [Memory.find?, h]
      · by_cases h : b = a
        · subst h
          simp [h₁, h₂, Memory.find?, ih]
        · simp [h₁, h₂, Memory.find?, ih, h]

/-- Forgetting the regions `rs` unlists exactly their addresses. -/
@[simp] theorem Memory.find?_forget (rs : List Region) (a : Nat) (m : Memory) :
    Memory.find? a (Memory.forget rs m) = if inRegions rs a then none else Memory.find? a m := by
  induction m with
  | nil => simp [Memory.forget]
  | cons c m ih =>
    obtain ⟨c, w⟩ := c
    simp only [Memory.forget, List.filter_cons] at ih ⊢
    by_cases h : inRegions rs c = true <;> by_cases e : a = c
    · subst e; simp [h, ih]
    · simp [h, ih, Memory.find?, e]
    · subst e; simp [h, Memory.find?]
    · simp [h, ih, Memory.find?, e]

theorem Memory.rising_mono {lo lo' : Nat} (h : lo' ≤ lo) : ∀ {m : Memory}, Memory.rising lo m = true →
    Memory.rising lo' m = true
  | [], _ => rfl
  | (a, _) :: m, hm => by
    simp only [Memory.rising, Bool.and_eq_true, decide_eq_true_eq] at hm ⊢
    exact ⟨Nat.le_trans h hm.1, hm.2⟩

theorem Memory.rising_insert {lo a : Nat} (v : Byte) (h : lo ≤ a) : ∀ {m : Memory}, Memory.rising lo m = true →
    Memory.rising lo (Memory.insert a v m) = true := by
  intro m
  induction m generalizing lo with
  | nil => intro _; simp [Memory.insert, Memory.rising, h]
  | cons c m ih =>
    obtain ⟨c, w⟩ := c
    intro hm
    simp only [Memory.rising, Bool.and_eq_true, decide_eq_true_eq] at hm
    simp only [Memory.insert]
    split
    · rename_i hlt
      simp only [Memory.rising, Bool.and_eq_true, decide_eq_true_eq]
      exact ⟨h, hlt, hm.2⟩
    · split
      · rename_i heq
        subst heq
        simp only [Memory.rising, Bool.and_eq_true, decide_eq_true_eq]
        exact ⟨h, hm.2⟩
      · rename_i h₁ h₂
        simp only [Memory.rising, Bool.and_eq_true, decide_eq_true_eq]
        exact ⟨hm.1, ih (by omega) hm.2⟩

theorem Memory.rising_filter {lo : Nat} (p : Host.Cell → Bool) : ∀ {m : Memory}, Memory.rising lo m = true →
    Memory.rising lo (m.filter p) = true := by
  intro m
  induction m generalizing lo with
  | nil => intro _; rfl
  | cons c m ih =>
    obtain ⟨c, w⟩ := c
    intro hm
    simp only [Memory.rising, Bool.and_eq_true, decide_eq_true_eq] at hm
    rw [List.filter_cons]
    split
    · simp only [Memory.rising, Bool.and_eq_true, decide_eq_true_eq]
      exact ⟨hm.1, ih hm.2⟩
    · exact Memory.rising_mono (by omega) (ih hm.2)

theorem Memory.mem_insert {a : Nat} {v : Byte} {m : Memory} {c : Host.Cell} (h : c ∈ Memory.insert a v m) :
    c = (a, v) ∨ c ∈ m := by
  induction m with
  | nil => simpa [Memory.insert] using h
  | cons d m ih =>
    obtain ⟨d, w⟩ := d
    simp only [Memory.insert] at h
    split at h
    · simpa using h
    · split at h
      · rcases List.mem_cons.mp h with h | h
        · exact .inl h
        · exact .inr (List.mem_cons_of_mem _ h)
      · rcases List.mem_cons.mp h with h | h
        · exact .inr (h ▸ List.mem_cons_self ..)
        · exact (ih h).imp id (List.mem_cons_of_mem _)

/-- Writing an implemented byte keeps the canonical form. -/
theorem Memory.wf_insert {a : Nat} (v : Byte) {m : Memory} (ha : a < bufSize) (h : Memory.wf m = true) :
    Memory.wf (Memory.insert a v m) = true := by
  simp only [Memory.wf, Bool.and_eq_true, List.all_eq_true, decide_eq_true_eq] at h ⊢
  refine ⟨Memory.rising_insert v (Nat.zero_le a) h.1, fun c hc => ?_⟩
  rcases Memory.mem_insert hc with rfl | hc
  · exact ha
  · exact h.2 c hc

/-- Making regions `UNSPEC` keeps the canonical form. -/
theorem Memory.wf_forget (rs : List Region) {m : Memory} (h : Memory.wf m = true) :
    Memory.wf (Memory.forget rs m) = true := by
  simp only [Memory.wf, Bool.and_eq_true, List.all_eq_true] at h ⊢
  exact ⟨Memory.rising_filter _ h.1, fun c hc => h.2 c (List.mem_of_mem_filter hc)⟩

theorem Memory.wf_nil : Memory.wf [] = true := rfl

/-- A region's addresses are the 128 from its base (R61). -/
theorem Region.ofAddr_base_add (r : Region) {i : Nat} (h : i < 128) : Region.ofAddr (r.base + i) = some r := by
  have e : (r.base + i) / 128 = r.base / 128 := by cases r <;> simp only [Region.base] <;> omega
  unfold Region.ofAddr
  rw [e]
  cases r <;> rfl

theorem Region.ofAddr_eq_some {a : Nat} {r : Region} (h : Region.ofAddr a = some r) :
    r.base ≤ a ∧ a < r.base + 128 := by
  unfold Region.ofAddr at h
  split at h <;> simp_all only [Option.some.injEq, reduceCtorEq] <;> subst h <;> simp only [Region.base] <;> omega

/-- The implemented addresses are those of the five regions (R60, R61). -/
theorem Region.ofAddr_isSome (a : Nat) : (Region.ofAddr a).isSome = true ↔ a < bufSize := by
  unfold bufSize
  constructor
  · intro h
    obtain ⟨r, hr⟩ := Option.isSome_iff_exists.mp h
    have := Region.ofAddr_eq_some hr
    cases r <;> simp only [Region.base] at this <;> omega
  · intro h
    have : a / 128 = 0 ∨ a / 128 = 1 ∨ a / 128 = 2 ∨ a / 128 = 3 ∨ a / 128 = 4 := by omega
    unfold Region.ofAddr
    rcases this with e | e | e | e | e <;> rw [e] <;> rfl

theorem Region.ofAddr_eq_none {a : Nat} : Region.ofAddr a = none ↔ bufSize ≤ a := by
  rw [← Option.not_isSome_iff_eq_none, Region.ofAddr_isSome, Nat.not_lt]

theorem inRegions_eq (rs : List Region) (a : Nat) :
    inRegions rs a = true ↔ ∃ r, Region.ofAddr a = some r ∧ r ∈ rs := by
  unfold inRegions
  cases Region.ofAddr a <;> simp

theorem Fill.get_refresh (rs : List Region) (d : Nat) (f : Fill) (r : Region) :
    (Fill.refresh rs d f).get r = if r ∈ rs then d else f.get r := by
  cases r <;> simp [Fill.refresh, Fill.get]

end Sys2Proof.Machine
end

