-- ==== Sys2Proof/Laws/Ops.lean ====
section
/-! SUPPORT. What each shared operation of the machine does, said once: the read of one byte after every update, runs of
bytes, and how a command ends. -/

namespace Sys2Proof.Machine

/-- A read depends on the memory and on where unlisted bytes come from, and on nothing else. -/
theorem State.readByte_congr {s t : State} (hm : t.mem = s.mem) (hf : t.fill = s.fill) (a : Nat) :
    t.readByte a = s.readByte a := by
  unfold State.readByte
  rw [hm, hf]

@[simp] theorem State.readByte_setOk (b : Bool) (s : State) (a : Nat) : (s.setOk b).readByte a = s.readByte a := rfl

@[simp] theorem State.readByte_setHflt (s : State) (a : Nat) : s.setHflt.readByte a = s.readByte a := rfl

@[simp] theorem State.readByte_succeed (s : State) (a : Nat) : s.succeed.readByte a = s.readByte a := rfl

@[simp] theorem State.readByte_setChk (v : Chk) (s : State) (a : Nat) : (s.setChk v).readByte a = s.readByte a := rfl

@[simp] theorem State.readByte_setReg8 (r : Reg8) (v : Byte) (s : State) (a : Nat) :
    (s.setReg8 r v).readByte a = s.readByte a := State.readByte_congr (by simp) (by simp) a

@[simp] theorem State.readByte_raiseHostFault (x : HostFault) (s : State) (a : Nat) :
    (s.raiseHostFault x).readByte a = s.readByte a := State.readByte_congr (by simp) (by simp) a

@[simp] theorem State.readByte_finish (r : Reply) (s : State) (a : Nat) : (s.finish r).readByte a = s.readByte a := rfl

/-- An unmapped address reads as 0x00 (R65). -/
theorem State.readByte_unmapped {s : State} {a : Nat} (h : bufSize ≤ a) : s.readByte a = 0x00#8 := by
  unfold State.readByte
  rw [Region.ofAddr_eq_none.mpr h]

/-- A write is seen at its own address, if that is implemented, and nowhere else. -/
theorem State.readByte_writeByte (a : Nat) (v : Byte) (s : State) (b : Nat) :
    (s.writeByte a v).readByte b = if b = a ∧ a < bufSize then v else s.readByte b := by
  by_cases ha : a < bufSize
  · obtain ⟨r, hr⟩ := Option.isSome_iff_exists.mp ((Region.ofAddr_isSome a).mpr ha)
    unfold State.readByte
    by_cases hb : b = a
    · subst hb
      simp [hr, ha]
    · simp [hr, hb]
  · have : Region.ofAddr a = none := Region.ofAddr_eq_none.mpr (by omega)
    simp [State.writeByte, this, ha]

theorem State.wf_writeByte (a : Nat) (v : Byte) {s : State} (h : Memory.wf s.mem = true) :
    Memory.wf (s.writeByte a v).mem = true := by
  rw [State.writeByte_mem]
  split
  · rename_i ha
    exact Memory.wf_insert v ((Region.ofAddr_isSome a).mp ha) h
  · exact h

theorem State.wf_writeSpan (r : Region) (i : Nat) (bs : List Byte) {s : State} (h : Memory.wf s.mem = true) :
    Memory.wf (s.writeSpan r i bs).mem = true := by
  induction bs generalizing i s with
  | nil => exact h
  | cons b bs ih => exact ih _ (State.wf_writeByte _ _ h)

/-- A run of bytes written within a region is read back byte by byte; every other address reads as before. -/
theorem State.readByte_writeSpan (r : Region) (i : Nat) (bs : List Byte) (s : State) (a : Nat)
    (h : i + bs.length ≤ 128) :
    (s.writeSpan r i bs).readByte a =
      if r.base + i ≤ a ∧ a < r.base + i + bs.length then bs.getD (a - (r.base + i)) 0#8 else s.readByte a := by
  have hbase : r.base + 128 ≤ bufSize := by cases r <;> decide
  induction bs generalizing i s with
  | nil =>
    simp [State.writeSpan]
  | cons b bs ih =>
    simp only [List.length_cons] at h
    rw [State.writeSpan, ih _ _ (by omega), State.readByte_writeByte]
    simp only [List.length_cons]
    by_cases h₁ : a = r.base + i
    · subst h₁
      have h₃ : r.base + i < bufSize := by omega
      simp [h₃]
    · by_cases h₂ : r.base + (i + 1) ≤ a ∧ a < r.base + (i + 1) + bs.length
      · have e : a - (r.base + i) = a - (r.base + (i + 1)) + 1 := by omega
        have h₃ : r.base + i ≤ a ∧ a < r.base + i + (bs.length + 1) := by omega
        rw [if_pos h₂, if_pos h₃, e, List.getD_cons_succ]
      · have h₃ : ¬(r.base + i ≤ a ∧ a < r.base + i + (bs.length + 1)) := by omega
        rw [if_neg h₂, if_neg h₃, if_neg (fun h => h₁ h.1)]

/-- After a failure every byte of the output regions is the new draw's value, every other byte as before (R222). -/
theorem State.readByte_fail (o : Outputs) (c : Cause) (s : State) (a : Nat) :
    (s.fail o c).readByte a = if inRegions o.regions a then Config.unspecByte s.draw a else s.readByte a := by
  unfold State.readByte inRegions
  cases h : Region.ofAddr a with
  | none => rfl
  | some r =>
    have hi : inRegions o.regions a = o.regions.contains r := by simp [inRegions, h]
    by_cases hr : r ∈ o.regions <;> simp [hi, Fill.get_refresh, hr]

/-- After a reset every implemented byte is the new draw's value (R250). -/
theorem State.readByte_resetBlock (s : State) (a : Nat) :
    s.resetBlock.readByte a = if a < bufSize then Config.unspecByte s.draw a else 0x00#8 := by
  unfold State.readByte
  cases h : Region.ofAddr a with
  | none =>
    have : ¬a < bufSize := by have := Region.ofAddr_eq_none.mp h; omega
    simp [this]
  | some r =>
    have : a < bufSize := (Region.ofAddr_isSome a).mp (by simp [h])
    cases r <;> simp [this, Fill.get, Fill.refresh, Region.all]

@[simp] theorem State.length_span (s : State) (r : Region) (n : Nat) : (s.span r n).length = n := by
  simp [State.span]

@[simp] theorem State.getElem_span (s : State) (r : Region) (n i : Nat) (h : i < (s.span r n).length) :
    (s.span r n)[i] = s.readByte (r.base + i) := by
  simp [State.span]

theorem State.mem_span {s : State} {r : Region} {n : Nat} {v : Byte} :
    v ∈ s.span r n ↔ ∃ i < n, s.readByte (r.base + i) = v := by
  simp [State.span]

/-- Two states whose bytes agree on the run read the same run. -/
theorem State.span_congr {s t : State} {r : Region} {n : Nat}
    (h : ∀ i < n, t.readByte (r.base + i) = s.readByte (r.base + i)) : t.span r n = s.span r n := by
  unfold State.span
  exact List.map_congr_left fun i hi => h i (List.mem_range.mp hi)

/-- A command ends in success exactly with what its attempt wrote, or in failure (R220). -/
theorem State.complete_cases (o : Outputs) (attempt : Except Cause State) (s : State) :
    (∃ t, attempt = .ok t ∧ s.complete o attempt = t.succeed) ∨
      (∃ c, attempt = .error c ∧ s.complete o attempt = s.fail o c) := by
  cases attempt with
  | ok t => exact .inl ⟨t, rfl, rfl⟩
  | error c => exact .inr ⟨c, rfl, rfl⟩

/-- `STATUS.OK` says which way the command ended. -/
theorem State.complete_ok (o : Outputs) (attempt : Except Cause State) (s : State) :
    (s.complete o attempt).ok = true ↔ ∃ t, attempt = .ok t := by
  cases attempt <;> simp [State.complete]

end Sys2Proof.Machine
end

