-- ==== Sys2Proof/Laws/Checksum.lean ====
section
/-! SUPPORT. The checksum engine's small laws: feeding a sequence in two parts, and the parts of a folded character. -/

namespace Sys2Proof.Machine

@[simp] theorem feedAll_nil (c : Chk) : feedAll c [] = c := rfl

@[simp] theorem feedAll_cons (c v : Chk) (vs : List Chk) : feedAll c (v :: vs) = feedAll (chkStep c ^^^ v) vs := rfl

/-- A pass runs part by part. -/
theorem feedAll_append (c : Chk) (vs ws : List Chk) : feedAll c (vs ++ ws) = feedAll (feedAll c vs) ws := by
  simp [feedAll]

/-- The pass over more symbols goes on from the pass over fewer. -/
theorem pass_append (p ds es : List Byte) :
    pass p (ds ++ es) = feedAll (pass p ds) (es.map fun v => v.setWidth 30) := by
  simp [pass, feedAll_append]

/-- The low part of a character is its remainder by 32 (R93). -/
theorem low5_eq (c : Byte) : low5 c = BitVec.ofNat 30 (c.toNat % 32) := by
  apply BitVec.eq_of_toNat_eq
  simp [low5]

/-- The high part of a character is its quotient by 32 (R93). -/
theorem high3_eq (c : Byte) : high3 c = BitVec.ofNat 30 (c.toNat / 32) := by
  apply BitVec.eq_of_toNat_eq
  simp [high3, Nat.shiftRight_eq_div_pow]
  omega

/-- A symbol's low part is the symbol. -/
theorem low5_of_lt {c : Byte} (h : c.toNat < 32) : low5 c = c.setWidth 30 := by
  apply BitVec.eq_of_toNat_eq
  rw [low5_eq, Nat.mod_eq_of_lt h]
  simp

@[simp] theorem length_checkSymbols (k : Chk) : (checkSymbols k).length = 6 := by simp [checkSymbols, ckLen]

/-- A generator folded in at bit `k`. -/
theorem getLsbD_genIf (b : BitVec 5) (i k : Nat) : (genIf b i).getLsbD k = (b.getLsbD i && (gen i).getLsbD k) := by
  unfold genIf
  cases b.getLsbD i <;> simp

end Sys2Proof.Machine
end

