-- ==== Sys2Proof/Laws/Codec.lean ====
section
/-! SUPPORT. What the codec's functions do, said once: the constant tables undo each other, the separator is the last `1`,
and each attempt succeeds exactly under its conditions. -/

namespace Sys2Proof.Machine

/-! Tables and characters -/

/-- The facts of the 32 symbols, one by one. -/
theorem charsetAt_facts : ∀ v : BitVec 5, rev (charsetAt (v.setWidth 8)) = some (v.setWidth 8) ∧
    charsetAt (v.setWidth 8) ≠ sepChar ∧ isUpper (charsetAt (v.setWidth 8)) = false ∧
    inHrpRange (charsetAt (v.setWidth 8)) = true := by decide

theorem symbol_eq {v : Byte} (h : v.toNat < 32) : ∃ w : BitVec 5, v = w.setWidth 8 := by
  refine ⟨v.setWidth 5, BitVec.eq_of_toNat_eq ?_⟩
  simp
  omega

theorem rev_charsetAt {v : Byte} (h : v.toNat < 32) : rev (charsetAt v) = some v := by
  obtain ⟨w, rfl⟩ := symbol_eq h
  exact (charsetAt_facts _).1

theorem charsetAt_legal {v : Byte} (h : v.toNat < 32) :
    charsetAt v ≠ sepChar ∧ isUpper (charsetAt v) = false ∧ inHrpRange (charsetAt v) = true := by
  obtain ⟨w, rfl⟩ := symbol_eq h
  exact (charsetAt_facts _).2

/-- The facts of the characters of the alphabet, one by one. -/
theorem rev_facts : ∀ c : Byte,
    (rev c).all (fun v => decide (charsetAt v = toLower c) && decide (v.toNat < 32)) = true := by decide +kernel

theorem charsetAt_of_rev {c v : Byte} (h : rev c = some v) : charsetAt v = toLower c := by
  have := rev_facts c
  rw [h] at this
  simp only [Option.all_some, Bool.and_eq_true, decide_eq_true_eq] at this
  exact this.1

theorem rev_lt {c v : Byte} (h : rev c = some v) : v.toNat < 32 := by
  have := rev_facts c
  rw [h] at this
  simp only [Option.all_some, Bool.and_eq_true, decide_eq_true_eq] at this
  exact this.2

theorem rev_sepChar : rev sepChar = none := by decide

theorem rev_toLower : ∀ c : Byte, rev (toLower c) = rev c := by decide

theorem toLower_of_not_upper {c : Byte} (h : isUpper c = false) : toLower c = c := by simp [toLower, h]

theorem toLower_facts : ∀ c : Byte, inHrpRange c = true →
    inHrpRange (toLower c) = true ∧ isUpper (toLower c) = false := by decide

theorem checkSymbols_lt (k : Chk) : ∀ v ∈ checkSymbols k, v.toNat < 32 := by
  intro v hv
  simp only [checkSymbols, List.mem_map] at hv
  obtain ⟨t, -, rfl⟩ := hv
  have := ((k.extractLsb' (25 - 5 * t) 5)).isLt
  simp only [BitVec.toNat_setWidth]
  omega

/-! The encoder -/

/-- The prefix passes exactly when every character is in range and none is upper case (R143). -/
theorem prefixFault_eq_none (p : List Byte) :
    prefixFault p = none ↔ ∀ c ∈ p, inHrpRange c = true ∧ isUpper c = false := by
  induction p with
  | nil => simp [prefixFault]
  | cons c cs ih =>
    simp only [prefixFault, List.mem_cons, forall_eq_or_imp]
    cases hr : inHrpRange c <;> cases hu : isUpper c <;> simp [ih]

@[simp] theorem length_encodedString (p d : List Byte) : (encodedString p d).length = p.length + 7 + d.length := by
  simp only [encodedString, List.length_append, List.length_map, List.length_cons, List.length_nil,
    length_checkSymbols]
  omega

/-- `ENCODE` succeeds exactly when it meets none of its failure conditions, and then writes the string (R141). -/
theorem State.encodeAttempt_eq_ok (s t : State) :
    s.encodeAttempt = .ok t ↔
      s.hlen.toNat ≠ 0 ∧ s.hlen.toNat + 7 + s.dlen.toNat ≤ 90 ∧
      (∀ c ∈ s.span .hrp s.hlen.toNat, inHrpRange c = true ∧ isUpper c = false) ∧
      (∀ v ∈ s.span .sym s.dlen.toNat, v.toNat < 32) ∧
      t = s.putString (s.span .hrp s.hlen.toNat) (s.span .sym s.dlen.toNat) := by
  rw [← prefixFault_eq_none]
  simp only [State.encodeAttempt]
  by_cases h₁ : s.hlen.toNat = 0
  · simp [h₁]
  · by_cases h₂ : s.hlen.toNat + 7 + s.dlen.toNat > maxStr
    · unfold maxStr at h₂
      have : ¬s.hlen.toNat + 7 + s.dlen.toNat ≤ 90 := by omega
      simp [h₁, h₂, this, maxStr]
    · have h₂' : s.hlen.toNat + 7 + s.dlen.toNat ≤ 90 := by unfold maxStr at h₂; omega
      rw [if_neg h₁, if_neg h₂]
      cases h₃ : prefixFault (s.span .hrp s.hlen.toNat) with
      | some c => simp
      | none =>
        have h₄ : (s.span .sym s.dlen.toNat).all isSymbol = true ↔ ∀ v ∈ s.span .sym s.dlen.toNat, v.toNat < 32 := by
          simp [List.all_eq_true, isSymbol]
        by_cases h₅ : (s.span .sym s.dlen.toNat).all isSymbol = true
        · have := h₄.mp h₅
          simp only [h₅, if_true]
          simp [h₁, h₂', eq_comm]
          exact fun _ => this
        · have h₆ : ¬∀ v ∈ s.span .sym s.dlen.toNat, v.toNat < 32 := fun h => h₅ (h₄.mpr h)
          simp only [h₅, h₆, false_and, and_false, if_false, reduceCtorEq, Bool.false_eq_true]

/-- The characters of the encoded string and its terminator, by position (R140, R147, R148). -/
theorem getD_encodedString (p d : List Byte) (i : Nat) :
   (encodedString p d ++ [terminator]).getD i 0#8 =
    if i < p.length then p.getD i 0#8 else if i = p.length then 0x31#8
    else if i < p.length + 1 + d.length then charsetAt (d.getD (i - p.length - 1) 0#8)
    else if i < p.length + 7 + d.length then charsetAt ((checkSymbols (checksum p d)).getD (i - (p.length+1+d.length)) 0#8)
    else 0#8 := by
  simp only [List.getD_eq_getElem?_getD, encodedString]
  have hl : (checkSymbols (checksum p d)).length = 6 := length_checkSymbols _
  generalize checkSymbols (checksum p d) = ks at hl
  simp only [List.getElem?_append, List.length_append, List.length_map, List.length_singleton, hl]
  by_cases h1 : i < p.length
  · have a1 : i < p.length + 1 := by omega
    have a2 : i < p.length + 1 + d.length := by omega
    have a3 : i < p.length + 1 + d.length + 6 := by omega
    simp [h1, a1, a2, a3]
  by_cases h2 : i = p.length
  · subst h2
    have a2 : p.length < p.length + 1 + d.length := by omega
    have a3 : p.length < p.length + 1 + d.length + 6 := by omega
    simp [a2, a3, sepChar]
  by_cases h3 : i < p.length + 1 + d.length
  · have a1 : ¬ i < p.length + 1 := by omega
    have a3 : i < p.length + 1 + d.length + 6 := by omega
    have e : i - (p.length + 1) = i - p.length - 1 := by omega
    simp only [h1, h2, h3, a1, a3, if_true, if_false, e]
    rw [List.getElem?_eq_getElem (by simp; omega), List.getElem?_eq_getElem (by omega)]
    simp
  have a1 : ¬ i < p.length + 1 := by omega
  by_cases h4 : i < p.length + 7 + d.length
  · have a3 : i < p.length + 1 + d.length + 6 := by omega
    simp only [h1, h2, h3, h4, a1, a3, if_true, if_false]
    rw [List.getElem?_eq_getElem (by simp; omega), List.getElem?_eq_getElem (by omega)]
    simp
  · have a3 : ¬ i < p.length + 1 + d.length + 6 := by omega
    simp only [h1, h2, h3, h4, a1, a3, if_false]
    cases i - (p.length + 1 + d.length + 6) <;> simp [terminator]

/-! The decoder -/

/-- There is no separator exactly when no character is a `1` (R152). -/
theorem lastSep_eq_none (cs : List Byte) : lastSep cs = none ↔ sepChar ∉ cs := by
  induction cs with
  | nil => simp [lastSep]
  | cons c cs ih =>
    simp only [lastSep, List.mem_cons, not_or]
    cases h : lastSep cs with
    | some i => simp [← ih, h]
    | none =>
      rw [← ih]
      by_cases hc : c = sepChar
      · simp [hc]
      · simp [hc, h, eq_comm (a := sepChar)]

/-- The separator is the last `1`: what stands before it, the `1`, and no `1` after it (R152). -/
theorem lastSep_eq_some (cs : List Byte) (i : Nat) :
    lastSep cs = some i ↔ cs = cs.take i ++ sepChar :: cs.drop (i + 1) ∧ sepChar ∉ cs.drop (i + 1) ∧ i < cs.length := by
  induction cs generalizing i with
  | nil => simp [lastSep]
  | cons c cs ih =>
    simp only [lastSep]
    cases i with
    | zero =>
      cases h : lastSep cs with
      | some j =>
        have : sepChar ∈ cs := by
          have := (lastSep_eq_none cs).not.mp (by simp [h])
          simpa using this
        simp [this]
      | none =>
        have := (lastSep_eq_none cs).mp h
        by_cases hc : c = sepChar <;> simp [hc, this]
    | succ i =>
      cases h : lastSep cs with
      | some j =>
        have := ih i
        rw [h] at this
        simpa using this
      | none =>
        have := ih i
        rw [h] at this
        by_cases hc : c = sepChar <;> simpa [hc] using this

/-- The first part of a run of bytes. -/
theorem State.take_span (s : State) (r : Region) {n k : Nat} (h : k ≤ n) : (s.span r n).take k = s.span r k := by
  simp only [State.span, ← List.map_take, List.take_range, Nat.min_eq_left h]

/-- The rest of a run of bytes. -/
theorem State.drop_span (s : State) (r : Region) (n k : Nat) :
   (s.span r n).drop k = (List.range (n-k)).map (fun j => s.readByte (r.base + (k + j))) := by
  apply List.ext_getElem <;> simp [State.span]

/-- The separator of a string in memory is its last `1` (R152). -/
theorem State.lastSep_span (s : State) (sep n : Nat) : lastSep (s.span .str n) = some sep ↔
   sep < n ∧ s.readByte (Region.str.base + sep) = 0x31#8 ∧ ∀ i < n, sep < i → s.readByte (Region.str.base + i) ≠ 0x31#8 := by
  rw [lastSep_eq_some, State.length_span]
  constructor
  · rintro ⟨h1, h2, h3⟩
    refine ⟨h3, ?_, ?_⟩
    · have : (s.span .str n)[sep]? = some sepChar := by
        rw [h1, List.getElem?_append_right (by simp)]
        rw [show sep - (List.take sep (s.span .str n)).length = 0 by simp; omega]; rfl
      rw [List.getElem?_eq_getElem (by simpa using h3)] at this
      simpa [sepChar] using this
    · intro i hi hs he
      rw [State.drop_span] at h2
      apply h2
      simp only [List.mem_map, List.mem_range]
      exact ⟨i - (sep+1), by omega, by rw [show sep + 1 + (i - (sep+1)) = i by omega]; exact he⟩
  · rintro ⟨h1, h2, h3⟩
    refine ⟨?_, ?_, h1⟩
    · apply List.ext_getElem
      · simp; omega
      · intro i hi hi'
        simp only [List.getElem_append, List.length_take, State.length_span]
        simp at hi
        split
        · simp
        · by_cases e : i = sep
          · subst e; simp [h1.le]; exact h2
          · have : i - min sep n = (i - sep - 1) + 1 := by omega
            simp only [this, List.getElem_cons_succ]
            simp; congr 1; omega
    · rw [State.drop_span]
      simp only [List.mem_map, List.mem_range, not_exists, not_and]
      intro j hj
      exact h3 _ (by omega) (by omega)

/-- Every data-part character has a value, and these are the values (R154). -/
theorem revAll_eq_some (cs vs : List Byte) : revAll cs = some vs ↔ cs.map rev = vs.map some := by
  induction cs generalizing vs with
  | nil => cases vs <;> simp [revAll]
  | cons c cs ih =>
    simp only [revAll]
    cases vs with
    | nil => cases rev c <;> cases revAll cs <;> simp
    | cons v vs =>
      have := ih vs
      cases h : rev c with
      | none => simp [h]
      | some w =>
        cases h' : revAll cs with
        | none =>
          rw [h'] at this
          simp only [List.map_cons, h]
          simp only [reduceCtorEq, false_iff] at this ⊢
          simpa using fun _ => this
        | some ws =>
          rw [h'] at this
          simp only [List.map_cons, h, Option.some.injEq, List.cons.injEq] at this ⊢
          rw [this]

theorem length_of_revAll {cs vs : List Byte} (h : revAll cs = some vs) : vs.length = cs.length := by
  have := congrArg List.length ((revAll_eq_some cs vs).mp h)
  simpa using this.symm

/-- The whole of the string's tests: a string is accepted exactly under the conditions of R152 to R156, and what is
recovered is the lower-case prefix and the values of the data part. -/
theorem parseString_eq_ok (str p syms : List Byte) :
    parseString str = .ok (p, syms) ↔
      ∃ sep, lastSep str = some sep ∧ 6 ≤ str.length - 1 - sep ∧ sep ≠ 0 ∧
        (∀ c ∈ str.take sep, inHrpRange c = true) ∧ revAll (str.drop (sep + 1)) = some syms ∧
        mixedCase (str.take sep ++ str.drop (sep + 1)) = false ∧
        pass ((str.take sep).map toLower) syms = ident ∧ p = (str.take sep).map toLower := by
  simp only [parseString, ckLen]
  cases hs : lastSep str with
  | none => simp
  | some sep =>
    simp only [Option.some.injEq, exists_eq_left']
    by_cases h₁ : str.length - 1 - sep < 6
    · have : ¬6 ≤ str.length - 1 - sep := by omega
      simp [h₁, this]
    · have h₁' : 6 ≤ str.length - 1 - sep := by omega
      by_cases h₂ : sep = 0
      · subst h₂
        have h₃ : ¬(str.length - 1 < 6) := by omega
        simp [h₃]
      · by_cases h₃ : (str.take sep).all inHrpRange = true
        · have h₃' : ∀ c ∈ str.take sep, inHrpRange c = true := by simpa [List.all_eq_true] using h₃
          cases hr : revAll (str.drop (sep + 1)) with
          | none => simp [h₁, h₂, h₃]
          | some vs =>
            by_cases hm : mixedCase (str.take sep ++ str.drop (sep + 1)) = true
            · simp [h₁, h₂, h₃, hm]
            · have hm' : mixedCase (str.take sep ++ str.drop (sep + 1)) = false := by simpa using hm
              by_cases hp : pass ((str.take sep).map toLower) vs = ident
              · simp only [h₁, h₂, h₃, hm', hp, Bool.not_true, Bool.false_eq_true, if_false, ne_eq, not_true_eq_false,
                  Except.ok.injEq, Prod.mk.injEq, Option.some.injEq, not_false_eq_true, true_and]
                constructor
                · rintro ⟨rfl, rfl⟩
                  exact ⟨h₁', h₃', rfl, hp, rfl⟩
                · rintro ⟨-, -, rfl, -, rfl⟩
                  exact ⟨rfl, rfl⟩
              · simp only [h₁, h₂, h₃, hm', hp, Bool.not_true, Bool.false_eq_true, if_false, ne_eq, not_false_eq_true,
                  if_true, reduceCtorEq, false_iff]
                rintro ⟨-, -, -, rfl', -, h, -⟩
                cases rfl'
                exact hp h
        · have h₃' : ¬∀ c ∈ str.take sep, inHrpRange c = true := by simpa [List.all_eq_true] using h₃
          simp only [h₁, h₂, h₃, Bool.not_false, if_true, if_false, reduceCtorEq, false_iff]
          exact fun h => h₃' h.2.2.1

/-- `DECODE` succeeds exactly on an accepted string of 8 to 90 characters, and then writes what was recovered (R150). -/
theorem State.decodeAttempt_eq_ok (s t : State) :
    s.decodeAttempt = .ok t ↔
      8 ≤ s.slen.toNat ∧ s.slen.toNat ≤ 90 ∧
      ∃ p syms, parseString (s.span .str s.slen.toNat) = .ok (p, syms) ∧ t = s.putParsed p syms := by
  simp only [State.decodeAttempt]
  have e : (s.slen.toNat < minStr ∨ s.slen.toNat > maxStr) ↔ s.slen.toNat < 8 ∨ s.slen.toNat > 90 := Iff.rfl
  by_cases h : s.slen.toNat < minStr ∨ s.slen.toNat > maxStr
  · rw [if_pos h]
    rw [e] at h
    simp only [reduceCtorEq, false_iff]
    omega
  · rw [if_neg h]
    rw [e] at h
    have h₁ : 8 ≤ s.slen.toNat := by omega
    have h₂ : s.slen.toNat ≤ 90 := by omega
    cases hp : parseString (s.span .str s.slen.toNat) with
    | error c => simp
    | ok r =>
      obtain ⟨p, syms⟩ := r
      simp [h₁, h₂, eq_comm]

end Sys2Proof.Machine
end

