-- ==== Sys2Proof/Laws/Converter.lean ====
section
/-! SUPPORT. What the converter's loops compute, said once: the outputs are the consecutive groups of `outbits` bits of
the input stream read as one number, and the failures are exactly those of R184, R185 and R186. -/

namespace Sys2Proof.Machine

/-- The input read most-significant-bit-first as one number (R180). -/
def streamOf (inbits : Nat) (xs : List Byte) : Nat := xs.foldl (fun v x => v * 2 ^ inbits + x.toNat) 0

/-- The `q` values that the top of a stream of `total` bits regroups to. -/
def groups (outbits v total q : Nat) : List Byte :=
  (List.range q).map fun j => BitVec.ofNat 8 (v / 2 ^ (total - (j + 1) * outbits) % 2 ^ outbits)

@[simp] theorem length_groups (outbits v total q : Nat) : (groups outbits v total q).length = q := by simp [groups]

/-- The room for `q` more values is there, or none is needed (R185). -/
abbrev fits (base room n q : Nat) : Prop := q = 0 ∨ base + n + q ≤ room

theorem Regroup.append_eq (base room v : Nat) (a : Regroup) :
    Regroup.append base room v a =
      if fits base room a.out.length 1 then .ok { a with out := a.out ++ [BitVec.ofNat 8 v] } else .error .capacity := by
  have h : fits base room a.out.length 1 ↔ ¬base + a.out.length ≥ room := by simp only [fits]; omega
  simp only [Regroup.append, h, ite_not]

/-- The inner loop emits every whole group of the bits it holds, or meets the capacity. -/
theorem Regroup.emit_eq {outbits : Nat} (ho : 1 ≤ outbits) (base room : Nat) (fuel : Nat) (a : Regroup)
    (hf : a.bits ≤ fuel) :
    Regroup.emit outbits base room fuel a =
      if fits base room a.out.length (a.bits / outbits) then
        .ok { val := a.val, bits := a.bits % outbits,
              out := a.out ++ groups outbits a.val a.bits (a.bits / outbits) }
      else .error .capacity := by
  induction fuel generalizing a with
  | zero =>
    have h : a.bits = 0 := by omega
    obtain ⟨val, bits, out⟩ := a
    simp only at h
    subst h
    simp [Regroup.emit, fits, groups]
  | succ fuel ih =>
    obtain ⟨val, bits, out⟩ := a
    simp only at hf
    simp only [Regroup.emit, Regroup.append_eq]
    by_cases hb : bits < outbits
    · rw [if_pos hb, Nat.div_eq_of_lt hb, Nat.mod_eq_of_lt hb]
      simp [fits, groups]
    · have hq : bits / outbits = (bits - outbits) / outbits + 1 := by
        rw [← Nat.sub_add_cancel (Nat.le_of_not_lt hb), Nat.add_div_right _ (by omega)]; simp
      have hr : bits % outbits = (bits - outbits) % outbits := Nat.mod_eq_sub_mod (Nat.le_of_not_lt hb)
      rw [if_neg hb]
      by_cases h₁ : fits base room out.length 1
      · rw [if_pos h₁]
        simp only
        rw [ih _ (by simp only; omega)]
        simp only [List.length_append, List.length_cons, List.length_nil]
        have hfit : fits base room (out.length + (0 + 1)) ((bits - outbits) / outbits) ↔
            fits base room out.length (bits / outbits) := by
          rw [hq]; simp only [fits] at h₁ ⊢; generalize (bits - outbits) / outbits = q; omega
        simp only [hfit, hr]
        have hg : groups outbits val bits (bits / outbits) =
            BitVec.ofNat 8 (val >>> (bits - outbits) % 2 ^ outbits) ::
              groups outbits val (bits - outbits) ((bits - outbits) / outbits) := by
          rw [hq]
          unfold groups
          rw [List.range_succ_eq_map, List.map_cons, List.map_map]
          congr 1
          · rw [Nat.shiftRight_eq_div_pow, Nat.zero_add, Nat.one_mul]
          · refine List.map_congr_left fun j _ => ?_
            simp only [Function.comp, Nat.succ_eq_add_one]
            rw [Nat.add_mul (j + 1) 1, Nat.one_mul, Nat.add_comm ((j + 1) * outbits), Nat.sub_add_eq]
        rw [hg, List.append_assoc]
        rfl
      · have : ¬fits base room out.length (bits / outbits) := by
          rw [hq]; simp only [fits] at h₁ ⊢; generalize (bits - outbits) / outbits = q; omega
        rw [if_neg h₁, if_neg this]

theorem streamOf_append (inbits : Nat) (xs : List Byte) (x : Byte) :
    streamOf inbits (xs ++ [x]) = streamOf inbits xs * 2 ^ inbits + x.toNat := by
  simp [streamOf]

theorem Nat.div_pow_mod_pow {m k : Nat} (v s : Nat) (h : s + m ≤ k) :
    v % 2 ^ k / 2 ^ s % 2 ^ m = v / 2 ^ s % 2 ^ m := by
  apply Nat.eq_of_testBit_eq
  intro i
  simp only [Nat.testBit_mod_two_pow, Nat.testBit_div_two_pow]
  by_cases hi : i < m
  · have : i + s < k := by omega
    simp [this]
  · simp [hi]

theorem stream_mod {inbits : Nat} (v r : Nat) {x : Nat} (hx : x < 2 ^ inbits) :
    v % 2 ^ r * 2 ^ inbits + x = (v * 2 ^ inbits + x) % 2 ^ (r + inbits) := by
  rw [Nat.add_comm r, Nat.pow_add, Nat.mod_mul, Nat.mul_comm v, Nat.mul_add_mod, Nat.mod_eq_of_lt hx,
    Nat.mul_add_div (Nat.two_pow_pos _), Nat.div_eq_of_lt hx]
  simp [Nat.mul_comm, Nat.add_comm]

theorem div_add_extend {outbits : Nat} (ho : 1 ≤ outbits) (total inbits : Nat) :
    (total + inbits) / outbits = total / outbits + (total % outbits + inbits) / outbits := by
  conv_lhs => rw [← Nat.div_add_mod total outbits, Nat.add_assoc, Nat.mul_add_div (by omega)]

/-- The groups of a longer stream: those of the shorter one, then those of the bits it leaves and the new value. -/
theorem groups_extend {inbits outbits : Nat} (ho : 1 ≤ outbits) (v total x : Nat) (hx : x < 2 ^ inbits) :
    groups outbits v total (total / outbits) ++
        groups outbits (v % 2 ^ (total % outbits) * 2 ^ inbits + x) (total % outbits + inbits)
          ((total % outbits + inbits) / outbits) =
      groups outbits (v * 2 ^ inbits + x) (total + inbits) ((total + inbits) / outbits) := by
  have hT := Nat.div_add_mod total outbits
  rw [div_add_extend ho total inbits]
  unfold groups
  rw [List.range_add, List.map_append, List.map_map]
  congr 1
  · refine List.map_congr_left fun j hj => ?_
    have hj := List.mem_range.mp hj
    have h₁ : (j + 1) * outbits ≤ total := by
      have := Nat.mul_le_mul_right outbits (show j + 1 ≤ total / outbits by omega)
      have := Nat.div_mul_le_self total outbits
      omega
    have h₂ : total + inbits - (j + 1) * outbits = inbits + (total - (j + 1) * outbits) := by omega
    rw [h₂, Nat.pow_add, ← Nat.div_div_eq_div_mul, Nat.mul_comm v, Nat.mul_add_div (Nat.two_pow_pos _),
      Nat.div_eq_of_lt hx]
    rfl
  · refine List.map_congr_left fun j hj => ?_
    have hj := List.mem_range.mp hj
    have h₁ : (j + 1) * outbits ≤ total % outbits + inbits := by
      have := Nat.mul_le_mul_right outbits (show j + 1 ≤ (total % outbits + inbits) / outbits by omega)
      have := Nat.div_mul_le_self (total % outbits + inbits) outbits
      omega
    have h₂ : total + inbits - (total / outbits + j + 1) * outbits =
        total % outbits + inbits - (j + 1) * outbits := by
      have : (total / outbits + j + 1) * outbits = outbits * (total / outbits) + (j + 1) * outbits := by ring
      omega
    simp only [Function.comp]
    rw [stream_mod _ _ hx, h₂, Nat.div_pow_mod_pow _ _ (by
      have : (j + 1) * outbits = j * outbits + outbits := by ring
      omega)]

/-- What the loop over the inputs holds after a stream `v` of `total` bits. -/
def Regroup.after (outbits v total : Nat) : Regroup where
  val := v % 2 ^ (total % outbits)
  bits := total % outbits
  out := groups outbits v total (total / outbits)

/-- One value more: the loop's body takes what it held to what it holds. -/
theorem Regroup.after_extend {inbits outbits : Nat} (ho : 1 ≤ outbits) (v total : Nat) {x : Nat} (hx : x < 2 ^ inbits) :
    Regroup.mk ((v % 2 ^ (total % outbits) * 2 ^ inbits + x) % 2 ^ ((total % outbits + inbits) % outbits))
        ((total % outbits + inbits) % outbits)
        (groups outbits v total (total / outbits) ++
          groups outbits (v % 2 ^ (total % outbits) * 2 ^ inbits + x) (total % outbits + inbits)
            ((total % outbits + inbits) / outbits)) =
      Regroup.after outbits (v * 2 ^ inbits + x) (total + inbits) := by
  have hr : (total % outbits + inbits) % outbits = (total + inbits) % outbits := by simp [Nat.add_mod]
  unfold Regroup.after
  rw [groups_extend ho _ _ _ hx, stream_mod _ _ hx, Nat.mod_mod_of_dvd, hr]
  exact Nat.pow_dvd_pow 2 (Nat.mod_le _ _)

/-- The loop over the input values, from what it holds after the inputs `ys` without having met the capacity. -/
theorem Regroup.absorb_eq {inbits outbits : Nat} (ho : 1 ≤ outbits) (base room : Nat) (xs ys : List Byte) (b : Regroup)
    (hy : fits base room 0 (ys.length * inbits / outbits)) :
    Regroup.absorb inbits outbits base room xs
        (Regroup.after outbits (streamOf inbits ys) (ys.length * inbits)) = .ok b ↔
      (∀ x ∈ xs, x.toNat < 2 ^ inbits) ∧ fits base room 0 ((ys ++ xs).length * inbits / outbits) ∧
      b = Regroup.after outbits (streamOf inbits (ys ++ xs)) ((ys ++ xs).length * inbits) := by
  induction xs generalizing ys with
  | nil => simp [Regroup.absorb, eq_comm, hy]
  | cons x xs ih =>
    by_cases hx : x.toNat < 2 ^ inbits
    · have hx' : ¬x.toNat >>> inbits ≠ 0 := by simp [Nat.shiftRight_eq_div_pow, Nat.div_eq_of_lt hx]
      have hlen : (ys ++ [x]).length * inbits = ys.length * inbits + inbits := by simp [Nat.add_mul]
      have hval : ∀ v, v <<< inbits ||| x.toNat = v * 2 ^ inbits + x.toNat := fun v => by
        rw [← Nat.shiftLeft_add_eq_or_of_lt hx, Nat.shiftLeft_eq]
      conv =>
        lhs
        simp only [Regroup.absorb, if_neg hx', Regroup.after, hval]
        rw [Regroup.emit_eq ho (hf := Nat.le_refl (Regroup.mk _ _ _).bits)]
        simp only [length_groups]
      have hfit : fits base room (ys.length * inbits / outbits) ((ys.length * inbits % outbits + inbits) / outbits) ↔
          fits base room 0 ((ys ++ [x]).length * inbits / outbits) := by
        rw [hlen, div_add_extend ho (ys.length * inbits) inbits]
        simp only [fits] at hy ⊢
        generalize ys.length * inbits / outbits = q at hy ⊢
        generalize (ys.length * inbits % outbits + inbits) / outbits = p
        omega
      by_cases hf : fits base room 0 ((ys ++ [x]).length * inbits / outbits)
      · rw [if_pos (hfit.mpr hf)]
        simp only
        rw [Regroup.after_extend ho _ _ hx, ← hlen, ← streamOf_append, ih (ys ++ [x]) hf]
        simp only [List.append_assoc, List.singleton_append, List.mem_cons, forall_eq_or_imp, hx, true_and]
      · rw [if_neg fun h => hf (hfit.mp h)]
        have hmono : (ys ++ [x]).length * inbits / outbits ≤ (ys ++ x :: xs).length * inbits / outbits :=
          Nat.div_le_div_right (Nat.mul_le_mul_right _ (by simp))
        have : ¬fits base room 0 ((ys ++ x :: xs).length * inbits / outbits) := by
          simp only [fits] at hf ⊢
          generalize (ys ++ [x]).length * inbits / outbits = q at hf hmono
          generalize (ys ++ x :: xs).length * inbits / outbits = p at hmono ⊢
          omega
        simp only [this, false_and, and_false, reduceCtorEq]
    · have hx' : x.toNat >>> inbits ≠ 0 := by
        rw [Nat.shiftRight_eq_div_pow]
        have := Nat.div_pos (Nat.le_of_not_lt hx) (Nat.two_pow_pos inbits)
        omega
      simp [Regroup.absorb, hx', hx]

/-- How many values a conversion of `n` inputs appends (R190). -/
def convertCount (pad : Bool) (inbits outbits n : Nat) : Nat :=
  n * inbits / outbits + if pad = true ∧ n * inbits % outbits ≠ 0 then 1 else 0

/-- The values a conversion appends: the whole groups, and the padded tail with its bits at the top (R180, R186). -/
def convertValues (pad : Bool) (inbits outbits : Nat) (xs : List Byte) : List Byte :=
  let total := xs.length * inbits
  groups outbits (streamOf inbits xs) total (total / outbits) ++
    if pad = true ∧ total % outbits ≠ 0 then
      [BitVec.ofNat 8 (streamOf inbits xs % 2 ^ (total % outbits) * 2 ^ (outbits - total % outbits))]
    else []

theorem length_convertValues (pad : Bool) (inbits outbits : Nat) (xs : List Byte) :
    (convertValues pad inbits outbits xs).length = convertCount pad inbits outbits xs.length := by
  unfold convertValues convertCount
  simp only [List.length_append, length_groups]
  split <;> rfl

/-- The whole of the converter (R183): it succeeds exactly when no input value is out of range, the values fit and, in the
non-padding mode, fewer than `inbits` bits are left over, all zero; and then it appends `convertValues`. -/
theorem regroup_eq_ok {inbits outbits : Nat} (ho : 1 ≤ outbits) (pad : Bool) (base room : Nat) (xs out : List Byte) :
    regroup pad inbits outbits base room xs = .ok out ↔
      (∀ x ∈ xs, x.toNat < 2 ^ inbits) ∧ fits base room 0 (convertCount pad inbits outbits xs.length) ∧
      (pad = true ∨ (xs.length * inbits % outbits < inbits ∧
        streamOf inbits xs % 2 ^ (xs.length * inbits % outbits) = 0)) ∧
      out = convertValues pad inbits outbits xs := by
  have hstart : ({ val := 0, bits := 0, out := [] } : Regroup) =
      Regroup.after outbits (streamOf inbits []) (([] : List Byte).length * inbits) := by
    simp [Regroup.after, streamOf, groups]
  have habs := fun b => Regroup.absorb_eq (inbits := inbits) ho base room xs [] b (.inl (by simp))
  simp only [List.nil_append] at habs
  unfold regroup
  rw [hstart]
  set v := streamOf inbits xs with hv
  set total := xs.length * inbits with ht
  have hr : total % outbits < outbits := Nat.mod_lt _ ho
  have hpos : 0 < 2 ^ (outbits - total % outbits) := Nat.two_pow_pos _
  have htop : v % 2 ^ (total % outbits) * 2 ^ (outbits - total % outbits) < 2 ^ outbits := by
    calc v % 2 ^ (total % outbits) * 2 ^ (outbits - total % outbits)
        < 2 ^ (total % outbits) * 2 ^ (outbits - total % outbits) :=
          Nat.mul_lt_mul_of_pos_right (Nat.mod_lt _ (Nat.two_pow_pos _)) hpos
      _ = 2 ^ outbits := by rw [← Nat.pow_add]; congr 1; omega
  cases h : Regroup.absorb inbits outbits base room xs
      (Regroup.after outbits (streamOf inbits []) (([] : List Byte).length * inbits)) with
  | error c =>
    have hno : ¬((∀ x ∈ xs, x.toNat < 2 ^ inbits) ∧ fits base room 0 (total / outbits)) := fun hc => by
      have := (habs _).mpr ⟨hc.1, hc.2, rfl⟩
      rw [h] at this
      cases this
    simp only [reduceCtorEq, false_iff]
    rintro ⟨h₁, h₂, -⟩
    refine hno ⟨h₁, ?_⟩
    simp only [fits, convertCount, ← ht] at h₂ ⊢
    generalize total / outbits = q at h₂ ⊢
    omega
  | ok a =>
    obtain ⟨h₁, h₂, rfl⟩ := (habs a).mp h
    simp only [Regroup.tail, Regroup.append_eq, Regroup.after, length_groups, Nat.shiftLeft_eq,
      Nat.mod_eq_of_lt htop]
    have hz : v % 2 ^ (total % outbits) * 2 ^ (outbits - total % outbits) = 0 ↔ v % 2 ^ (total % outbits) = 0 := by
      simp
    cases pad with
    | false =>
      have e : convertValues false inbits outbits xs = groups outbits v total (total / outbits) := by
        simp [convertValues, ← ht, ← hv]
      simp only [convertCount, Bool.false_eq_true, false_and, if_false, Nat.add_zero, false_or, ← ht, e]
      by_cases hb : total % outbits ≥ inbits
      · have : ¬total % outbits < inbits := by omega
        simp [hb, this]
      · have : total % outbits < inbits := by omega
        by_cases hc : v % 2 ^ (total % outbits) = 0
        · rw [if_neg hb, if_neg (not_not_intro (hz.mpr hc))]
          exact ⟨fun h => ⟨h₁, h₂, ⟨this, hc⟩, (Except.ok.inj h).symm⟩, fun h => congrArg Except.ok h.2.2.2.symm⟩
        · simp [hb, hz, hc]
    | true =>
      simp only [convertCount, convertValues, true_and, true_or, if_true, ← ht, ← hv]
      by_cases hb : total % outbits = 0
      · have h₃ : ¬(total % outbits > 0) := by omega
        have h₄ : ¬(total % outbits ≠ 0) := by omega
        rw [if_neg h₃, if_neg h₄, if_neg h₄, List.append_nil]
        exact ⟨fun h => ⟨h₁, h₂, (Except.ok.inj h).symm⟩, fun h => congrArg Except.ok h.2.2.symm⟩
      · have h₃ : fits base room (total / outbits) 1 ↔ fits base room 0 (total / outbits + 1) := by
          simp only [fits]
          generalize total / outbits = q
          omega
        have h₄ : total % outbits > 0 := by omega
        rw [if_pos h₄, if_pos hb, if_pos hb]
        by_cases hf : fits base room 0 (total / outbits + 1)
        · rw [if_pos (h₃.mpr hf)]
          exact ⟨fun h => ⟨h₁, hf, (Except.ok.inj h).symm⟩, fun h => congrArg Except.ok h.2.2.symm⟩
        · rw [if_neg fun h => hf (h₃.mp h)]
          simp [hf]

end Sys2Proof.Machine
end

