-- ==== Sys2Proof/Laws/Commands.lean ====
section
/-! SUPPORT. The meanings of the commands and the step, each as one equation or one list of what it can do, to be cited
instead of unfolding them. -/

namespace Sys2Proof.Machine

/-! The meanings as equations -/

theorem exec_chkInit (s : State) : exec .chkInit s = .next (s.setChk ident).succeed := rfl

theorem exec_chkStep (s : State) : exec .chkStep s = .next (s.setChk (chkStep s.chk)).succeed := rfl

theorem exec_chkFeedlo (c : Byte) (s : State) :
    exec (.chkFeedlo c) s = .next (s.setChk (chkStep s.chk ^^^ low5 c)).succeed := rfl

theorem exec_chkFeedhi (c : Byte) (s : State) :
    exec (.chkFeedhi c) s = .next (s.setChk (chkStep s.chk ^^^ high3 c)).succeed := rfl

theorem exec_encode (s : State) : exec .encode s = .next (s.complete encodeOutputs s.encodeAttempt) := rfl

theorem exec_decode (s : State) : exec .decode s = .next (s.complete decodeOutputs s.decodeAttempt) := rfl

theorem exec_convert (dir : Dir) (pad : Bool) (inb outb : BitVec 4) (s : State)
    (h : (Instr.convert dir pad inb outb).wellFormed = true) :
    exec (.convert dir pad inb outb) s =
      .next (s.complete (convertOutputs dir) (s.convertAttempt dir pad inb.toNat outb.toNat s.convertCap)) := by
  simp only [exec, execConvert]
  exact if_pos h

theorem exec_addrEnc (s : State) : exec .addrEnc s = .next (s.complete addrEncOutputs s.addrEncAttempt) := rfl

theorem exec_addrDec (s : State) : exec .addrDec s = .next (s.complete addrDecOutputs s.addrDecAttempt) := rfl

/-- A legal width is at least 1 and at most 8 (R92). -/
theorem legalWidth_iff (n : BitVec 4) : legalWidth n = true ↔ 1 ≤ n.toNat ∧ n.toNat ≤ 8 := by
  simp [legalWidth]

theorem wellFormed_convert {dir : Dir} {pad : Bool} {inb outb : BitVec 4}
    (h : (Instr.convert dir pad inb outb).wellFormed = true) :
    (1 ≤ inb.toNat ∧ inb.toNat ≤ 8) ∧ 1 ≤ outb.toNat ∧ outb.toNat ≤ 8 := by
  simpa [Instr.wellFormed, legalWidth_iff] using h

/-! The step -/

/-- A transaction that ends in a next state makes the step that state, with the reply and the index (R28). -/
theorem step_of_next {s u : State} {x : Transaction} (h : s.program[s.pc]? = some x) (hp : s.perform x = .next u) :
    step s = .next (u.finish (s.replyTo x)) := by
  simp [step, State.advance, State.nextTransaction, h, hp]

/-- With no transaction left the step changes nothing (R261). -/
theorem step_of_ended {s : State} (h : s.program[s.pc]? = none) : step s = .next s := by
  simp [step, State.advance, State.nextTransaction, h]

/-- Every meaning answers a next state. -/
theorem exec_next (i : Instr) (s : State) : ∃ t, exec i s = .next t := by
  cases i with
  | convert dir pad inb outb =>
    simp only [exec, execConvert]
    split
    · exact ⟨_, rfl⟩
    · exact ⟨_, rfl⟩
  | _ => exact ⟨_, rfl⟩

/-- Every transaction answers a next state. -/
theorem State.perform_next (x : Transaction) (s : State) : ∃ t, s.perform x = .next t := by
  cases x with
  | cmd w =>
    simp only [State.perform, State.runCmd]
    split
    · exact exec_next _ s
    · exact ⟨_, rfl⟩
  | _ => exact ⟨_, rfl⟩

/-! What a successful encoder and decoder write -/

/-- After `putString` the bytes of STR up to the terminator are the string's, every other byte is as before (R148). -/
theorem State.readByte_putString (p d : List Byte) (s : State) (h : p.length + 7 + d.length ≤ 127) (a : Nat) :
    (s.putString p d).readByte a =
      if a < p.length + 8 + d.length then (encodedString p d ++ [terminator]).getD a 0#8 else s.readByte a := by
  simp only [State.putString, State.readByte_setChk, State.readByte_setReg8]
  have hl : (encodedString p d ++ [terminator]).length = p.length + 8 + d.length := by simp; omega
  rw [State.readByte_writeSpan _ _ _ _ _ (by omega), hl]
  simp [Region.base]

theorem State.putString_fields (p d : List Byte) (s : State) (h : p.length + 7 + d.length ≤ 127) :
    (s.putString p d).chk = checksum p d ∧ (s.putString p d).slen.toNat = p.length + 7 + d.length ∧
      (∀ r, r ≠ .slen → (s.putString p d).getReg8 r = s.getReg8 r) ∧ (s.putString p d).hflt = s.hflt ∧
      (s.putString p d).program = s.program ∧ (s.putString p d).pc = s.pc ∧ (s.putString p d).reply = s.reply ∧
      (s.putString p d).fill = s.fill ∧ (s.putString p d).draw = s.draw := by
  refine ⟨rfl, ?_, fun r hr => by simp [State.putString, hr], ?_, ?_, ?_, ?_, ?_, ?_⟩ <;>
    simp [State.putString, State.setReg8]
  omega

/-- After `putParsed` the prefix and its terminator stand in HRP, the data in SYM, every other byte is as before (R157). -/
theorem State.readByte_putParsed (p syms : List Byte) (s : State) (hp : p.length ≤ 127) (hs : syms.length ≤ 128)
    (a : Nat) :
    (s.putParsed p syms).readByte a =
      if 0x100 ≤ a ∧ a < 0x100 + (syms.length - 6) then syms.getD (a - 0x100) 0#8
      else if 0x080 ≤ a ∧ a < 0x080 + (p.length + 1) then (p ++ [terminator]).getD (a - 0x080) 0#8
      else s.readByte a := by
  simp only [State.putParsed, State.readByte_setReg8, ckLen]
  have hl : (syms.take (syms.length - 6)).length = syms.length - 6 := by simp
  rw [State.readByte_writeSpan _ _ _ _ _ (by omega), State.readByte_writeSpan _ _ _ _ _ (by simp; omega), hl]
  simp only [Region.base, Nat.add_zero, List.length_append, List.length_singleton, State.readByte_setChk]
  split
  · rename_i h
    simp only [List.getD_eq_getElem?_getD]
    rw [List.getElem?_take_of_lt (by omega)]
  · rfl

theorem State.putParsed_fields (p syms : List Byte) (s : State) (hp : p.length ≤ 127) (hs : syms.length ≤ 128) :
    (s.putParsed p syms).chk = 1#30 ∧ (s.putParsed p syms).hlen.toNat = p.length ∧
      (s.putParsed p syms).dlen.toNat = syms.length - 6 ∧
      (∀ r, r ≠ .hlen → r ≠ .dlen → (s.putParsed p syms).getReg8 r = s.getReg8 r) ∧
      (s.putParsed p syms).hflt = s.hflt ∧ (s.putParsed p syms).program = s.program ∧
      (s.putParsed p syms).pc = s.pc ∧ (s.putParsed p syms).reply = s.reply ∧
      (s.putParsed p syms).fill = s.fill ∧ (s.putParsed p syms).draw = s.draw := by
  refine ⟨?_, ?_, ?_, fun r h₁ h₂ => by simp [State.putParsed, h₁, h₂], ?_, ?_, ?_, ?_, ?_, ?_⟩ <;>
    simp [State.putParsed, State.setReg8, ckLen, ident]
  all_goals omega

/-! The converter -/

/-- `CONVERT` succeeds exactly when it meets none of its failure conditions, and then appends the regrouped values and
counts them (R183). -/
theorem State.convertAttempt_eq_ok (dir : Dir) (pad : Bool) {inbits outbits : Nat} (ho : 1 ≤ outbits) (room : Nat)
    (s t : State) :
    s.convertAttempt dir pad inbits outbits room = .ok t ↔
      (s.getReg8 (Dir.inLen dir)).toNat ≤ 128 ∧
      (∀ x ∈ s.span (Dir.source dir) (s.getReg8 (Dir.inLen dir)).toNat, x.toNat < 2 ^ inbits) ∧
      fits (s.getReg8 (Dir.outLen dir)).toNat room 0
        (convertCount pad inbits outbits (s.getReg8 (Dir.inLen dir)).toNat) ∧
      (pad = true ∨ ((s.getReg8 (Dir.inLen dir)).toNat * inbits % outbits < inbits ∧
        streamOf inbits (s.span (Dir.source dir) (s.getReg8 (Dir.inLen dir)).toNat) %
          2 ^ ((s.getReg8 (Dir.inLen dir)).toNat * inbits % outbits) = 0)) ∧
      t = (s.writeSpan (Dir.target dir) (s.getReg8 (Dir.outLen dir)).toNat
          (convertValues pad inbits outbits (s.span (Dir.source dir) (s.getReg8 (Dir.inLen dir)).toNat))).setReg8
        (Dir.outLen dir) (BitVec.ofNat 8 ((s.getReg8 (Dir.outLen dir)).toNat +
          convertCount pad inbits outbits (s.getReg8 (Dir.inLen dir)).toNat)) := by
  simp only [State.convertAttempt]
  by_cases h : (s.getReg8 (Dir.inLen dir)).toNat > regionSize
  · rw [if_pos h]
    unfold regionSize at h
    simp only [reduceCtorEq, false_iff]
    omega
  · rw [if_neg h]
    have h' : (s.getReg8 (Dir.inLen dir)).toNat ≤ 128 := by unfold regionSize at h; omega
    have key := regroup_eq_ok (inbits := inbits) ho pad (s.getReg8 (Dir.outLen dir)).toNat room
      (s.span (Dir.source dir) (s.getReg8 (Dir.inLen dir)).toNat)
    rw [State.length_span] at key
    cases hr : regroup pad inbits outbits (s.getReg8 (Dir.outLen dir)).toNat room
        (s.span (Dir.source dir) (s.getReg8 (Dir.inLen dir)).toNat) with
    | error c =>
      simp only [reduceCtorEq, false_iff]
      rintro ⟨-, h₁, h₂, h₃, -⟩
      have := (key _).mpr ⟨h₁, h₂, h₃, rfl⟩
      rw [hr] at this
      cases this
    | ok out =>
      obtain ⟨h₁, h₂, h₃, rfl⟩ := (key out).mp hr
      simp only [length_convertValues, State.length_span]
      exact ⟨fun h => ⟨h', h₁, h₂, h₃, (Except.ok.inj h).symm⟩, fun h => congrArg Except.ok h.2.2.2.2.symm⟩

/-! The address wrapper -/

/-- `ADDR.ENC` succeeds exactly when both of its stages do (R201). -/
theorem State.addrEncAttempt_eq_ok (s t : State) :
    s.addrEncAttempt = .ok t ↔
      ∃ u, (s.setReg8 .dlen 0).convertAttempt .b2s true 8 5 64 = .ok u ∧ u.encodeAttempt = .ok t := by
  simp only [State.addrEncAttempt, show stageCap = 64 from rfl]
  cases (s.setReg8 .dlen 0).convertAttempt .b2s true 8 5 64 <;> simp

/-- The prefix test (R206): the lengths agree and so do the bytes. -/
theorem State.prefixMatches_iff (t : State) :
    t.prefixMatches = true ↔ t.hlen = t.elen ∧ t.span .hrp t.hlen.toNat = t.span .exp t.hlen.toNat := by
  unfold State.prefixMatches
  by_cases h : t.hlen = t.elen <;> simp [h]

/-- `ADDR.DEC` succeeds exactly when its decoding stage does, the payload and the prefix pass, the conversion succeeds and
the first byte is 0 (R204 to R207). -/
theorem State.addrDecAttempt_eq_ok (s t : State) :
    s.addrDecAttempt = .ok t ↔
      ∃ u, s.decodeAttempt = .ok u ∧ 1 ≤ u.dlen.toNat ∧ u.dlen.toNat ≤ 64 ∧ u.prefixMatches = true ∧
        (u.setReg8 .blen 0).convertAttempt .s2b false 5 8 64 = .ok t ∧ t.readByte 0x180 = 0#8 := by
  simp only [State.addrDecAttempt]
  cases h : s.decodeAttempt with
  | error c => simp
  | ok u =>
    simp only [Except.ok.injEq, exists_eq_left', State.acceptPayload]
    by_cases h₁ : u.dlen.toNat = 0 ∨ u.dlen.toNat > stageCap
    · rw [if_pos h₁]
      unfold stageCap at h₁
      simp only [reduceCtorEq, false_iff]
      omega
    · rw [if_neg h₁]
      have h₁' : 1 ≤ u.dlen.toNat ∧ u.dlen.toNat ≤ 64 := by unfold stageCap at h₁; omega
      cases hm : u.prefixMatches with
      | false => simp
      | true =>
        simp only [show stageCap = 64 from rfl, show Region.byte.base = 0x180 from rfl]
        cases hc : (u.setReg8 .blen 0).convertAttempt .s2b false 5 8 64 with
        | error c => simp
        | ok v =>
          by_cases hz : v.readByte 0x180 = 0#8
          · simp [h₁', hz]
            rintro rfl
            exact hz
          · simp [hz]
            rintro - - rfl
            exact hz

end Sys2Proof.Machine
end

