-- ==== Sys2Proof/Laws/PerInstr.lean ====
section
/-! SUPPORT. The family TableRow: the word of a command has, under its row's mask, its row's match (R96). -/

namespace Sys2Proof.Laws.TableRow

/-- The mask of a command's row in the opcode map (R96). -/
def mask : Instr → CmdWord
  | .chkInit => 0xFFFF#16
  | .chkStep => 0xFFFF#16
  | .chkFeedlo _ => 0xFF00#16
  | .chkFeedhi _ => 0xFF00#16
  | .encode => 0xFFFF#16
  | .decode => 0xFFFF#16
  | .convert _ _ _ _ => 0xF300#16
  | .addrEnc => 0xFFFF#16
  | .addrDec => 0xFFFF#16

/-- The match of a command's row in the opcode map (R96). -/
def pattern : Instr → CmdWord
  | .chkInit => 0x1000#16
  | .chkStep => 0x2000#16
  | .chkFeedlo _ => 0x3000#16
  | .chkFeedhi _ => 0x4000#16
  | .encode => 0x5000#16
  | .decode => 0x6000#16
  | .convert _ _ _ _ => 0x7000#16
  | .addrEnc => 0x8000#16
  | .addrDec => 0x9000#16

/-- The word of the command lies in its row. -/
def Statement (i : Instr) : Prop := encode i &&& mask i = pattern i

theorem chkInit : Statement .chkInit := by unfold Statement; decide

theorem chkStep : Statement .chkStep := by unfold Statement; decide

theorem chkFeedlo (imm8 : Byte) : Statement (.chkFeedlo imm8) := by
  unfold Statement
  revert imm8
  decide

theorem chkFeedhi (imm8 : Byte) : Statement (.chkFeedhi imm8) := by
  unfold Statement
  revert imm8
  decide

theorem encode : Statement .encode := by unfold Statement; decide

theorem decode : Statement .decode := by unfold Statement; decide

theorem convert (dir : Dir) (pad : Bool) (inbits outbits : BitVec 4) : Statement (.convert dir pad inbits outbits) := by
  unfold Statement
  revert inbits outbits
  cases dir <;> cases pad <;> decide

theorem addrEnc : Statement .addrEnc := by unfold Statement; decide

theorem addrDec : Statement .addrDec := by unfold Statement; decide

end Sys2Proof.Laws.TableRow
end

