-- ==== Sys2Proof/Machine/Causes.lean ====
section
/-! DEFINITION. The numbers and classes of the failure causes (R223): labels for rules and tests, no part of the state. -/

namespace Sys2Proof.Machine

/-- The class of a cause, the source's error taxonomy (R223). -/
inductive CauseClass where
  | structural
  | alphabet
  | caseClass
  | integrity
  | semantic
  /-- The source does not classify the cause, or does not have it. -/
  | unclassified
deriving DecidableEq, Repr

/-- The spec's number of a cause (R223). -/
def Cause.number : Cause → Nat
  | .lenBound => 1
  | .noSeparator => 2
  | .dataShort => 3
  | .emptyPrefix => 4
  | .prefixRange => 5
  | .symbolRange => 6
  | .notInAlphabet => 7
  | .prefixUpper => 8
  | .mixedCase => 9
  | .checksum => 10
  | .prefixMismatch => 11
  | .discriminant => 12
  | .payloadLen => 13
  | .leftover => 14
  | .capacity => 15
  | .inputRange => 16
  | .inputLen => 17

/-- The class of a cause (R223; for `SymbolRange` and `PrefixUpper` the nearest class, as the table has it). -/
def Cause.classOf : Cause → CauseClass
  | .lenBound => .structural
  | .noSeparator => .structural
  | .dataShort => .structural
  | .emptyPrefix => .structural
  | .prefixRange => .alphabet
  | .symbolRange => .alphabet
  | .notInAlphabet => .alphabet
  | .prefixUpper => .caseClass
  | .mixedCase => .caseClass
  | .checksum => .integrity
  | .prefixMismatch => .semantic
  | .discriminant => .semantic
  | .payloadLen => .semantic
  | .leftover => .semantic
  | .capacity => .unclassified
  | .inputRange => .unclassified
  | .inputLen => .unclassified

end Sys2Proof.Machine
end

