-- ==== Sys2Proof/Tests/Slice0.lean ====
section
/-! SUPPORT. Tests with expected values from the spec (95_test_vectors.md, 30_encoding.md, 42_converter.md), and a named
witness for the hypotheses of every statement that has some. -/

namespace Sys2Proof.Tests

open Sys2Proof Sys2Proof.Machine Sys2Proof.Claims

-- The kernel checks the tests one after the other: side by side they need more threads than the memory limit leaves.
set_option Elab.async false

/-! Helpers -/

/-- The cells of the bytes `bs` in region `r`. -/
def cells (r : Region) (bs : List Nat) : Memory := bs.mapIdx fun i b => (r.base + i, BitVec.ofNat 8 b)

/-- After reset, with a prefix in HRP and symbols in SYM. -/
def encodeInput (hrp sym : List Nat) : State :=
  { State.reset with
    mem := cells .hrp hrp ++ cells .sym sym, hlen := BitVec.ofNat 8 hrp.length, dlen := BitVec.ofNat 8 sym.length }

/-- After reset, with a string in STR and an expected prefix in EXP. -/
def decodeInput (str exp : List Nat) : State :=
  { State.reset with
    mem := cells .str str ++ cells .exp exp, slen := BitVec.ofNat 8 str.length, elen := BitVec.ofNat 8 exp.length }

/-- After reset, with bytes in BYTE and a prefix in HRP and in EXP. -/
def addressInput (hrp bytes : List Nat) : State :=
  { State.reset with
    mem := cells .hrp hrp ++ cells .byte bytes ++ cells .exp hrp, hlen := BitVec.ofNat 8 hrp.length
    elen := BitVec.ofNat 8 hrp.length, blen := BitVec.ofNat 8 bytes.length }

/-- The state right after reset with one transaction to come. -/
def issuing (x : Transaction) : State := State.reset.load [x]

/-- The next state, if there is one. -/
def next? (o : Host.Outcome State Fault Refusal) : Option State :=
  match o with
  | .next s => some s
  | .fault _ => none
  | .refused _ => none

/-- What `f` sees of the state after command `i`. -/
def after {α : Type} (i : Instr) (s : State) (f : State → α) : Option α := (next? (exec i s)).map f

/-- The first `n` bytes of a region as numbers. -/
def bytes (r : Region) (n : Nat) (s : State) : List Nat := (s.span r n).map fun b => b.toNat

/-- `iota`. -/
def iota : List Nat := [0x69, 0x6f, 0x74, 0x61]

/-- `a12uel5l` (V41). -/
def a12uel5l : List Nat := [0x61, 0x31, 0x32, 0x75, 0x65, 0x6c, 0x35, 0x6c]

/-- `A12UEL5L` (V42). -/
def upperA12uel5l : List Nat := [0x41, 0x31, 0x32, 0x55, 0x45, 0x4c, 0x35, 0x4c]

/-- `11qu9ec3s` (V24). -/
def oneOne : List Nat := [0x31, 0x31, 0x71, 0x75, 0x39, 0x65, 0x63, 0x33, 0x73]

/-- `iota1qrlsm6q036` (V85). -/
def iota00ff : List Nat := [0x69, 0x6f, 0x74, 0x61, 0x31, 0x71, 0x72, 0x6c, 0x73, 0x6d, 0x36, 0x71, 0x30, 0x33, 0x36]

/-! Well-formedness: the terms that are no command -/

theorem test_convert_inbits_0_ill_formed : (Instr.convert .b2s true 0#4 5#4).wellFormed = false := by decide
theorem test_convert_inbits_9_ill_formed : (Instr.convert .b2s true 9#4 5#4).wellFormed = false := by decide
theorem test_convert_outbits_0_ill_formed : (Instr.convert .s2b false 5#4 0#4).wellFormed = false := by decide
theorem test_convert_outbits_9_ill_formed : (Instr.convert .s2b false 5#4 9#4).wellFormed = false := by decide
theorem test_convert_8_to_5_well_formed : (Instr.convert .b2s true 8#4 5#4).wellFormed = true := by decide

/-! Memory: terms that are not in canonical form -/

theorem test_memory_out_of_order_ill_formed : Memory.wf [(1, 0#8), (0, 0#8)] = false := by decide
theorem test_memory_repeat_ill_formed : Memory.wf [(1, 0#8), (1, 0#8)] = false := by decide
theorem test_memory_unmapped_ill_formed : Memory.wf [(640, 0#8)] = false := by decide

/-! Decoding: words written out bit by bit from the formats of R91 and the opcodes of R96 -/

theorem test_decode_chkInit : decode 0b0001_000000000000#16 = .ok .chkInit := by decide
theorem test_decode_chkStep : decode 0b0010_000000000000#16 = .ok .chkStep := by decide
theorem test_decode_chkFeedlo : decode 0b0011_0000_10000001#16 = .ok (.chkFeedlo 0x81#8) := by decide
theorem test_decode_chkFeedhi : decode 0b0100_0000_01100001#16 = .ok (.chkFeedhi 0x61#8) := by decide
theorem test_decode_encode : decode 0b0101_000000000000#16 = .ok .encode := by decide
theorem test_decode_decode : decode 0b0110_000000000000#16 = .ok .decode := by decide
theorem test_decode_convert : decode 0b0111_0_1_00_1000_0101#16 = .ok (.convert .b2s true 8#4 5#4) := by decide
theorem test_decode_convert_back : decode 0b0111_1_0_00_0001_0010#16 = .ok (.convert .s2b false 1#4 2#4) := by decide
theorem test_decode_addrEnc : decode 0b1000_000000000000#16 = .ok .addrEnc := by decide
theorem test_decode_addrDec : decode 0b1001_000000000000#16 = .ok .addrDec := by decide

/-- V100, V101, V103, V105, V107, V109, V111, V118 to V122, V125: the illegal words, by the kind R95 gives them. -/
theorem test_decode_illegal :
    decode 0x0000#16 = .error .reservedOpcode ∧ decode 0xffff#16 = .error .reservedOpcode ∧
    decode 0xa000#16 = .error .reservedOpcode ∧ decode 0x1001#16 = .error .mustBeZero ∧
    decode 0x2800#16 = .error .mustBeZero ∧ decode 0x3100#16 = .error .mustBeZero ∧
    decode 0x4161#16 = .error .mustBeZero ∧ decode 0x5001#16 = .error .mustBeZero ∧
    decode 0x7185#16 = .error .mustBeZero ∧ decode 0x7285#16 = .error .mustBeZero ∧
    decode 0x7005#16 = .error .badWidth ∧ decode 0x7050#16 = .error .badWidth ∧
    decode 0x7095#16 = .error .badWidth ∧ decode 0x7059#16 = .error .badWidth := by decide

theorem test_table_word : decodeTableWord 16 0x7858 = some (.convert .s2b false 5#4 8#4) := by decide

/-! The commands, from the vectors of 95_test_vectors.md section 3 -/

/-- V13. -/
theorem test_chkInit : after .chkInit { State.reset with chk := 0x15ccfe9f#30 } (fun t => (t.chk, t.ok)) =
    some (0x1#30, true) := by decide

/-- V12. -/
theorem test_chkStep_bits_0_2_4 : after .chkStep { State.reset with chk := 0x2a1462b3#30 } (fun t => t.chk) =
    some 0x0d537a9b#30 := by decide

/-- V15. -/
theorem test_chkFeedlo : after (.chkFeedlo 0x61#8) { State.reset with chk := 0x460#30 } (fun t => (t.chk, t.ok)) =
    some (0x8c01#30, true) := by decide

/-- V14. -/
theorem test_chkFeedhi : after (.chkFeedhi 0x61#8) State.reset (fun t => (t.chk, t.ok)) = some (0x23#30, true) := by decide

/-- V20: `a12uel5l` and its terminator. -/
theorem test_encode_a : after .encode (encodeInput [0x61] []) (fun t => (t.ok, t.slen, t.chk, bytes .str 9 t)) =
    some (true, 8#8, 0x15ccfe9f#30, a12uel5l ++ [0]) := by decide +kernel

/-- V40: a data value of 32. -/
theorem test_encode_symbol_range : after .encode (encodeInput [0x61] [32]) (fun t => (t.ok, t.dlen)) =
    some (false, 1#8) := by decide +kernel

/-- V46's rule on V24's string: the last `1` separates, the prefix is `1`. -/
theorem test_decode_last_separator :
    after .decode (decodeInput oneOne []) (fun t => (t.ok, t.hlen, t.dlen, bytes .hrp 2 t, bytes .sym 1 t)) =
      some (true, 1#8, 1#8, [0x31, 0], [0]) := by decide +kernel

/-- V48: mixed case, with a checksum that would be valid. -/
theorem test_decode_mixed_case :
    after .decode (decodeInput [0x41, 0x31, 0x32, 0x75, 0x45, 0x4c, 0x35, 0x4c] []) (fun t => (t.ok, t.slen)) =
      some (false, 8#8) := by decide +kernel

/-- V70. -/
theorem test_convert_8_to_5 :
    after (.convert .b2s true 8#4 5#4) (addressInput [] [0xde, 0xad, 0xbe, 0xef])
      (fun t => (t.ok, t.dlen, bytes .sym 7 t)) = some (true, 7#8, [27, 26, 22, 27, 29, 27, 24]) := by decide +kernel

/-- V72: the two bits left over are zero. -/
theorem test_convert_5_to_8 :
    after (.convert .s2b false 5#4 8#4) (encodeInput [] [2, 1, 0, 16, 11, 14, 15, 3, 9, 20])
      (fun t => (t.ok, t.blen, bytes .byte 6 t)) = some (true, 6#8, [0x10, 0x41, 0x05, 0xb9, 0xe3, 0x4d]) := by
  decide +kernel

/-- V85: `iota1qrlsm6q036`. -/
theorem test_addrEnc : after .addrEnc (addressInput iota [0x00, 0xff])
    (fun t => (t.ok, t.dlen, t.slen, bytes .str 15 t)) = some (true, 4#8, 15#8, iota00ff) := by decide +kernel

/-- V88: 41 bytes are too many. -/
theorem test_addrEnc_capacity : after .addrEnc (addressInput iota (List.replicate 41 0)) (fun t => (t.ok, t.blen)) =
    some (false, 41#8) := by decide +kernel

/-- V85 read back (P4's way): the bytes 0x00, 0xff. -/
theorem test_addrDec : after .addrDec (decodeInput iota00ff iota)
    (fun t => (t.ok, t.hlen, t.blen, bytes .byte 2 t, t.chk)) = some (true, 4#8, 2#8, [0x00, 0xff], 0x1#30) := by
  decide +kernel

/-- V83b: an expected prefix is not lower-cased. -/
theorem test_addrDec_no_folding : after .addrDec (decodeInput iota00ff [0x49, 0x4f, 0x54, 0x41])
    (fun t => (t.ok, t.elen)) = some (false, 4#8) := by decide +kernel

/-! The host's transactions -/

/-- V19: a write of `CHK` keeps 30 bits. -/
theorem test_regWrite_chk :
    (next? (step (issuing (.regWrite 0#4 0xffffffff#32)))).map (fun t => t.portValue 0#4) = some 0x3fffffff#32 := by decide

/-- V126: a reserved register reads as 0 and is a host fault. -/
theorem test_regRead_reserved :
    (next? (step (issuing (.regRead 8#4)))).map (fun t => (t.reply, t.hflt, t.pc)) =
      some (.word 0#32, true, 1) := by decide

/-- V127: an unmapped write stores nothing. -/
theorem test_bufWrite_unmapped :
    (next? (step (issuing (.bufWrite 0x280#10 0x55#32)))).map (fun t => (t.mem, t.hflt, t.ok)) =
      some ([], true, false) := by decide

/-- R65: only `v[7:0]` is stored, at the last implemented address. -/
theorem test_bufWrite_low_byte :
    (next? (step (issuing (.bufWrite 0x27f#10 0x1234#32)))).map (fun t => t.readByte 0x27f) = some 0x34#8 := by decide

/-- The host's way of running a table row as the first command after reset. -/
theorem test_withFetchWord : (next? (step (State.reset.withFetchWord 16 0x4061))).map (fun t => (t.chk, t.pc)) =
    some (0x23#30, 1) := by decide

/-! Witnesses of the hypotheses -/

theorem test_witness_DecodingAnEncodedCommandGivesItBack :
    Instr.chkInit.wellFormed = true ∧ Instr.chkStep.wellFormed = true ∧ (Instr.chkFeedlo 0xff#8).wellFormed = true ∧
    (Instr.chkFeedhi 0xff#8).wellFormed = true ∧ Instr.encode.wellFormed = true ∧ Instr.decode.wellFormed = true ∧
    (Instr.convert .b2s true 8#4 1#4).wellFormed = true ∧ (Instr.convert .s2b false 1#4 8#4).wellFormed = true ∧
    Instr.addrEnc.wellFormed = true ∧ Instr.addrDec.wellFormed = true := by decide

theorem test_witness_EveryDecodedWordIsItsCommandsWord :
    decode 0x7c88#16 = .ok (.convert .s2b true 8#4 8#4) ∧ decode 0x7011#16 = .ok (.convert .b2s false 1#4 1#4) := by decide

theorem test_witness_IllegalWordIsAHostFault :
    ([0x0000#16, 0x0fff#16, 0xa000#16, 0xffff#16, 0x1001#16, 0x3100#16, 0x7185#16, 0x7080#16, 0x7008#16, 0x7098#16,
      0x7089#16].all illegalWord = true ∧ ∀ w, nextIs (issuing (.cmd w)) (.cmd w)) ∧
    decode 0x5000#16 = .ok .encode := ⟨⟨by decide, fun _ => rfl⟩, by decide⟩

theorem test_witness_StepRunsTheDecodedCommand :
    nextIs (issuing (.cmd 0x30ff#16)) (.cmd 0x30ff#16) ∧ decode 0x30ff#16 = .ok (.chkFeedlo 0xff#8) := by decide

theorem test_witness_IndexAdvancesByOneAtEveryTransaction :
    nextIs (issuing (.cmd 0xffff#16)) (.cmd 0xffff#16) ∧ nextIs (issuing .reset) .reset ∧
    exec .chkInit State.reset = .next (State.reset.setChk ident).succeed ∧
    State.reset.program[State.reset.pc]? = none := by
  refine ⟨by decide, by decide, rfl, by decide⟩

theorem test_witness_BlockHoldsItsStateWithoutATransaction :
    State.reset.program.length ≤ State.reset.pc ∧
    { State.reset with program := [Transaction.reset], pc := 1 }.program.length ≤ 1 := by decide

theorem test_witness_ResetTransactionRestoresTheBlock :
    nextIs (issuing .reset) .reset ∧
    ∃ t, nextIs { issuing (.cmd 0x1000#16) with hflt := true } (.cmd 0x1000#16) ∧ Transaction.cmd 0x1000#16 ≠ .reset ∧
      step { issuing (.cmd 0x1000#16) with hflt := true } = .next t :=
  ⟨by decide, _, by decide, by decide, rfl⟩

theorem test_witness_RegisterPortReadsAndWrites :
    ∀ n : RegNum, n.toNat < 8 → nextIs (issuing (.regRead n)) (.regRead n) ∧
      nextIs (issuing (.regWrite n 0xffffffff#32)) (.regWrite n 0xffffffff#32) := fun _ _ => ⟨rfl, rfl⟩

theorem test_witness_BufferPortReadsAndWritesOneByte :
    nextIs (issuing (.bufRead 0x27f#10)) (.bufRead 0x27f#10) ∧ nextIs (issuing (.bufRead 0x280#10)) (.bufRead 0x280#10) ∧
    (nextIs (issuing (.bufWrite 0x27f#10 1#32)) (.bufWrite 0x27f#10 1#32) ∧ (0x27f#10).toNat < 0x280) ∧
    (nextIs (issuing (.bufWrite 0x280#10 1#32)) (.bufWrite 0x280#10 1#32) ∧ 0x280 ≤ (0x280#10).toNat) ∧
    Memory.find? (Region.exp.base + 127) State.reset.mem = none := by decide

theorem test_witness_HostFaultSetsTheStickyFlagOnly :
    (∀ x ∈ [Transaction.bufRead 0x280#10, .bufRead 0x3ff#10, .bufWrite 0x280#10 1#32, .regRead 8#4, .regRead 15#4,
      .regWrite 8#4 1#32, .cmd 0x0000#16], nextIs (issuing x) x ∧ x.breaksProtocol = true) ∧
    ∃ t, nextIs { issuing (.regWrite 1#4 0#32) with hflt := true } (.regWrite 1#4 0#32) ∧
      Transaction.regWrite 1#4 0#32 ≠ .reset ∧ step { issuing (.regWrite 1#4 0#32) with hflt := true } = .next t :=
  ⟨by decide, _, by decide, by decide, rfl⟩

theorem test_witness_HfltRecordsExactlyTheProtocolBreaks :
    (∃ t, nextIs (issuing .reset) .reset ∧ step (issuing .reset) = .next t) ∧
    ∃ t, nextIs (issuing (.bufRead 0x280#10)) (.bufRead 0x280#10) ∧ step (issuing (.bufRead 0x280#10)) = .next t :=
  ⟨⟨_, by decide, rfl⟩, _, by decide, rfl⟩

theorem test_witness_OkDescribesTheMostRecentCommand :
    (∃ t, nextIs (issuing (.regRead 1#4)) (.regRead 1#4) ∧ step (issuing (.regRead 1#4)) = .next t ∧
      isCmd (.regRead 1#4) = false ∧ Transaction.regRead 1#4 ≠ .reset) ∧
    (∃ t, nextIs (issuing .reset) .reset ∧ step (issuing .reset) = .next t) ∧
    (∃ t, nextIs (issuing (.cmd 0x1001#16)) (.cmd 0x1001#16) ∧ step (issuing (.cmd 0x1001#16)) = .next t ∧
      illegalWord 0x1001#16 = true) ∧
    ∃ t, nextIs (issuing (.cmd 0x1000#16)) (.cmd 0x1000#16) ∧ step (issuing (.cmd 0x1000#16)) = .next t ∧
      decode 0x1000#16 = .ok .chkInit :=
  ⟨⟨_, by decide, rfl, by decide, by decide⟩, ⟨_, by decide, rfl⟩, ⟨_, by decide, rfl, by decide⟩,
    ⟨_, by decide, rfl, by decide⟩⟩

/-- Between the write and the read: a failing and a succeeding command, a neighbour's write and a host fault. -/
theorem test_witness_ReadReturnsTheLatestWrite :
    (0x27f#10).toNat < 0x280 ∧ ∀ x ∈ [Transaction.cmd 0x5000#16, .cmd 0x7485#16, .bufWrite 0x27e#10 1#32,
      .regWrite 2#4 9#32, .cmd 0xffff#16], mayWrite (0x27f#10).toNat x = false := by decide

theorem test_witness_EveryStepKeepsTheInvariant :
    ∃ t, (issuing (.cmd 0x5000#16)).Inv ∧ step (issuing (.cmd 0x5000#16)) = .next t := ⟨_, by decide, rfl⟩

theorem test_witness_ConstantTablesAreTheSpecs : (127#8).toNat < 128 ∧ 128 ≤ (128#8).toNat := by decide

theorem test_witness_ChkFeedloFoldsTheLowFiveBits :
    (0x00#8 = 0x00#8 ∨ 0x00#8 = 0x20#8 ∨ 0x00#8 = 0xE0#8) ∧ (0xE0#8 = 0x00#8 ∨ 0xE0#8 = 0x20#8 ∨ 0xE0#8 = 0xE0#8) := by
  decide

theorem test_witness_ChkFeedhiFoldsTheTopThreeBits : (31#8).toNat < 32 := by decide

theorem test_witness_StepHasItsBitLevelForm : 4 < 30 ∧ 5 < 30 ∧ 29 < 30 := by decide

theorem test_witness_StepIsLinear : 24 < 25 ∧ 4 < 5 := by decide

theorem test_witness_CommandsOfAPassComputeIt : ∀ v ∈ [0#8, 31#8], v.toNat < 32 := by simp

/-- V20, V24, and V27's string of exactly 90 characters. -/
theorem test_witness_EncodeWritesTheString :
    encodeLegal (encodeInput [0x61] []) ∧ encodeLegal (encodeInput [0x31] [0]) ∧
    encodeLegal (encodeInput [0x61] (List.replicate 82 0)) := by decide +kernel

/-- V41, V42, V24's string and V85's. -/
theorem test_witness_DecodeRecoversPrefixAndData :
    decodeLegal (decodeInput a12uel5l []) 1 ∧ decodeLegal (decodeInput upperA12uel5l []) 1 ∧
    decodeLegal (decodeInput oneOne []) 1 ∧ decodeLegal (decodeInput iota00ff []) 4 := by
  refine ⟨?_, ?_, ?_, ?_⟩ <;> decide +kernel

/-- V24: the string, in a state that holds nothing else. -/
theorem test_witness_DecodeInvertsEncode :
    ∃ t, exec .encode (encodeInput [0x31] [0]) = .next t ∧ t.ok = true ∧ (decodeInput oneOne []).slen = t.slen ∧
      ∀ i < t.slen.toNat, cell (decodeInput oneOne []) .str i = cell t .str i :=
  ⟨_, rfl, by decide +kernel, by decide +kernel, by decide +kernel⟩

/-- V41 and V42. -/
theorem test_witness_UppercasedStringDecodesTheSame :
    let s := decodeInput a12uel5l []
    let s' := decodeInput upperA12uel5l []
    decodeLegal s 1 ∧ (∀ i < s.slen.toNat, ¬upperLetter (cell s .str i)) ∧ s'.slen = s.slen ∧
      ∀ i < s.slen.toNat, cell s' .str i = raised (cell s .str i) := by decide +kernel

/-- V41 and V50 (the last character changed), and the first checksum character changed. -/
theorem test_witness_ChecksumRegionSubstitutionIsCaught :
    let s := decodeInput a12uel5l []
    let s' := decodeInput [0x61, 0x31, 0x32, 0x75, 0x65, 0x6c, 0x35, 0x6d] []
    let s'' := decodeInput [0x61, 0x31, 0x71, 0x75, 0x65, 0x6c, 0x35, 0x6c] []
    decodeLegal s 1 ∧ s'.slen = s.slen ∧ s''.slen = s.slen ∧ s.slen.toNat ≤ 7 + 6 ∧ 7 < s.slen.toNat ∧
      s.slen.toNat ≤ 2 + 6 ∧ (∀ i < s.slen.toNat, i ≠ 7 → cell s' .str i = cell s .str i) ∧
      (∀ i < s.slen.toNat, i ≠ 2 → cell s'' .str i = cell s .str i) ∧
      rev (cell s .str 7) = some 31#8 ∧ rev (cell s' .str 7) = some 27#8 ∧ 31#8 ≠ 27#8 ∧
      rev (cell s .str 2) = some 10#8 ∧ rev (cell s'' .str 2) = some 0#8 ∧ 10#8 ≠ 0#8 := by decide +kernel

/-- V70, V71, V78 (nothing appended at 200), and V79's capacity of 128 with `CCAP` = 255 (the last value at index 127). -/
theorem test_witness_ConvertRegroupsTheStream :
    ((Instr.convert .b2s true 8#4 5#4).wellFormed = true ∧
      convertLegal .b2s true 8 5 (addressInput [] [0xde, 0xad, 0xbe, 0xef])) ∧
    ((Instr.convert .s2b false 5#4 8#4).wellFormed = true ∧
      convertLegal .s2b false 5 8 (encodeInput [] [27, 26, 22, 27, 29, 27, 24])) ∧
    convertLegal .b2s true 8 5 { State.reset with dlen := 200#8 } ∧
    ((Instr.convert .b2s false 8#4 8#4).wellFormed = true ∧
      convertLegal .b2s false 8 8 { addressInput [] [0x7f] with dlen := 127#8, ccap := 255#8 }) := by decide +kernel

/-- The clauses on the tail: V70 (32 bits in groups of 5 leave 2), V71 without padding, and 0 bits left with padding. -/
theorem test_witness_ConvertSucceedsExactlyOnLegalInputs :
    ((Instr.convert .b2s true 8#4 5#4).wellFormed = true ∧
      ∃ t, exec (.convert .b2s true 8#4 5#4) (addressInput [] [0xde, 0xad, 0xbe, 0xef]) = .next t ∧ t.ok = true ∧
        4 * 8 % 5 ≠ 0) ∧
    ((Instr.convert .s2b false 5#4 8#4).wellFormed = true ∧
      ∃ t, exec (.convert .s2b false 5#4 8#4) (encodeInput [] [27, 26, 22, 27, 29, 27, 24]) = .next t ∧ t.ok = true) ∧
    (Instr.convert .b2s true 8#4 1#4).wellFormed = true ∧
      ∃ t, exec (.convert .b2s true 8#4 1#4) (addressInput [] [0xff]) = .next t ∧ t.ok = true ∧ 1 * 8 % 1 = 0 :=
  ⟨⟨by decide, _, rfl, by decide +kernel, by decide⟩, ⟨by decide, _, rfl, by decide +kernel⟩, by decide, _, rfl,
    by decide +kernel, by decide⟩

theorem test_witness_ConvertWithIllegalWidthIsAHostFault :
    (Instr.convert .b2s true 0#4 8#4).wellFormed = false ∧ (Instr.convert .s2b false 9#4 8#4).wellFormed = false ∧
    (Instr.convert .b2s true 1#4 15#4).wellFormed = false ∧
    decode 0x7c18#16 = .ok (.convert .s2b true 1#4 8#4) := by decide

/-- V70 and V71: the symbols, in a state that does not hold the bytes, with capacity for exactly four bytes. -/
theorem test_witness_ConvertBackGivesTheBytes :
    let s := addressInput [] [0xde, 0xad, 0xbe, 0xef]
    let t' := { encodeInput [] [27, 26, 22, 27, 29, 27, 24] with ccap := 4#8 }
    ∃ t, s.dlen = 0#8 ∧ exec (.convert .b2s true 8#4 5#4) s = .next t ∧ t.ok = true ∧ t'.dlen = t.dlen ∧
      (∀ j < t.dlen.toNat, cell t' .sym j = cell t .sym j) ∧ t'.blen = 0#8 ∧ s.blen.toNat ≤ t'.ccap.toNat :=
  ⟨_, by decide, rfl, by decide +kernel, by decide +kernel, by decide +kernel, by decide, by decide⟩

theorem test_witness_UnpaddedFiveToEightNeedsWholeBytes :
    ∃ t, exec (.convert .s2b false 5#4 8#4) (encodeInput [] [27, 26, 22, 27, 29, 27, 24]) = .next t ∧ t.ok = true :=
  ⟨_, rfl, by decide +kernel⟩

theorem test_witness_CapacityRegisterBoundsTheConverterOnly :
    128 ≤ (128#8).toNat ∧ 128 ≤ (255#8).toNat ∧
    (∃ t, exec (.convert .b2s true 8#4 5#4) { State.reset with ccap := 128#8 } = .next t) ∧
    (∃ t, exec .addrEnc State.reset = .next t) ∧ ∃ t, exec .addrDec State.reset = .next t :=
  ⟨by decide, by decide, ⟨_, rfl⟩, ⟨_, rfl⟩, ⟨_, rfl⟩⟩

/-- V86 (no bytes) and V89 (40 bytes, 90 characters). -/
theorem test_witness_AddrEncWritesSymbolsAndString :
    addrEncLegal (addressInput iota []) ∧ addrEncLegal (addressInput (List.replicate 19 0x61) (List.replicate 40 0)) := by
  decide +kernel

theorem test_witness_AddrEncEqualsItsCommandSequence :
    ∃ t u, exec (.convert .b2s true 8#4 5#4) { addressInput iota [0, 0xff] with dlen := 0#8, ccap := 64#8 } = .next t ∧
      t.ok = true ∧ exec .encode t = .next u ∧ u.ok = true := ⟨_, _, rfl, by decide +kernel, rfl, by decide +kernel⟩

/-- V85's string. -/
theorem test_witness_AddrDecRecoversTheBytes : addrDecLegal (decodeInput iota00ff iota) 4 := by decide +kernel

theorem test_witness_AddrDecEqualsItsCommandSequence :
    ∃ t u, exec .decode (decodeInput iota00ff iota) = .next t ∧ t.ok = true ∧ 1 ≤ t.dlen.toNat ∧ t.dlen.toNat ≤ 64 ∧
      t.hlen = t.elen ∧ (∀ i < t.hlen.toNat, cell t .hrp i = cell t .exp i) ∧
      exec (.convert .s2b false 5#4 8#4) { t with blen := 0#8, ccap := 64#8 } = .next u ∧ u.ok = true ∧
      cell u .byte 0 = 0#8 :=
  ⟨_, _, rfl, by decide +kernel, by decide +kernel, by decide +kernel, by decide +kernel, by decide +kernel, rfl,
    by decide +kernel, by decide +kernel⟩

theorem test_witness_AcceptedAddressHasAZeroDiscriminant :
    ∃ t, exec .addrDec (decodeInput iota00ff iota) = .next t ∧ t.ok = true := ⟨_, rfl, by decide +kernel⟩

/-- V85: the string and the expected prefix, in a state that does not hold the bytes. -/
theorem test_witness_AddressRoundTrip :
    let s := addressInput iota [0x00, 0xff]
    let t' := decodeInput iota00ff iota
    ∃ t, exec .addrEnc s = .next t ∧ t.ok = true ∧ 1 ≤ s.blen.toNat ∧ cell s .byte 0 = 0#8 ∧ t'.slen = t.slen ∧
      (∀ i < t.slen.toNat, cell t' .str i = cell t .str i) ∧ t'.elen = s.hlen ∧
      ∀ i < s.hlen.toNat, cell t' .exp i = cell s .hrp i :=
  ⟨_, rfl, by decide +kernel, by decide +kernel, by decide +kernel, by decide +kernel, by decide +kernel, by decide +kernel,
    by decide +kernel⟩

theorem test_witness_EveryCommandCompletes :
    Instr.addrDec.wellFormed = true ∧ (Instr.convert .s2b true 8#4 8#4).wellFormed = true := by decide

/-- A failure of each command that can fail (V35, V65, V76, V123, V124). -/
theorem test_witness_FailureLeavesExactlyTheOutputsUnspecified :
    (∃ t, exec .encode State.reset = .next t ∧ t.ok = false) ∧ (∃ t, exec .decode State.reset = .next t ∧ t.ok = false) ∧
    (∃ t, exec (.convert .b2s true 8#4 5#4) { State.reset with blen := 129#8 } = .next t ∧ t.ok = false) ∧
    (∃ t, exec (.convert .s2b true 8#4 5#4) { State.reset with dlen := 255#8 } = .next t ∧ t.ok = false) ∧
    (∃ t, exec .addrEnc State.reset = .next t ∧ t.ok = false) ∧ ∃ t, exec .addrDec State.reset = .next t ∧ t.ok = false :=
  ⟨⟨_, rfl, by decide +kernel⟩, ⟨_, rfl, by decide +kernel⟩, ⟨_, rfl, by decide +kernel⟩, ⟨_, rfl, by decide +kernel⟩,
    ⟨_, rfl, by decide +kernel⟩, ⟨_, rfl, by decide +kernel⟩⟩

/-- A success of each family. -/
theorem test_witness_SuccessWritesOnlyTheListedBytes :
    (∃ t, exec .chkStep State.reset = .next t ∧ t.ok = true) ∧
    (∃ t, exec .encode (encodeInput [0x61] []) = .next t ∧ t.ok = true) ∧
    (∃ t, exec .decode (decodeInput a12uel5l []) = .next t ∧ t.ok = true) ∧
    (∃ t, exec (.convert .b2s true 8#4 5#4) (addressInput [] [0xff]) = .next t ∧ t.ok = true) ∧
    (∃ t, exec .addrEnc (addressInput iota []) = .next t ∧ t.ok = true) ∧
    ∃ t, exec .addrDec (decodeInput iota00ff iota) = .next t ∧ t.ok = true :=
  ⟨⟨_, rfl, by decide⟩, ⟨_, rfl, by decide +kernel⟩, ⟨_, rfl, by decide +kernel⟩, ⟨_, rfl, by decide +kernel⟩,
    ⟨_, rfl, by decide +kernel⟩, ⟨_, rfl, by decide +kernel⟩⟩

/-- Two states that differ in a byte that `DECODE` does not read, in `HFLT` and in the draws. -/
theorem test_witness_CommandsDependOnTheirInputsOnly :
    let s := decodeInput a12uel5l []
    let s' := { decodeInput a12uel5l [] with hflt := true, draw := 7, mem := Memory.insert 0x200 5#8 s.mem }
    ∃ t t', Instr.decode.wellFormed = true ∧ s'.chk = s.chk ∧ (∀ r, s'.getReg8 r = s.getReg8 r) ∧
      sameInputs .decode s s' ∧ exec .decode s = .next t ∧ exec .decode s' = .next t' ∧ t.ok = true :=
  ⟨_, _, rfl, rfl, fun r => by cases r <;> rfl, by decide +kernel, rfl, rfl, by decide +kernel⟩

/-- For `ADDR.DEC`, two states that differ in EXP: `ELEN` is not the recovered length, so EXP is not read. -/
theorem test_witness_CommandsDependOnTheirInputsOnly_exp :
    let s := decodeInput iota00ff [0x61, 0x62, 0x63]
    let s' := decodeInput iota00ff [0x61, 0x62, 0x64]
    s'.chk = s.chk ∧ (∀ r, s'.getReg8 r = s.getReg8 r) ∧ sameInputs .addrDec s s' := by
  refine ⟨rfl, fun r => by cases r <;> rfl, by decide +kernel, fun sep h he => ?_⟩
  have e : sep = 3 := he.symm
  subst e
  exact absurd h (by decide +kernel)

end Sys2Proof.Tests
end

/-! The decoder and the encoder: when each format accepts a word (R91, R94, R95), what a decoded term is, and the two
statements about illegal words (R95) and pseudo-commands (R99). -/

namespace Sys2Proof.Encoding

open Sys2Proof.Machine Sys2Proof.Claims

/-! The fields of a word as numbers -/

theorem opcodeField_toNat (w : CmdWord) : (opcodeField w).toNat = w.toNat / 4096 := by
  simp only [opcodeField, BitVec.extractLsb'_toNat, Nat.shiftRight_eq_div_pow]
  omega

/-- A field of a word is 0 exactly when its number is. -/
theorem field_eq_zero_iff (w : CmdWord) (lo len : Nat) :
    w.extractLsb' lo len = 0#len ↔ w.toNat / 2 ^ lo % 2 ^ len = 0 := by
  simp [← BitVec.toNat_inj, BitVec.extractLsb'_toNat, Nat.shiftRight_eq_div_pow]

theorem legalWidth_field_iff (w : CmdWord) (lo : Nat) :
    legalWidth (w.extractLsb' lo 4) = true ↔ 1 ≤ w.toNat / 2 ^ lo % 16 ∧ w.toNat / 2 ^ lo % 16 ≤ 8 := by
  simp [legalWidth_iff, BitVec.extractLsb'_toNat, Nat.shiftRight_eq_div_pow]

/-! What each format rejects (R95) -/

theorem decodeZ_error_iff (w : CmdWord) (i : Instr) : (∃ e, decodeZ w i = .error e) ↔ w.toNat % 4096 ≠ 0 := by
  have hz := field_eq_zero_iff w 0 12
  unfold decodeZ
  split <;> simp_all

theorem decodeI_error_iff (w : CmdWord) (mk : Byte → Instr) :
    (∃ e, decodeI w mk = .error e) ↔ w.toNat / 256 % 16 ≠ 0 := by
  have hz := field_eq_zero_iff w 8 4
  unfold decodeI
  split <;> simp_all

theorem decodeC_error_iff (w : CmdWord) :
    (∃ e, decodeC w = .error e) ↔
      w.toNat / 256 % 4 ≠ 0 ∨ w.toNat / 16 % 16 = 0 ∨ 8 < w.toNat / 16 % 16 ∨ w.toNat % 16 = 0 ∨ 8 < w.toNat % 16 := by
  have hz := field_eq_zero_iff w 8 2
  have hin := legalWidth_field_iff w 4
  have hout := legalWidth_field_iff w 0
  simp only [decodeC, Bool.and_eq_true, hz, hin, hout]
  split
  · split
    · simp only [reduceCtorEq, exists_false, false_iff]
      omega
    · simp only [Except.error.injEq, exists_eq', true_iff]
      omega
  · simp only [Except.error.injEq, exists_eq', true_iff]
    omega

/-- The decoder rejects exactly the words of R95: the opcode selects the format, and each format its own fields. -/
theorem decode_error_iff (w : CmdWord) : (∃ e, decode w = .error e) ↔ illegalWord w = true := by
  simp only [decode, illegalWord, opcodeField_toNat]
  split
  case h_3 h => simp only [h, decodeI_error_iff, decide_eq_true_eq]
  case h_4 h => simp only [h, decodeI_error_iff, decide_eq_true_eq]
  case h_7 h => simp only [h, decodeC_error_iff, decide_eq_true_eq]
  case h_10 => simp_all
  all_goals
    next h => simp only [h, decodeZ_error_iff, decide_eq_true_eq]

/-! What a decoded term is -/

theorem decodeZ_ok {w : CmdWord} {i j : Instr} (h : decodeZ w i = .ok j) : j = i := by
  unfold decodeZ at h
  split at h
  · exact (Except.ok.inj h).symm
  · cases h

theorem decodeI_ok {w : CmdWord} {mk : Byte → Instr} {j : Instr} (h : decodeI w mk = .ok j) : ∃ c, j = mk c := by
  unfold decodeI at h
  split at h
  · exact ⟨_, (Except.ok.inj h).symm⟩
  · cases h

theorem decodeC_ok {w : CmdWord} {j : Instr} (h : decodeC w = .ok j) : j.wellFormed = true := by
  unfold decodeC at h
  split at h
  · split at h
    · next hw =>
      cases h
      exact hw
    · cases h
  · cases h

/-- The decoder yields commands only (R94). -/
theorem wellFormed_of_decode {w : CmdWord} {i : Instr} (h : decode w = .ok i) : i.wellFormed = true := by
  unfold decode at h
  split at h
  case h_7 => exact decodeC_ok h
  case h_3 => obtain ⟨c, rfl⟩ := decodeI_ok h; rfl
  case h_4 => obtain ⟨c, rfl⟩ := decodeI_ok h; rfl
  case h_10 => cases h
  all_goals cases decodeZ_ok h; rfl

/-! Issuing a word -/

/-- An illegal word issued is the host fault, whatever the reason it is illegal for (R95). -/
theorem perform_illegalWord {w : CmdWord} (h : illegalWord w = true) (s : State) :
    s.perform (.cmd w) = .next (s.raiseHostFault .illegalCommand) := by
  obtain ⟨e, he⟩ := (decode_error_iff w).mpr h
  simp only [State.perform, State.runCmd, he]

/-- Reset's state with `OK` set, so that a failure is seen in `OK`. -/
def resetOk : State := State.reset.setOk true

/-- `resetOk` with an input of `CONVERT` longer than its region (R182). -/
def overlong (dir : Dir) : State := resetOk.setReg8 (Dir.inLen dir) 129#8

/-- A command that ends in a failure leaves a state with `OK` clear (R222). -/
theorem clears_ok {o : Outputs} {attempt : Except Cause State} {c : Cause} {s : State}
    (h : attempt = .error c) : (s.complete o attempt).ok = false := by
  subst h
  rfl

/-- No command is a no-op: from some state it changes `OK`. The four that drive `CHK` set it after reset, the others
clear it where they fail. -/
theorem exec_changes_ok {i : Instr} (hi : i.wellFormed = true) : ∃ s t, exec i s = .next t ∧ t.ok = !s.ok := by
  cases i with
  | chkInit => exact ⟨State.reset, _, exec_chkInit _, rfl⟩
  | chkStep => exact ⟨State.reset, _, exec_chkStep _, rfl⟩
  | chkFeedlo c => exact ⟨State.reset, _, exec_chkFeedlo c _, rfl⟩
  | chkFeedhi c => exact ⟨State.reset, _, exec_chkFeedhi c _, rfl⟩
  | encode => exact ⟨resetOk, _, exec_encode _, clears_ok (c := .emptyPrefix) rfl⟩
  | decode => exact ⟨resetOk, _, exec_decode _, clears_ok (c := .lenBound) rfl⟩
  | convert dir pad inb outb =>
    refine ⟨overlong dir, _, exec_convert dir pad inb outb _ hi, ?_⟩
    cases dir <;> exact clears_ok (c := .inputLen) rfl
  | addrEnc => exact ⟨resetOk, _, exec_addrEnc _, clears_ok (c := .emptyPrefix) rfl⟩
  | addrDec => exact ⟨resetOk, _, exec_addrDec _, clears_ok (c := .lenBound) rfl⟩

/-- Settles O4: the decoder's rejections are R95's format by format, an illegal word performs the host fault, and every
command changes `OK` from some state. -/
theorem illegalWordIsAHostFault : Obligations.IllegalWordIsAHostFault := by
  refine ⟨decode_error_iff, fun w s hw hnext => ?_, fun w i hi => ?_⟩
  · exact step_of_next hnext (perform_illegalWord hw s)
  · obtain ⟨s, t, hexec, hok⟩ := exec_changes_ok (wellFormed_of_decode hi)
    exact ⟨s, t, hexec, fun heq => by simp [heq] at hok⟩

/-! The pseudo-commands -/

/-- The word of `CHK.FEEDLO` is its row's match with the operand added (R91, R96). -/
theorem encode_chkFeedlo (c : Byte) : encode (.chkFeedlo c) = BitVec.ofNat 16 (0x3000 + c.toNat) := by
  have hsum : 0x3000 + c.toNat = 0x3000 ||| c.toNat :=
    Nat.shiftLeft_add_eq_or_of_lt (i := 12) (by omega) 3
  apply BitVec.eq_of_toNat_eq
  simp only [encode, Instr.opcode, Instr.lowBits, BitVec.toNat_append, BitVec.toNat_ofNat]
  simp [← hsum]
  omega

theorem expand_chkFeed_words (v : BitVec 5) :
    (Pseudo.chkFeed v).expand.map encode = [BitVec.ofNat 16 (0x3000 + v.toNat)] := by
  have hv : (v.setWidth 8).toNat = v.toNat := by simp; omega
  simp only [Pseudo.expand, List.map_cons, List.map_nil, encode_chkFeedlo, hv]

/-- Folding in the low bits of 0 leaves the step alone (R126). -/
theorem exec_chkFeedlo_zero (s : State) : exec (.chkFeedlo 0#8) s = exec .chkStep s := by
  have hlow : low5 0#8 = 0#30 := by decide
  rw [exec_chkFeedlo, exec_chkStep, hlow, BitVec.xor_zero]

/-- Settles O6: the words of the fixed expansions are computed, `CHK.FEED` goes by the word of `CHK.FEEDLO`, and folding
in 0 changes nothing. -/
theorem pseudoCommandsAreTheirExpansions : Obligations.PseudoCommandsAreTheirExpansions :=
  ⟨by decide, by decide, expand_chkFeed_words, by decide, by decide, fun s => (exec_chkFeedlo_zero s).symm, by decide⟩

end Sys2Proof.Encoding

/-! The four commands that drive `CHK` directly: their words (R124 to R127), their next states, and the operands that
fold nothing in. -/

namespace Sys2Proof.ChecksumCommands

open Sys2Proof.Machine

/-- A word of format I is its row's match with the operand's bits in it (R91). -/
theorem formatI_word (op : BitVec 4) (imm : Byte) :
    (op ++ (0#4 ++ imm) : CmdWord) = op ++ 0#12 ||| imm.setWidth 16 := by
  have hlow : imm.setWidth 16 = 0#4 ++ (0#4 ++ imm) := by
    rw [← BitVec.toNat_inj, BitVec.toNat_setWidth_of_le (by decide), BitVec.toNat_append, BitVec.toNat_append]
    simp
  rw [hlow, BitVec.or_append, BitVec.or_zero, BitVec.zero_or]

/-- The commands that drive `CHK` end by writing it and setting `OK`, and write nothing else (R221). -/
theorem succeed_setChk (v : Chk) (s : State) : (s.setChk v).succeed = { s with chk := v, ok := true } := rfl

/-- `CHK.FEEDLO` ignores bits 7:5, so an operand whose low 5 bits are 0 leaves the step alone (R126). -/
theorem exec_chkFeedlo_of_mod_eq_zero {imm : Byte} (h : imm.toNat % 32 = 0) (s : State) :
    exec (.chkFeedlo imm) s = exec .chkStep s := by
  rw [exec_chkFeedlo, exec_chkStep, low5_eq, h, BitVec.xor_zero]

/-- `CHK.FEEDHI` ignores bits 4:0, so an operand below 32 leaves the step alone (R127). -/
theorem exec_chkFeedhi_of_lt {imm : Byte} (h : imm.toNat < 32) (s : State) :
    exec (.chkFeedhi imm) s = exec .chkStep s := by
  rw [exec_chkFeedhi, exec_chkStep, high3_eq, Nat.div_eq_of_lt h, BitVec.xor_zero]

/-- Settles O24: the word is format I's, the effect is the step with `low5` folded in, and the three corner operands have
low 5 bits of 0. -/
theorem chkFeedloFoldsTheLowFiveBits : Obligations.ChkFeedloFoldsTheLowFiveBits := by
  refine fun imm => ⟨formatI_word 3#4 imm, fun s => ?_, fun himm s => ?_⟩
  · rw [exec_chkFeedlo, succeed_setChk, low5_eq]
  · have hmod : imm.toNat % 32 = 0 := by obtain rfl | rfl | rfl := himm <;> decide
    exact exec_chkFeedlo_of_mod_eq_zero hmod s

/-- Settles O25: the word is format I's, the effect is the step with `high3` folded in, and an operand below 32 has top
3 bits of 0. -/
theorem chkFeedhiFoldsTheTopThreeBits : Obligations.ChkFeedhiFoldsTheTopThreeBits := by
  refine fun imm => ⟨formatI_word 4#4 imm, fun s => ?_, fun himm s => exec_chkFeedhi_of_lt himm s⟩
  rw [exec_chkFeedhi, succeed_setChk, high3_eq]

/-- Settles O22: the word is computed, and the value written does not depend on the old `CHK`. -/
theorem chkInitSetsTheIdentity : Obligations.ChkInitSetsTheIdentity := by
  refine ⟨by decide, fun s => ?_⟩
  rw [exec_chkInit, succeed_setChk, ident]

/-- Settles O23: the word and the four examples are computed, and the command writes `STEP` of the old `CHK`. -/
theorem chkStepAppliesTheStepFunction : Obligations.ChkStepAppliesTheStepFunction := by
  refine ⟨by decide, fun s => ?_, by decide, by decide, by decide, by decide⟩
  rw [exec_chkStep, succeed_setChk]

end Sys2Proof.ChecksumCommands

/-! The codec's two commands: when `ENCODE` (R141 to R149) and `DECODE` (R150 to R158) succeed, said in the conditions of
the statements, and what each leaves. -/

namespace Sys2Proof.CodecCommands

open Sys2Proof.Machine Sys2Proof.Claims

/-! Runs of bytes by position -/

theorem getD_span (s : State) (r : Region) {n i : Nat} (h : i < n) : (s.span r n).getD i 0#8 = cell s r i := by
  simp [List.getD_eq_getElem?_getD, h]

theorem forall_mem_span {s : State} {r : Region} {n : Nat} {P : Byte → Prop} :
    (∀ v ∈ s.span r n, P v) ↔ ∀ i < n, P (cell s r i) := by
  simp [State.mem_span]

/-! Character classes in numbers (R13) -/

theorem isUpper_iff (c : Byte) : isUpper c = true ↔ upperLetter c := by simp [isUpper]

theorem isLower_iff (c : Byte) : isLower c = true ↔ lowerLetter c := by simp [isLower]

theorem inHrpRange_iff (c : Byte) : inHrpRange c = true ↔ 33 ≤ c.toNat ∧ c.toNat ≤ 126 := by simp [inHrpRange]

theorem encodePrefixChar_iff (c : Byte) : encodePrefixChar c ↔ inHrpRange c = true ∧ isUpper c = false := by
  rw [← Bool.not_eq_true, inHrpRange_iff, isUpper_iff, and_assoc]

theorem toLower_eq_lowered (c : Byte) : toLower c = lowered c := by
  have hsum : c + 32#8 = BitVec.ofNat 8 (c.toNat + 32) := by
    apply BitVec.eq_of_toNat_eq
    simp
  simp only [toLower, isUpper_iff, hsum]

/-! `ENCODE` -/

/-- The encoder's success in the conditions of R142 to R145. -/
theorem encodeAttempt_eq_ok_iff (s t : State) :
    s.encodeAttempt = .ok t ↔
      encodeLegal s ∧ t = s.putString (s.span .hrp s.hlen.toNat) (s.span .sym s.dlen.toNat) := by
  have hpos : s.hlen.toNat ≠ 0 ↔ 1 ≤ s.hlen.toNat := Nat.one_le_iff_ne_zero.symm
  simp only [State.encodeAttempt_eq_ok, forall_mem_span, ← encodePrefixChar_iff, hpos]
  tauto

/-- The verdict of `ENCODE` says whether its inputs are legal (R142 to R145). -/
theorem encode_ok_iff (s : State) : (s.complete encodeOutputs s.encodeAttempt).ok = true ↔ encodeLegal s := by
  simp only [State.complete_ok, encodeAttempt_eq_ok_iff, exists_and_left, exists_eq, and_true]

/-- From legal inputs `ENCODE` answers the state with the string put in place. -/
theorem exec_encode_of_legal {s : State} (h : encodeLegal s) :
    exec .encode s = .next (s.putString (s.span .hrp s.hlen.toNat) (s.span .sym s.dlen.toNat)).succeed := by
  rw [exec_encode, (encodeAttempt_eq_ok_iff s _).mpr ⟨h, rfl⟩, State.complete]

/-- The data and its zero padding, by position (R129). -/
theorem span_append_padding (s : State) (r : Region) (n : Nat) :
    s.span r n ++ List.replicate ckLen 0#8 = (List.range (n + 6)).map fun j => if j < n then cell s r j else 0#8 := by
  apply List.ext_getElem
  · simp [ckLen]
  · intro i _ _
    simp [List.getElem_append]

theorem checksum_span (s : State) (h n : Nat) :
    checksum (s.span .hrp h) (s.span .sym n) = checksumOf h (cell s .hrp) n (cell s .sym) := by
  rw [checksum, span_append_padding, ident, State.span]

/-- Checksum symbol `k` is the 5-bit slice of `CHK` from bit `25 - 5k` up (R147). -/
theorem toNat_getD_checkSymbols (c : Chk) {k : Nat} (hk : k < 6) :
    ((checkSymbols c).getD k 0#8).toNat = c.toNat / 2 ^ (25 - 5 * k) % 32 := by
  have hlt : c.toNat / 2 ^ (25 - 5 * k) % 32 < 256 := by omega
  simp [checkSymbols, ckLen, List.getD_eq_getElem?_getD, hk, Nat.shiftRight_eq_div_pow, hlt]

/-- What stands at each address once the string is put in place: HRP's characters, separator, data, checksum and
terminator one after the other (R140, R147, R148), and the old byte everywhere else. The two sides of the proof differ
only where HRP and SYM are read. -/
theorem readByte_putString_spans (s : State) {h n : Nat} (hlen : h + 7 + n ≤ 90) (a : Nat) :
    (s.putString (s.span .hrp h) (s.span .sym n)).readByte a =
      if a < h then cell s .hrp a
      else if a = h then 0x31#8
      else if a < h + 1 + n then charsetAt (cell s .sym (a - (h + 1)))
      else if a < h + 7 + n then
        charsetAt ((checkSymbols (checksum (s.span .hrp h) (s.span .sym n))).getD (a - (h + 1 + n)) 0#8)
      else if a < h + 8 + n then 0x00#8
      else s.readByte a := by
  rw [State.readByte_putString _ _ _ (by simp; omega), getD_encodedString]
  simp only [State.length_span, Nat.sub_sub]
  by_cases hstr : a < h + 8 + n
  · rw [if_pos hstr]
    by_cases hpre : a < h
    · rw [if_pos hpre, if_pos hpre, getD_span s .hrp hpre]
    · by_cases hdat : a ≠ h ∧ a < h + 1 + n
      · rw [getD_span s .sym (by omega)]
        simp (disch := omega) only [if_pos, if_neg]
      · by_cases hsep : a = h
        · simp only [hsep, if_pos, Nat.lt_irrefl, if_false]
        · simp (disch := omega) only [hstr, if_true, if_neg]
  · simp (disch := omega) only [if_neg]

/-- Settles O30: legal inputs put the string in place, and each clause is a field or a position of what was put. -/
theorem encodeWritesTheString : Obligations.EncodeWritesTheString := by
  intro s hlegal
  obtain ⟨-, hlen, -⟩ := id hlegal
  obtain ⟨hchk, hslen, hregs, hhflt, hprog, hpc, hreply, hfill, hdraw⟩ :=
    State.putString_fields (s.span .hrp s.hlen.toNat) (s.span .sym s.dlen.toNat) s (by simp; omega)
  have hbyte := readByte_putString_spans s hlen
  refine ⟨_, exec_encode_of_legal hlegal, rfl, ?slen, hchk.trans (checksum_span ..), ?pre, ?sep, ?data, ?check, ?term,
    ?rest, ?regs, hhflt, ⟨hprog, hpc, hreply⟩, hfill, hdraw⟩
  case slen => exact hslen.trans (by simp only [State.length_span])
  case regs =>
    intro r hr
    rw [State.getReg8_succeed]
    exact hregs r (by simpa using hr)
  case pre =>
    intro i hi
    refine (hbyte _).trans ?_
    rw [Region.base, Nat.zero_add, if_pos hi]
  case sep =>
    refine (hbyte _).trans ?_
    rw [Region.base, Nat.zero_add, if_neg (Nat.lt_irrefl _), if_pos rfl]
  case data =>
    intro j hj
    refine (hbyte _).trans ?_
    rw [Region.base, Nat.zero_add, if_neg (by omega), if_neg (by omega), if_pos (by omega), Nat.add_sub_cancel_left,
      charsetAt]
  case check =>
    intro k hk
    refine (hbyte _).trans ?_
    rw [Region.base, Nat.zero_add, if_neg (by omega), if_neg (by omega), if_neg (by omega), if_pos (by omega),
      Nat.add_sub_cancel_left, charsetAt, toNat_getD_checkSymbols _ hk, State.succeed_chk, hchk]
  case term =>
    refine (hbyte _).trans ?_
    rw [Region.base, Nat.zero_add, if_neg (by omega), if_neg (by omega), if_neg (by omega), if_neg (by omega),
      if_pos (by omega)]
  case rest =>
    intro a ha
    simp only [inSpan, Region.base] at ha
    refine (hbyte a).trans ?_
    simp (disch := omega) only [if_neg]

/-- The inputs are illegal exactly when one of the failure conditions of R142 to R145 holds. -/
theorem not_encodeLegal_iff (s : State) :
    ¬encodeLegal s ↔
      s.hlen.toNat = 0 ∨ 90 < s.hlen.toNat + 7 + s.dlen.toNat ∨
      (∃ i < s.hlen.toNat, (cell s .hrp i).toNat < 33 ∨ 126 < (cell s .hrp i).toNat ∨
        (65 ≤ (cell s .hrp i).toNat ∧ (cell s .hrp i).toNat ≤ 90)) ∨
      ∃ j < s.dlen.toNat, 32 ≤ (cell s .sym j).toNat := by
  have hchar (c : Byte) : ¬encodePrefixChar c ↔ c.toNat < 33 ∨ 126 < c.toNat ∨ (65 ≤ c.toNat ∧ c.toNat ≤ 90) := by
    simp only [encodePrefixChar]
    omega
  have hempty : ¬1 ≤ s.hlen.toNat ↔ s.hlen.toNat = 0 := by omega
  simp only [encodeLegal, encodePrefix, not_and_or, not_forall, exists_prop, hchar, hempty, not_le, not_lt]
  exact or_or_or_comm.trans or_assoc

/-- Settles O31: `OK` is clear exactly when the encoder's conditions do not all hold. -/
theorem encodeFailsExactlyOnIllegalInputs : Obligations.EncodeFailsExactlyOnIllegalInputs := by
  refine fun s => ⟨_, exec_encode s, ?_⟩
  rw [← Bool.not_eq_true, encode_ok_iff, not_encodeLegal_iff]

/-! `DECODE` -/

/-- A property of every byte after index `k` of a run, by the index in the whole run. -/
theorem forall_mem_drop_span {s : State} {r : Region} {n k : Nat} {P : Byte → Prop} :
    (∀ v ∈ (s.span r n).drop (k + 1), P v) ↔ ∀ i < n, k < i → P (cell s r i) := by
  simp only [State.drop_span, List.forall_mem_map, List.mem_range]
  constructor
  · intro h i hi hk
    have hi' := h (i - (k + 1)) (by omega)
    rwa [Nat.add_sub_cancel' hk] at hi'
  · intro h j hj
    exact h _ (by omega) (by omega)

/-- The data part has values exactly when each of its characters has one (R154), and then `revOr0` reads them. -/
theorem revAll_eq_some_iff (cs vs : List Byte) :
    revAll cs = some vs ↔ (∀ c ∈ cs, (rev c).isSome = true) ∧ vs = cs.map revOr0 := by
  rw [revAll_eq_some]
  constructor
  · intro h
    refine ⟨fun c hc => ?_, ?_⟩
    · have hmem : rev c ∈ vs.map some := h ▸ List.mem_map_of_mem hc
      obtain ⟨v, -, hv⟩ := List.mem_map.mp hmem
      exact hv ▸ rfl
    · have hval := congrArg (List.map (Option.getD · 0#8)) h
      simpa [Function.comp_def] using hval.symm
  · rintro ⟨hsome, rfl⟩
    rw [List.map_map]
    refine List.map_congr_left fun c hc => ?_
    obtain ⟨v, hv⟩ := Option.isSome_iff_exists.mp (hsome c hc)
    simp [hv, revOr0]

theorem mixedCase_eq_false_iff (cs : List Byte) :
    mixedCase cs = false ↔ ¬((∃ c ∈ cs, lowerLetter c) ∧ ∃ c ∈ cs, upperLetter c) := by
  simp only [← Bool.not_eq_true, mixedCase, Bool.and_eq_true, List.any_eq_true, isLower_iff, isUpper_iff]

/-- The separator is no letter, so the two parts around it have the letters of the whole string (R155). -/
theorem exists_mem_around_separator {str : List Byte} {sep : Nat} {P : Byte → Prop} (hP : ¬P sepChar)
    (hstr : str = str.take sep ++ sepChar :: str.drop (sep + 1)) :
    (∃ c ∈ str.take sep ++ str.drop (sep + 1), P c) ↔ ∃ c ∈ str, P c := by
  conv_rhs => rw [hstr]
  simp [or_and_right, exists_or, hP]

theorem mixedCase_around_separator {s : State} {n sep : Nat} (hsep : lastSep (s.span .str n) = some sep) :
    mixedCase ((s.span .str n).take sep ++ (s.span .str n).drop (sep + 1)) = false ↔
      ¬((∃ i < n, lowerLetter (cell s .str i)) ∧ ∃ i < n, upperLetter (cell s .str i)) := by
  obtain ⟨hstr, -, -⟩ := (lastSep_eq_some _ _).mp hsep
  rw [mixedCase_eq_false_iff, exists_mem_around_separator (by decide) hstr,
    exists_mem_around_separator (by decide) hstr]
  simp [State.mem_span]

/-- What `DECODE` recovers for HRP: the characters before the separator, lower-cased (R157). -/
def recoveredPrefix (s : State) (sep : Nat) : List Byte := (List.range sep).map fun i => lowered (cell s .str i)

/-- The values of the data part, those of the checksum characters included (R154). -/
def recoveredValues (s : State) (sep : Nat) : List Byte :=
  (List.range (s.slen.toNat - 1 - sep)).map fun j => revOr0 (cell s .str (sep + 1 + j))

@[simp] theorem length_recoveredPrefix (s : State) (sep : Nat) : (recoveredPrefix s sep).length = sep := by
  simp [recoveredPrefix]

@[simp] theorem length_recoveredValues (s : State) (sep : Nat) :
    (recoveredValues s sep).length = s.slen.toNat - 1 - sep := by
  simp [recoveredValues]

theorem map_toLower_take_span {s : State} {n sep : Nat} (h : sep ≤ n) :
    ((s.span .str n).take sep).map toLower = recoveredPrefix s sep := by
  rw [State.take_span s .str h, State.span, List.map_map]
  exact List.map_congr_left fun i _ => toLower_eq_lowered _

theorem map_revOr0_drop_span (s : State) (sep : Nat) :
    ((s.span .str s.slen.toNat).drop (sep + 1)).map revOr0 = recoveredValues s sep := by
  rw [State.drop_span, List.map_map, Nat.add_comm sep 1, ← Nat.sub_sub, recoveredValues, Nat.add_comm sep 1]
  rfl

/-- The string's tests, made on the string in memory, are the conditions of R152 to R156. -/
theorem parseString_span_eq_ok_iff (s : State) (p syms : List Byte) (hlo : 8 ≤ s.slen.toNat) (hhi : s.slen.toNat ≤ 90) :
    parseString (s.span .str s.slen.toNat) = .ok (p, syms) ↔
      ∃ sep, decodeLegal s sep ∧ p = recoveredPrefix s sep ∧ syms = recoveredValues s sep := by
  rw [parseString_eq_ok]
  refine exists_congr fun sep => ?_
  simp only [revAll_eq_some_iff, map_revOr0_drop_span, forall_mem_drop_span, State.length_span]
  constructor
  · rintro ⟨hsep, hdata, hpos, hrange, ⟨hrev, rfl⟩, hcase, hpass, rfl⟩
    obtain ⟨hlt, hone, hlast⟩ := (State.lastSep_span s sep _).mp hsep
    rw [mixedCase_around_separator hsep] at hcase
    rw [map_toLower_take_span hlt.le] at hpass ⊢
    simp only [State.take_span s .str hlt.le, forall_mem_span, inHrpRange_iff] at hrange
    exact ⟨⟨hlo, hhi, by omega, by omega, hone, hlast, hrange, hrev, hcase, hpass⟩, rfl, rfl⟩
  · rintro ⟨⟨-, -, hpos, hdata, hone, hlast, hrange, hrev, hcase, hpass⟩, rfl, rfl⟩
    have hlt : sep < s.slen.toNat := by omega
    have hsep := (State.lastSep_span s sep _).mpr ⟨hlt, hone, hlast⟩
    rw [mixedCase_around_separator hsep, map_toLower_take_span hlt.le, State.take_span s .str hlt.le]
    exact ⟨hsep, by omega, by omega, forall_mem_span.mpr fun i hi => (inHrpRange_iff _).mpr (hrange i hi),
      ⟨hrev, rfl⟩, hcase, hpass, rfl⟩

/-- The decoder's success in the conditions of R151 to R156. -/
theorem decodeAttempt_eq_ok_iff (s t : State) :
    s.decodeAttempt = .ok t ↔
      ∃ sep, decodeLegal s sep ∧ t = s.putParsed (recoveredPrefix s sep) (recoveredValues s sep) := by
  rw [State.decodeAttempt_eq_ok]
  constructor
  · rintro ⟨hlo, hhi, p, syms, hparse, rfl⟩
    obtain ⟨sep, hlegal, rfl, rfl⟩ := (parseString_span_eq_ok_iff s p syms hlo hhi).mp hparse
    exact ⟨sep, hlegal, rfl⟩
  · rintro ⟨sep, hlegal, rfl⟩
    obtain ⟨hlo, hhi, -⟩ := id hlegal
    exact ⟨hlo, hhi, _, _, (parseString_span_eq_ok_iff s _ _ hlo hhi).mpr ⟨sep, hlegal, rfl, rfl⟩, rfl⟩

/-- The verdict of `DECODE` says whether some index is the separator of a legal string (R151 to R156). -/
theorem decode_ok_iff (s : State) :
    (s.complete decodeOutputs s.decodeAttempt).ok = true ↔ ∃ sep, decodeLegal s sep := by
  rw [State.complete_ok]
  simp only [decodeAttempt_eq_ok_iff]
  rw [exists_comm]
  simp only [exists_and_left, exists_eq, and_true]

/-- From a legal string `DECODE` answers the state with what it recovered put in place. -/
theorem exec_decode_of_legal {s : State} {sep : Nat} (h : decodeLegal s sep) :
    exec .decode s = .next (s.putParsed (recoveredPrefix s sep) (recoveredValues s sep)).succeed := by
  rw [exec_decode, (decodeAttempt_eq_ok_iff s _).mpr ⟨sep, h, rfl⟩, State.complete]

/-- Settles O33: the verdict is `decode_ok_iff`, from every state. -/
theorem decodeSucceedsExactlyOnValidStrings : Obligations.DecodeSucceedsExactlyOnValidStrings :=
  fun s => ⟨_, exec_decode s, decode_ok_iff s⟩

theorem getD_recoveredValues {s : State} {sep j : Nat} (hj : j < s.slen.toNat - 1 - sep) :
    (recoveredValues s sep).getD j 0#8 = revOr0 (cell s .str (sep + 1 + j)) := by
  simp [recoveredValues, List.getD_eq_getElem?_getD, hj]

/-- What is recovered for HRP, with its terminator, by position (R157). -/
theorem getD_recoveredPrefix_terminator {s : State} {sep i : Nat} (hi : i < sep + 1) :
    (recoveredPrefix s sep ++ [terminator]).getD i 0#8 = if i < sep then lowered (cell s .str i) else 0x00#8 := by
  by_cases h : i < sep
  · simp [recoveredPrefix, List.getD_eq_getElem?_getD, List.getElem?_append, h]
  · obtain rfl : i = sep := by omega
    simp [recoveredPrefix, List.getD_eq_getElem?_getD, terminator]

/-- What stands at each address once the recovered string is put in place: the data symbols in SYM, the lower-case
characters and their terminator in HRP, and the old byte everywhere else (R157). -/
theorem readByte_putParsed_recovered (s : State) {sep : Nat} (hlen : s.slen.toNat ≤ 90) (hsep : sep + 7 ≤ s.slen.toNat)
    (a : Nat) :
    (s.putParsed (recoveredPrefix s sep) (recoveredValues s sep)).readByte a =
      if 0x100 ≤ a ∧ a < 0x100 + (s.slen.toNat - 7 - sep) then revOr0 (cell s .str (sep + 1 + (a - 0x100)))
      else if 0x080 ≤ a ∧ a < 0x080 + (sep + 1) then
        if a - 0x080 < sep then lowered (cell s .str (a - 0x080)) else 0x00#8
      else s.readByte a := by
  have hcount : s.slen.toNat - 1 - sep - 6 = s.slen.toNat - 7 - sep := by omega
  rw [State.readByte_putParsed _ _ s (by simp; omega) (by simp; omega)]
  simp only [length_recoveredValues, length_recoveredPrefix, hcount]
  by_cases hsym : 0x100 ≤ a ∧ a < 0x100 + (s.slen.toNat - 7 - sep)
  · rw [if_pos hsym, if_pos hsym, getD_recoveredValues (by omega)]
  · by_cases hhrp : 0x080 ≤ a ∧ a < 0x080 + (sep + 1)
    · rw [if_neg hsym, if_neg hsym, if_pos hhrp, if_pos hhrp, getD_recoveredPrefix_terminator (by omega)]
    · simp only [hsym, hhrp, if_false]

/-- Settles O32: a legal string is put in place as recovered, and each clause is a field or a position of that. -/
theorem decodeRecoversPrefixAndData : Obligations.DecodeRecoversPrefixAndData := by
  intro s sep hlegal
  obtain ⟨-, hlen, -, hsep, -, -, -, hrev, -, -⟩ := id hlegal
  obtain ⟨hchk, hhlen, hdlen, hregs, hhflt, hprog, hpc, hreply, hfill, hdraw⟩ :=
    State.putParsed_fields (recoveredPrefix s sep) (recoveredValues s sep) s (by simp; omega) (by simp; omega)
  have hbyte := readByte_putParsed_recovered s hlen hsep
  refine ⟨_, exec_decode_of_legal hlegal, rfl, ?hlen, ?dlen, hchk, ?pre, ?term, ?data, ?rest, ?regs, hhflt,
    ⟨hprog, hpc, hreply⟩, hfill, hdraw⟩
  case hlen => exact hhlen.trans (length_recoveredPrefix s sep)
  case dlen =>
    refine hdlen.trans ?_
    rw [length_recoveredValues]
    omega
  case regs =>
    intro r hr
    simp only [List.mem_cons, List.not_mem_nil, or_false, not_or] at hr
    rw [State.getReg8_succeed]
    exact hregs r hr.1 hr.2
  case rest =>
    intro a hhrp hsym
    exact (hbyte a).trans ((if_neg hsym).trans (if_neg hhrp))
  case pre =>
    intro i hi
    refine (hbyte _).trans ?_
    rw [Region.base, if_neg (by omega), if_pos (by omega), Nat.add_sub_cancel_left, if_pos hi]
  case term =>
    refine (hbyte _).trans ?_
    rw [Region.base, if_neg (by omega), if_pos (by omega), Nat.add_sub_cancel_left, if_neg (by omega)]
  case data =>
    intro j hj
    obtain ⟨v, hv⟩ := Option.isSome_iff_exists.mp (hrev (sep + 1 + j) (by omega) (by omega))
    have hcell := hbyte (Region.sym.base + j)
    rw [Region.base, if_pos (by omega), Nat.add_sub_cancel_left, revOr0, hv, Option.getD_some] at hcell
    rw [hv]
    exact ⟨congrArg some hcell, (congrArg BitVec.toNat hcell).trans_lt (rev_lt hv)⟩

end Sys2Proof.CodecCommands

/-! The converter's command: when `CONVERT` succeeds (R182 to R186) and what it leaves (R180, R188), in the conditions of
the statements. -/

namespace Sys2Proof.ConverterCommand

open Sys2Proof.Machine Sys2Proof.Claims Sys2Proof.CodecCommands

/-! The operand map of R181 in the model and in the statements -/

theorem source_eq_srcOf (dir : Dir) : Dir.source dir = srcOf dir := by cases dir <;> rfl

theorem target_eq_dstOf (dir : Dir) : Dir.target dir = dstOf dir := by cases dir <;> rfl

theorem inLen_eq_inLenOf (dir : Dir) : Dir.inLen dir = inLenOf dir := by cases dir <;> rfl

theorem outLen_eq_outLenOf (dir : Dir) : Dir.outLen dir = outLenOf dir := by cases dir <;> rfl

/-! The values appended, by position -/

/-- A run of bytes read as one number is the stream of its values (R180). -/
theorem streamOf_span (s : State) (r : Region) (inbits n : Nat) :
    streamOf inbits (s.span r n) = stream inbits (cell s r) n := by
  induction n with
  | zero => rfl
  | succ n ih =>
    have hspan : s.span r (n + 1) = s.span r n ++ [cell s r n] := by simp [State.span, List.range_succ]
    rw [hspan, streamOf_append, ih, stream]

/-- Group `j` lies within the stream exactly when it is one of the whole groups. -/
theorem group_le_total_iff {outbits : Nat} (ho : 1 ≤ outbits) (total j : Nat) :
    (j + 1) * outbits ≤ total ↔ j < total / outbits :=
  (Nat.le_div_iff_mul_le ho).symm

/-- A group beyond the whole ones is the padded tail (R186). -/
theorem outValue_tail {outbits : Nat} (ho : 1 ≤ outbits) (inbits : Nat) (x : Nat → Byte) (n : Nat) :
    outValue inbits outbits x n (n * inbits / outbits) =
      stream inbits x n % 2 ^ (n * inbits % outbits) * 2 ^ (outbits - n * inbits % outbits) :=
  if_neg fun h => Nat.lt_irrefl _ ((group_le_total_iff ho _ _).mp h)

/-- The leftover bits, moved to the top of a value, fit in `outbits` bits (R186). -/
theorem leftover_lt {outbits : Nat} (ho : 1 ≤ outbits) (v total : Nat) :
    v % 2 ^ (total % outbits) * 2 ^ (outbits - total % outbits) < 2 ^ outbits := by
  calc v % 2 ^ (total % outbits) * 2 ^ (outbits - total % outbits)
      < 2 ^ (total % outbits) * 2 ^ (outbits - total % outbits) :=
        Nat.mul_lt_mul_of_pos_right (Nat.mod_lt _ (Nat.two_pow_pos _)) (Nat.two_pow_pos _)
    _ = 2 ^ outbits := by rw [← Nat.pow_add, Nat.add_sub_cancel' (Nat.mod_lt _ ho).le]

/-- Value `j` appended is value `j` of R180 and R186; a width of at most 8 fits a byte, so nothing is cut off. -/
theorem toNat_getD_convertValues (s : State) (r : Region) (pad : Bool) (inbits n : Nat) {outbits j : Nat}
    (ho : 1 ≤ outbits) (hbyte : outbits ≤ 8) (hj : j < outCount pad inbits outbits n) :
    ((convertValues pad inbits outbits (s.span r n)).getD j 0#8).toNat = outValue inbits outbits (cell s r) n j := by
  have hwidth : 2 ^ outbits ≤ 2 ^ 8 := Nat.pow_le_pow_right (by decide) hbyte
  simp only [convertValues, State.length_span, streamOf_span, List.getD_eq_getElem?_getD, List.getElem?_append,
    length_groups, outValue, group_le_total_iff ho]
  by_cases hwhole : j < n * inbits / outbits
  · have hlt := (Nat.mod_lt (stream inbits (cell s r) n / 2 ^ (n * inbits - (j + 1) * outbits))
      (Nat.two_pow_pos outbits)).trans_le hwidth
    simpa [hwhole, groups] using hlt
  · have hlt := (leftover_lt ho (stream inbits (cell s r) n) (n * inbits)).trans_le hwidth
    have htail : pad = true ∧ n * inbits % outbits ≠ 0 := by
      by_contra hno
      exact hwhole (by simpa [outCount, hno] using hj)
    have hlast : j - n * inbits / outbits = 0 := by
      simp only [outCount, if_pos htail] at hj
      omega
    rw [if_neg hwhole, if_neg hwhole, if_pos htail, hlast]
    simpa using hlt

/-! The state a legal conversion leaves -/

/-- `s` with the regrouped values appended and counted (R183, R188). -/
def converted (dir : Dir) (pad : Bool) (inbits outbits : Nat) (s : State) : State :=
  let n := (s.getReg8 (inLenOf dir)).toNat
  let base := (s.getReg8 (outLenOf dir)).toNat
  (s.writeSpan (dstOf dir) base (convertValues pad inbits outbits (s.span (srcOf dir) n))).setReg8 (outLenOf dir)
    (BitVec.ofNat 8 (base + outCount pad inbits outbits n))

/-- The converter's success in the conditions of R182, R184, R185 and R186. -/
theorem convertAttempt_eq_ok_iff (dir : Dir) (pad : Bool) (inbits : Nat) {outbits : Nat} (ho : 1 ≤ outbits)
    (s t : State) :
    s.convertAttempt dir pad inbits outbits s.convertCap = .ok t ↔
      convertLegal dir pad inbits outbits s ∧ t = converted dir pad inbits outbits s := by
  rw [State.convertAttempt_eq_ok dir pad ho, source_eq_srcOf, target_eq_dstOf, inLen_eq_inLenOf, outLen_eq_outLenOf,
    forall_mem_span, streamOf_span]
  simp only [convertLegal, and_assoc, fits, Nat.add_zero]
  rfl

/-- The verdict of `CONVERT` says whether its inputs are legal. -/
theorem convert_ok_iff (dir : Dir) (pad : Bool) (inbits : Nat) {outbits : Nat} (ho : 1 ≤ outbits) (s : State) :
    (s.complete (convertOutputs dir) (s.convertAttempt dir pad inbits outbits s.convertCap)).ok = true ↔
      convertLegal dir pad inbits outbits s := by
  simp only [State.complete_ok, convertAttempt_eq_ok_iff dir pad inbits ho, exists_and_left, exists_eq, and_true]

/-- From legal inputs `CONVERT` answers the state with the values appended. -/
theorem exec_convert_of_legal {dir : Dir} {pad : Bool} {inb outb : BitVec 4} {s : State}
    (hwf : (Instr.convert dir pad inb outb).wellFormed = true) (h : convertLegal dir pad inb.toNat outb.toNat s) :
    exec (.convert dir pad inb outb) s = .next (converted dir pad inb.toNat outb.toNat s).succeed := by
  obtain ⟨-, ho, -⟩ := wellFormed_convert hwf
  rw [exec_convert dir pad inb outb s hwf, (convertAttempt_eq_ok_iff dir pad _ ho s _).mpr ⟨h, rfl⟩, State.complete]

section
variable {dir : Dir} {pad : Bool} {inbits outbits : Nat} {s : State}

/-- The capacity keeps the new output length within its register; an output length that nothing is appended to may be
beyond it (R185). -/
theorem toNat_outLen_converted (h : convertLegal dir pad inbits outbits s) :
    ((converted dir pad inbits outbits s).getReg8 (outLenOf dir)).toNat =
      (s.getReg8 (outLenOf dir)).toNat + outCount pad inbits outbits (s.getReg8 (inLenOf dir)).toNat := by
  obtain ⟨-, -, hroom, -⟩ := h
  have hbase := (s.getReg8 (outLenOf dir)).isLt
  simp only [converted, State.getReg8_setReg8, if_true, BitVec.toNat_ofNat]
  exact Nat.mod_eq_of_lt (by omega)

/-- What stands at each address after a legal conversion: the values from the output position up, the old byte everywhere
else. With nothing to append no address is in the span, wherever the output position is. -/
theorem readByte_converted (h : convertLegal dir pad inbits outbits s) (a : Nat) :
    (converted dir pad inbits outbits s).readByte a =
      if inSpan (dstOf dir) (s.getReg8 (outLenOf dir)).toNat
          ((s.getReg8 (outLenOf dir)).toNat + outCount pad inbits outbits (s.getReg8 (inLenOf dir)).toNat) a then
        (convertValues pad inbits outbits (s.span (srcOf dir) (s.getReg8 (inLenOf dir)).toNat)).getD
          (a - ((dstOf dir).base + (s.getReg8 (outLenOf dir)).toNat)) 0#8
      else s.readByte a := by
  obtain ⟨-, -, hroom, -⟩ := h
  have hlen : (convertValues pad inbits outbits (s.span (srcOf dir) (s.getReg8 (inLenOf dir)).toNat)).length =
      outCount pad inbits outbits (s.getReg8 (inLenOf dir)).toNat := by
    rw [length_convertValues, State.length_span, convertCount]
  simp only [converted, State.readByte_setReg8]
  obtain hnone | hfit := hroom
  · rw [List.eq_nil_of_length_eq_zero (hlen.trans hnone), hnone, if_neg (by omega), State.writeSpan]
  · rw [State.readByte_writeSpan _ _ _ _ _ (by rw [hlen]; omega), hlen]
    simp only [inSpan, Nat.add_assoc]

end

/-! The statements -/

/-- Settles O37: legal inputs give the state with the values appended, and each clause is a field or a position of it. -/
theorem convertRegroupsTheStream : Obligations.ConvertRegroupsTheStream := by
  intro dir pad inb outb s hwf hlegal
  obtain ⟨-, ho, hbyte⟩ := wellFormed_convert hwf
  have hread := readByte_converted hlegal
  refine ⟨_, exec_convert_of_legal hwf hlegal, rfl, ?len, ?values, ?rest, ?regs, ?_, ?_, ⟨?_, ?_, ?_⟩, ?_, ?_⟩
  case len =>
    rw [State.getReg8_succeed]
    exact toNat_outLen_converted hlegal
  case values =>
    intro j hj
    rw [cell, State.readByte_succeed, hread, if_pos ⟨by omega, by omega⟩, ← Nat.add_assoc, Nat.add_sub_cancel_left]
    exact toNat_getD_convertValues s (srcOf dir) pad inb.toNat _ ho hbyte hj
  case rest =>
    intro a ha
    exact (hread a).trans (if_neg ha)
  case regs =>
    intro r hr
    rw [List.mem_singleton] at hr
    simp [converted, hr]
  all_goals simp [converted]

/-- Settles O38: the verdict is `convert_ok_iff`, and the tail of a success is what O37 says of the last value. -/
theorem convertSucceedsExactlyOnLegalInputs : Obligations.ConvertSucceedsExactlyOnLegalInputs := by
  intro dir pad inb outb s hwf n base whole left
  obtain ⟨-, ho, -⟩ := wellFormed_convert hwf
  have hexec := exec_convert dir pad inb outb s hwf
  have hok := convert_ok_iff dir pad inb.toNat ho s
  refine ⟨_, hexec, hok, fun h hpad hleft => ?_, fun h hnone => ?_⟩
  all_goals
    obtain ⟨t, ht, -, hlen, hvalues, -⟩ := convertRegroupsTheStream dir pad inb outb s hwf (hok.mp h)
    obtain rfl := Host.Outcome.next.inj (hexec.symm.trans ht)
  · have hcount : outCount pad inb.toNat outb.toNat n = whole + 1 := by
      rw [outCount, if_pos ⟨hpad, hleft⟩]
    refine ⟨hlen.trans (congrArg (base + ·) hcount), (hvalues whole ?_).trans (outValue_tail ho ..)⟩
    exact hcount ▸ Nat.lt_succ_self whole
  · have hcount : outCount pad inb.toNat outb.toNat n = whole := by
      rw [outCount, if_neg fun ⟨hpad, hleft⟩ => hnone.elim (Bool.eq_false_iff.mp · hpad) hleft, Nat.add_zero]
    exact hlen.trans (congrArg (base + ·) hcount)

end Sys2Proof.ConverterCommand

/-! The address wrapper's decoder: when `ADDR.DEC` succeeds (R204 to R207), said in the conditions of the statements on
the string itself. -/

namespace Sys2Proof.AddressCommands

open Sys2Proof.Machine Sys2Proof.Claims Sys2Proof.CodecCommands Sys2Proof.ConverterCommand

/-! Runs of bytes and streams by position -/

theorem span_eq_span_iff {s : State} {r q : Region} {n : Nat} :
    s.span r n = s.span q n ↔ ∀ i < n, cell s r i = cell s q i := by
  simp only [State.span, List.map_inj_left, List.mem_range]

/-- A stream is fixed by the values it is made of (R180). -/
theorem stream_congr {inbits n : Nat} {x y : Nat → Byte} (h : ∀ j < n, x j = y j) :
    stream inbits x n = stream inbits y n := by
  induction n with
  | zero => rfl
  | succ n ih => rw [stream, stream, ih fun j hj => h j (hj.trans n.lt_succ_self), h n n.lt_succ_self]

/-! The decoding stage -/

/-- `s` with what `DECODE` recovers from a string with its separator at `sep` put in place (R157). -/
def decoded (s : State) (sep : Nat) : State := s.putParsed (recoveredPrefix s sep) (recoveredValues s sep)

/-- What the later stages of `ADDR.DEC` read in the state that its decoding stage leaves: the recovered prefix and
symbols with their lengths, and the expected prefix as the host gave it (R204). -/
theorem decoded_inputs {s : State} {sep : Nat} (h : decodeLegal s sep) :
    (decoded s sep).hlen.toNat = sep ∧ (decoded s sep).dlen.toNat = s.slen.toNat - 7 - sep ∧
      (decoded s sep).elen = s.elen ∧
      (∀ i < sep, cell (decoded s sep) .hrp i = lowered (cell s .str i)) ∧
      (∀ i < sep, cell (decoded s sep) .exp i = cell s .exp i) ∧
      ∀ j < s.slen.toNat - 7 - sep, cell (decoded s sep) .sym j = revOr0 (cell s .str (sep + 1 + j)) ∧
        (cell (decoded s sep) .sym j).toNat < 32 := by
  obtain ⟨t, ht, -, hhlen, hdlen, -, hpre, -, hdata, hrest, hregs, -⟩ := decodeRecoversPrefixAndData s sep h
  obtain rfl := Host.Outcome.next.inj ((exec_decode_of_legal h).symm.trans ht)
  obtain ⟨-, hlen, -, hsep, -⟩ := h
  refine ⟨hhlen, hdlen, hregs .elen (by decide), hpre, fun i hi => hrest _ ?_ ?_, fun j hj => ?_⟩
  · simp only [inSpan, Region.base]
    omega
  · simp only [inSpan, Region.base]
    omega
  · obtain ⟨hval, hlt⟩ := hdata j hj
    exact ⟨by rw [revOr0, ← hval]; rfl, hlt⟩

/-- The decoder leaves nothing but symbols in SYM (R154). -/
theorem sym_decoded_lt {s : State} {sep : Nat} (h : decodeLegal s sep) :
    ∀ j < (decoded s sep).dlen.toNat, (cell (decoded s sep) .sym j).toNat < 32 := by
  obtain ⟨-, hdlen, -, -, -, hsym⟩ := decoded_inputs h
  exact fun j hj => (hsym j (hdlen ▸ hj)).2

/-- The prefix test on what was decoded is R206's comparison of the lower-cased characters with EXP. -/
theorem prefixMatches_decoded_iff {s : State} {sep : Nat} (h : decodeLegal s sep) :
    (decoded s sep).prefixMatches = true ↔
      s.elen.toNat = sep ∧ ∀ i < sep, lowered (cell s .str i) = cell s .exp i := by
  obtain ⟨hhlen, -, helen, hhrp, hexp, -⟩ := decoded_inputs h
  rw [State.prefixMatches_iff, helen, hhlen, span_eq_span_iff, ← BitVec.toNat_inj, hhlen, eq_comm]
  refine and_congr_right' (forall₂_congr fun i hi => ?_)
  rw [hhrp i hi, hexp i hi]

/-! The conversion stage -/

/-- How many bytes `n` symbols make without padding (R190). -/
theorem outCount_payload (n : Nat) : outCount false 5 8 n = n * 5 / 8 := by simp [outCount]

/-- The bytes of the symbols in SYM (R180). -/
def payloadBytes (s : State) : List Byte := convertValues false 5 8 (s.span .sym s.dlen.toNat)

@[simp] theorem length_payloadBytes (s : State) : (payloadBytes s).length = s.dlen.toNat * 5 / 8 := by
  rw [payloadBytes, length_convertValues, State.length_span]
  exact outCount_payload _

/-- `s` with its symbols regrouped to bytes from the start of BYTE up and counted (R204). -/
def regrouped (s : State) : State :=
  ((s.setReg8 .blen 0).writeSpan .byte 0 (payloadBytes s)).setReg8 .blen (BitVec.ofNat 8 (s.dlen.toNat * 5 / 8))

/-- At most 64 symbols make at most 40 bytes, within the wrapper's capacity of 64, so the conversion of symbols can fail
on nothing but its tail (R204). -/
theorem convertPayload_eq_ok_iff {s : State} (hlen : s.dlen.toNat ≤ 64)
    (hsym : ∀ j < s.dlen.toNat, (cell s .sym j).toNat < 32) (t : State) :
    (s.setReg8 .blen 0).convertAttempt .s2b false 5 8 64 = .ok t ↔
      cleanTail 5 8 (cell s .sym) s.dlen.toNat ∧ t = regrouped s := by
  have hin : (s.setReg8 .blen 0).getReg8 (Dir.inLen .s2b) = s.dlen := State.getReg8_setReg8 ..
  have hout : (s.setReg8 .blen 0).getReg8 (Dir.outLen .s2b) = 0 := State.getReg8_setReg8 ..
  have hspan : (s.setReg8 .blen 0).span (Dir.source .s2b) s.dlen.toNat = s.span .sym s.dlen.toNat :=
    State.span_congr fun i _ => State.readByte_setReg8 ..
  have hzero : (0 : Byte).toNat = 0 := rfl
  have hcount : convertCount false 5 8 s.dlen.toNat = s.dlen.toNat * 5 / 8 := outCount_payload _
  rw [State.convertAttempt_eq_ok .s2b false (by decide), hin, hout, hspan, forall_mem_span, streamOf_span, hcount,
    ← payloadBytes, hzero, Nat.zero_add]
  constructor
  · rintro ⟨-, -, -, hpad | htail, rfl⟩
    · cases hpad
    · exact ⟨htail, rfl⟩
  · rintro ⟨htail, rfl⟩
    exact ⟨by omega, hsym, .inr (by omega), .inr htail, rfl⟩

/-- Byte `j` of the regrouped payload is value `j` of its stream (R180). -/
theorem toNat_byte_regrouped {s : State} (hlen : s.dlen.toNat ≤ 64) {j : Nat} (hj : j < s.dlen.toNat * 5 / 8) :
    (cell (regrouped s) .byte j).toNat = outValue 5 8 (cell s .sym) s.dlen.toNat j := by
  rw [regrouped, cell, State.readByte_setReg8, State.readByte_writeSpan _ _ _ _ _ (by rw [length_payloadBytes]; omega),
    length_payloadBytes, if_pos ⟨by omega, by omega⟩, Nat.add_zero, Nat.add_sub_cancel_left]
  exact toNat_getD_convertValues s .sym false 5 _ (by decide) (by decide) ((outCount_payload _).symm ▸ hj)

/-- The first byte is 0 exactly when the first value of the payload's stream is. A clean tail leaves at least one byte,
since a single symbol leaves all its bits over (R204, R207). -/
theorem first_byte_regrouped_iff {s : State} (hpos : 1 ≤ s.dlen.toNat) (hlen : s.dlen.toNat ≤ 64)
    (htail : cleanTail 5 8 (cell s .sym) s.dlen.toNat) :
    (regrouped s).readByte 0x180 = 0#8 ↔ outValue 5 8 (cell s .sym) s.dlen.toNat 0 = 0 := by
  obtain ⟨hleft, -⟩ := htail
  rw [← toNat_byte_regrouped hlen (by omega), ← BitVec.toNat_inj]
  rfl

/-! The whole command -/

/-- On a valid string the conditions of R205 to R207 may be read off what the decoding stage leaves. -/
theorem addrDecLegal_iff {s : State} {sep : Nat} (h : decodeLegal s sep) :
    addrDecLegal s sep ↔
      1 ≤ (decoded s sep).dlen.toNat ∧ (decoded s sep).dlen.toNat ≤ 64 ∧ (decoded s sep).prefixMatches = true ∧
        cleanTail 5 8 (cell (decoded s sep) .sym) (decoded s sep).dlen.toNat ∧
        outValue 5 8 (cell (decoded s sep) .sym) (decoded s sep).dlen.toNat 0 = 0 := by
  obtain ⟨-, hdlen, -, -, -, hsym⟩ := decoded_inputs h
  have hstream := stream_congr (inbits := 5) fun j hj => (hsym j hj).1
  rw [prefixMatches_decoded_iff h, hdlen, and_assoc (a := s.elen.toNat = sep)]
  simp only [cleanTail, outValue, hstream]
  exact and_iff_right h

/-- `ADDR.DEC`'s success in the conditions of R204 to R207, and the state it leaves. -/
theorem addrDecAttempt_eq_ok_iff (s t : State) :
    s.addrDecAttempt = .ok t ↔ ∃ sep, addrDecLegal s sep ∧ t = regrouped (decoded s sep) := by
  rw [State.addrDecAttempt_eq_ok]
  constructor
  · rintro ⟨u, hdec, hpos, hlen, hpre, hconv, hzero⟩
    obtain ⟨sep, h, rfl⟩ := (decodeAttempt_eq_ok_iff s u).mp hdec
    obtain ⟨htail, rfl⟩ := (convertPayload_eq_ok_iff hlen (sym_decoded_lt h) t).mp hconv
    have hfirst := (first_byte_regrouped_iff hpos hlen htail).mp hzero
    exact ⟨sep, (addrDecLegal_iff h).mpr ⟨hpos, hlen, hpre, htail, hfirst⟩, rfl⟩
  · rintro ⟨sep, hlegal, rfl⟩
    obtain ⟨h, -⟩ := id hlegal
    obtain ⟨hpos, hlen, hpre, htail, hzero⟩ := (addrDecLegal_iff h).mp hlegal
    exact ⟨decoded s sep, (decodeAttempt_eq_ok_iff s _).mpr ⟨sep, h, rfl⟩, hpos, hlen, hpre,
      (convertPayload_eq_ok_iff hlen (sym_decoded_lt h) _).mpr ⟨htail, rfl⟩,
      (first_byte_regrouped_iff hpos hlen htail).mpr hzero⟩

/-- Settles O47: the attempt succeeds from exactly the states with legal inputs. -/
theorem addrDecSucceedsExactlyOnLegalInputs : Obligations.AddrDecSucceedsExactlyOnLegalInputs := by
  refine fun s => ⟨_, exec_addrDec s, ?_⟩
  rw [State.complete_ok]
  simp only [addrDecAttempt_eq_ok_iff]
  rw [exists_comm]
  simp only [exists_and_left, exists_eq, and_true]

end Sys2Proof.AddressCommands

/-! Host faults: which transactions raise one, what it does and returns (R226), and what becomes of `HFLT` under every
transaction but `Reset`. -/

namespace Sys2Proof.HostFaults

open Sys2Proof.Machine Sys2Proof.Claims Sys2Proof.Encoding

/-- The host fault in one update, whatever its reason (R226). -/
theorem raiseHostFault_eq (r : HostFault) (s : State) :
    s.raiseHostFault r = { s with hflt := true, ok := s.ok && !decide (r = .illegalCommand) } := by
  cases r <;> simp [State.raiseHostFault, State.setHflt, State.setOk]

/-! The ports -/

/-- The reserved register numbers are 8 to 15 (R21). -/
theorem ofNum_eq_reserved_iff (n : RegNum) : PortReg.ofNum n = .reserved ↔ 8 ≤ n.toNat := by
  revert n
  decide

theorem portRead_eq (n : RegNum) (s : State) :
    s.portRead n = if 8 ≤ n.toNat then s.raiseHostFault .reservedRegister else s := by
  simp only [← ofNum_eq_reserved_iff, State.portRead]
  cases PortReg.ofNum n <;> rfl

theorem portValue_of_reserved {n : RegNum} (h : 8 ≤ n.toNat) (s : State) : s.portValue n = 0#32 := by
  rw [State.portValue, (ofNum_eq_reserved_iff n).mpr h]

theorem portWrite_of_reserved {n : RegNum} (h : 8 ≤ n.toNat) (v : Word) (s : State) :
    s.portWrite n v = s.raiseHostFault .reservedRegister := by
  rw [State.portWrite, (ofNum_eq_reserved_iff n).mpr h]

theorem hflt_portWrite {n : RegNum} (h : ¬8 ≤ n.toNat) (v : Word) (s : State) : (s.portWrite n v).hflt = s.hflt := by
  rw [← ofNum_eq_reserved_iff] at h
  unfold State.portWrite
  cases hn : PortReg.ofNum n with
  | reserved => exact absurd hn h
  | reg8 r => exact State.setReg8_hflt r _ s
  | _ => rfl

theorem bufRead_eq (a : BufAddr) (s : State) :
    s.bufRead a = if 0x280 ≤ a.toNat then s.raiseHostFault .unmappedBuffer else s := by
  have hnone : Region.ofAddr a.toNat = none ↔ 0x280 ≤ a.toNat := Region.ofAddr_eq_none
  simp only [← hnone, State.bufRead]
  cases Region.ofAddr a.toNat <;> rfl

theorem bufWrite_eq (a : BufAddr) (v : Word) (s : State) :
    s.bufWrite a v =
      if 0x280 ≤ a.toNat then s.raiseHostFault .unmappedBuffer else s.writeByte a.toNat (v.setWidth 8) := by
  have hnone : Region.ofAddr a.toNat = none ↔ 0x280 ≤ a.toNat := Region.ofAddr_eq_none
  simp only [← hnone, State.bufWrite]
  cases Region.ofAddr a.toNat <;> rfl

/-! A transaction that breaks the protocol -/

/-- It is a host fault and nothing else, and the reason is an illegal command exactly when it is a `Cmd`. -/
theorem perform_of_breaksProtocol {x : Transaction} (h : x.breaksProtocol = true) (s : State) :
    ∃ r, s.perform x = .next (s.raiseHostFault r) ∧ decide (r = .illegalCommand) = isCmd x := by
  cases x with
  | bufRead a =>
    refine ⟨.unmappedBuffer, ?_, rfl⟩
    rw [State.perform, bufRead_eq, if_pos (of_decide_eq_true h)]
  | bufWrite a v =>
    refine ⟨.unmappedBuffer, ?_, rfl⟩
    rw [State.perform, bufWrite_eq, if_pos (of_decide_eq_true h)]
  | regRead n =>
    refine ⟨.reservedRegister, ?_, rfl⟩
    rw [State.perform, portRead_eq, if_pos (of_decide_eq_true h)]
  | regWrite n v =>
    refine ⟨.reservedRegister, ?_, rfl⟩
    rw [State.perform, portWrite_of_reserved (of_decide_eq_true h)]
  | cmd w => exact ⟨.illegalCommand, perform_illegalWord h s, rfl⟩
  | reset => cases h

/-- A faulting read returns 0 (R226). -/
theorem replyTo_of_breaksProtocol {x : Transaction} (h : x.breaksProtocol = true) (s : State) :
    s.replyTo x = faultReply x := by
  cases x with
  | bufRead a => exact congrArg Reply.byte (State.readByte_unmapped (of_decide_eq_true h))
  | regRead n => exact congrArg Reply.word (portValue_of_reserved (of_decide_eq_true h) s)
  | _ => rfl

/-! No command writes `HFLT` -/

theorem hflt_of_encodeAttempt {s t : State} (h : s.encodeAttempt = .ok t) : t.hflt = s.hflt := by
  obtain ⟨-, -, -, -, rfl⟩ := (State.encodeAttempt_eq_ok s t).mp h
  simp [State.putString]

theorem hflt_of_decodeAttempt {s t : State} (h : s.decodeAttempt = .ok t) : t.hflt = s.hflt := by
  obtain ⟨-, -, p, syms, -, rfl⟩ := (State.decodeAttempt_eq_ok s t).mp h
  simp [State.putParsed]

theorem hflt_of_convertAttempt {dir : Dir} {pad : Bool} {inbits outbits room : Nat} (ho : 1 ≤ outbits) {s t : State}
    (h : s.convertAttempt dir pad inbits outbits room = .ok t) : t.hflt = s.hflt := by
  obtain ⟨-, -, -, -, rfl⟩ := (State.convertAttempt_eq_ok dir pad ho room s t).mp h
  simp

theorem hflt_of_addrEncAttempt {s t : State} (h : s.addrEncAttempt = .ok t) : t.hflt = s.hflt := by
  obtain ⟨u, hconv, henc⟩ := (State.addrEncAttempt_eq_ok s t).mp h
  rw [hflt_of_encodeAttempt henc, hflt_of_convertAttempt (by decide) hconv, State.setReg8_hflt]

theorem hflt_of_addrDecAttempt {s t : State} (h : s.addrDecAttempt = .ok t) : t.hflt = s.hflt := by
  obtain ⟨u, hdec, -, -, -, hconv, -⟩ := (State.addrDecAttempt_eq_ok s t).mp h
  rw [hflt_of_convertAttempt (by decide) hconv, State.setReg8_hflt, hflt_of_decodeAttempt hdec]

/-- A failure keeps `HFLT` (R222), so a command keeps it when its attempt does. -/
theorem hflt_complete {o : Outputs} {attempt : Except Cause State} {s : State}
    (h : ∀ t, attempt = .ok t → t.hflt = s.hflt) : (s.complete o attempt).hflt = s.hflt := by
  obtain ⟨t, hok, hend⟩ | ⟨c, -, hend⟩ := State.complete_cases o attempt s
  · rw [hend, State.succeed_hflt, h t hok]
  · rw [hend, State.fail_hflt]

theorem hflt_of_exec {i : Instr} (hi : i.wellFormed = true) {s t : State} (h : exec i s = .next t) :
    t.hflt = s.hflt := by
  cases i with
  | encode => cases h; exact hflt_complete fun _ => hflt_of_encodeAttempt
  | decode => cases h; exact hflt_complete fun _ => hflt_of_decodeAttempt
  | convert dir pad inb outb =>
    obtain ⟨-, ho, -⟩ := wellFormed_convert hi
    rw [exec_convert dir pad inb outb s hi] at h
    cases h
    exact hflt_complete fun _ => hflt_of_convertAttempt ho
  | addrEnc => cases h; exact hflt_complete fun _ => hflt_of_addrEncAttempt
  | addrDec => cases h; exact hflt_complete fun _ => hflt_of_addrDecAttempt
  | _ => cases h; rfl

/-! `HFLT` after a transaction -/

/-- A transaction that raises no host fault keeps `HFLT`, unless it is `Reset` (R226). -/
theorem hflt_of_perform_legal {x : Transaction} (hx : x ≠ .reset) (hlegal : x.breaksProtocol = false) {s t : State}
    (h : s.perform x = .next t) : t.hflt = s.hflt := by
  cases x with
  | bufRead a => cases h; rw [bufRead_eq, if_neg (of_decide_eq_false hlegal)]
  | bufWrite a v => cases h; rw [bufWrite_eq, if_neg (of_decide_eq_false hlegal), State.writeByte_hflt]
  | regRead n => cases h; rw [portRead_eq, if_neg (of_decide_eq_false hlegal)]
  | regWrite n v => cases h; exact hflt_portWrite (of_decide_eq_false hlegal) v s
  | cmd w =>
    cases hd : decode w with
    | error e => exact absurd ((decode_error_iff w).mp ⟨e, hd⟩) (Bool.eq_false_iff.mp hlegal)
    | ok i =>
      simp only [State.perform, State.runCmd, hd] at h
      exact hflt_of_exec (wellFormed_of_decode hd) h
  | reset => exact absurd rfl hx

/-- Every transaction but `Reset` leaves `HFLT` set exactly when it was set or the transaction breaks the protocol. -/
theorem hflt_of_perform {x : Transaction} (hx : x ≠ .reset) {s t : State} (h : s.perform x = .next t) :
    t.hflt = (s.hflt || x.breaksProtocol) := by
  cases hb : x.breaksProtocol with
  | false => rw [hflt_of_perform_legal hx hb h, Bool.or_false]
  | true =>
    obtain ⟨r, hperform, -⟩ := perform_of_breaksProtocol hb s
    obtain rfl := Host.Outcome.next.inj (hperform.symm.trans h)
    rw [State.raiseHostFault_hflt, Bool.or_true]

/-! The statement -/

/-- Settles O14: a transaction that breaks the protocol performs the host fault of its reason, and `hflt_of_perform` says
that `HFLT`, once set, stays. -/
theorem hostFaultSetsTheStickyFlagOnly : Obligations.HostFaultSetsTheStickyFlagOnly := by
  refine ⟨fun s x hnext hx => ?_, fun s t x hnext hx hset hstep => ?_⟩
  · obtain ⟨r, hperform, hr⟩ := perform_of_breaksProtocol hx s
    rw [step_of_next hnext hperform, replyTo_of_breaksProtocol hx, raiseHostFault_eq, hr, State.finish]
  · obtain ⟨u, hperform⟩ := State.perform_next x s
    obtain rfl := Host.Outcome.next.inj ((step_of_next hnext hperform).symm.trans hstep)
    rw [State.finish_hflt, hflt_of_perform hx hperform, hset, Bool.true_or]

end Sys2Proof.HostFaults

/-! The decoder and the encoder by the numbers of the words: each command has one word, whose number says its opcode and
its fields (R90 to R96), and the decoder reads it back. -/

namespace Sys2Proof.WordNumbers

open Sys2Proof.Machine Sys2Proof.Encoding

/-! The fields as numbers (R91, R92) -/

theorem lowBits_chkFeedlo_toNat (imm : Byte) : (Instr.chkFeedlo imm).lowBits.toNat = imm.toNat := by
  rw [Instr.lowBits, BitVec.toNat_append, BitVec.toNat_ofNat, Nat.zero_mod, Nat.zero_shiftLeft, Nat.zero_or]

theorem lowBits_chkFeedhi_toNat (imm : Byte) : (Instr.chkFeedhi imm).lowBits.toNat = imm.toNat :=
  lowBits_chkFeedlo_toNat imm

theorem lowBits_convert_toNat (dir : Dir) (pad : Bool) (inb outb : BitVec 4) :
    (Instr.convert dir pad inb outb).lowBits.toNat =
      2048 * dir.toBit.toNat + 1024 * pad.toNat + 16 * inb.toNat + outb.toNat := by
  revert inb outb
  cases dir <;> cases pad <;> decide

theorem toNat_encode (i : Instr) : (encode i).toNat = i.opcode.toNat * 4096 + i.lowBits.toNat := by
  rw [encode, BitVec.toNat_append, ← Nat.shiftLeft_add_eq_or_of_lt i.lowBits.isLt, Nat.shiftLeft_eq]

theorem encode_eq_iff (i : Instr) (w : CmdWord) :
    encode i = w ↔ w.toNat / 4096 = i.opcode.toNat ∧ w.toNat % 4096 = i.lowBits.toNat := by
  have hlow := i.lowBits.isLt
  rw [← BitVec.toNat_inj, toNat_encode]
  omega

/-! The decoder, format by format -/

theorem decodeZ_eq_ok_iff (w : CmdWord) (i j : Instr) : decodeZ w i = .ok j ↔ w.toNat % 4096 = 0 ∧ j = i := by
  have hzero := field_eq_zero_iff w 0 12
  unfold decodeZ
  split <;> simp_all [eq_comm]

theorem decodeI_eq_ok_iff (w : CmdWord) (mk : Byte → Instr) (j : Instr) :
    decodeI w mk = .ok j ↔ ∃ imm : Byte, w.toNat % 4096 = imm.toNat ∧ j = mk imm := by
  have hzero := field_eq_zero_iff w 8 4
  have himm : (w.extractLsb' 0 8).toNat = w.toNat % 256 := BitVec.extractLsb'_toNat 0 8 w
  simp only [decodeI, hzero]
  split
  · next hz =>
    rw [Except.ok.injEq]
    refine ⟨fun h => ⟨_, by omega, h.symm⟩, fun ⟨imm, hw, h⟩ => ?_⟩
    rw [h, ← BitVec.eq_of_toNat_eq (himm.trans (by omega : _ = imm.toNat))]
  · next hz =>
    simp only [reduceCtorEq, false_iff, not_exists, not_and]
    intro imm hw
    omega

theorem bit_eq_decide (w : CmdWord) (k : Nat) : w.getLsbD k = decide (w.toNat / 2 ^ k % 2 = 1) :=
  Nat.testBit_eq_decide_div_mod_eq

theorem toBit_ofBit (b : Bool) : (Dir.ofBit b).toBit = b := by cases b <;> rfl

/-- The term that format C's fields spell has those fields below bit 12 (R91, R92). -/
theorem lowBits_of_fields {w : CmdWord} (hz : w.toNat / 256 % 4 = 0) :
    (Instr.convert (Dir.ofBit (w.getLsbD 11)) (w.getLsbD 10) (w.extractLsb' 4 4) (w.extractLsb' 0 4)).lowBits.toNat =
      w.toNat % 4096 := by
  rw [lowBits_convert_toNat, toBit_ofBit, bit_eq_decide, bit_eq_decide]
  simp only [BitVec.extractLsb'_toNat, Nat.shiftRight_eq_div_pow, Bool.toNat, Bool.cond_decide]
  split <;> split <;> omega

theorem bool_toNat_inj : ∀ b b' : Bool, b.toNat = b'.toNat → b = b' := by decide

theorem toBit_toNat_inj {dir dir' : Dir} (h : dir.toBit.toNat = dir'.toBit.toNat) : dir = dir' := by
  revert h
  cases dir <;> cases dir' <;> decide

/-- No two terms of `CONVERT` have the same fields. -/
theorem lowBits_convert_inj {dir dir' : Dir} {pad pad' : Bool} {inb inb' outb outb' : BitVec 4}
    (h : (Instr.convert dir pad inb outb).lowBits.toNat = (Instr.convert dir' pad' inb' outb').lowBits.toNat) :
    Instr.convert dir pad inb outb = .convert dir' pad' inb' outb' := by
  simp only [lowBits_convert_toNat] at h
  have hin := inb.isLt
  have hin' := inb'.isLt
  have hout := outb.isLt
  have hout' := outb'.isLt
  have hdir := dir.toBit.toNat_lt
  have hdir' := dir'.toBit.toNat_lt
  have hpad := pad.toNat_lt
  have hpad' := pad'.toNat_lt
  have edir : dir = dir' := toBit_toNat_inj (by omega)
  have epad : pad = pad' := bool_toNat_inj pad pad' (by omega)
  have ein : inb = inb' := BitVec.eq_of_toNat_eq (by omega)
  have eout : outb = outb' := BitVec.eq_of_toNat_eq (by omega)
  rw [edir, epad, ein, eout]

theorem decodeC_eq_ok_iff (w : CmdWord) (dir : Dir) (pad : Bool) (inb outb : BitVec 4) :
    decodeC w = .ok (.convert dir pad inb outb) ↔ (Instr.convert dir pad inb outb).wellFormed = true ∧
      w.toNat % 4096 = (Instr.convert dir pad inb outb).lowBits.toNat := by
  have hzero := field_eq_zero_iff w 8 2
  have hlow := lowBits_convert_toNat dir pad inb outb
  unfold decodeC
  split
  · next hz =>
    have hfields := lowBits_of_fields (hzero.mp hz)
    split
    · next hwf =>
      rw [Except.ok.injEq]
      refine ⟨fun h => h ▸ ⟨hwf, hfields.symm⟩, fun h => lowBits_convert_inj (hfields.trans h.2)⟩
    · next hwf =>
      simp only [reduceCtorEq, false_iff, not_and]
      intro h hw
      cases lowBits_convert_inj (hfields.trans hw)
      exact hwf h
  · next hz =>
    rw [hzero] at hz
    simp only [reduceCtorEq, false_iff, not_and]
    omega

theorem decodeC_ok_convert {w : CmdWord} {i : Instr} (h : decodeC w = .ok i) :
    ∃ dir pad inb outb, i = .convert dir pad inb outb := by
  unfold decodeC at h
  split at h
  · split at h
    · exact ⟨_, _, _, _, (Except.ok.inj h).symm⟩
    · cases h
  · cases h

/-! The decoder -/

/-- The fields of a word that decodes are those of what it decodes to. -/
theorem fields_of_decode {w : CmdWord} {i : Instr} (h : decode w = .ok i) :
    w.toNat / 4096 = i.opcode.toNat ∧ w.toNat % 4096 = i.lowBits.toNat := by
  unfold decode at h
  rw [opcodeField_toNat] at h
  split at h
  case h_3 hop =>
    obtain ⟨imm, hlow, rfl⟩ := (decodeI_eq_ok_iff w _ i).mp h
    exact ⟨hop, hlow.trans (lowBits_chkFeedlo_toNat imm).symm⟩
  case h_4 hop =>
    obtain ⟨imm, hlow, rfl⟩ := (decodeI_eq_ok_iff w _ i).mp h
    exact ⟨hop, hlow.trans (lowBits_chkFeedhi_toNat imm).symm⟩
  case h_7 hop =>
    obtain ⟨dir, pad, inb, outb, rfl⟩ := decodeC_ok_convert h
    exact ⟨hop, ((decodeC_eq_ok_iff w dir pad inb outb).mp h).2⟩
  case h_10 => cases h
  all_goals
    next hop =>
    obtain ⟨hlow, rfl⟩ := (decodeZ_eq_ok_iff w _ i).mp h
    exact ⟨hop, hlow⟩

/-- A word with a command's opcode and fields decodes to that command. -/
theorem decode_of_fields {w : CmdWord} {i : Instr} (hwf : i.wellFormed = true)
    (hop : w.toNat / 4096 = i.opcode.toNat) (hlow : w.toNat % 4096 = i.lowBits.toNat) : decode w = .ok i := by
  unfold decode
  rw [opcodeField_toNat, hop]
  cases i with
  | chkFeedlo imm => exact (decodeI_eq_ok_iff w _ _).mpr ⟨imm, hlow.trans (lowBits_chkFeedlo_toNat imm), rfl⟩
  | chkFeedhi imm => exact (decodeI_eq_ok_iff w _ _).mpr ⟨imm, hlow.trans (lowBits_chkFeedhi_toNat imm), rfl⟩
  | convert dir pad inb outb => exact (decodeC_eq_ok_iff w dir pad inb outb).mpr ⟨hwf, hlow⟩
  | _ => exact (decodeZ_eq_ok_iff w _ _).mpr ⟨hlow, rfl⟩

/-- A word decodes to a command exactly when it is the command's word (R94, R96). -/
theorem decode_eq_ok_iff (w : CmdWord) (i : Instr) : decode w = .ok i ↔ i.wellFormed = true ∧ encode i = w := by
  rw [encode_eq_iff]
  exact ⟨fun h => ⟨wellFormed_of_decode h, fields_of_decode h⟩, fun ⟨hwf, hop, hlow⟩ => decode_of_fields hwf hop hlow⟩

/-- Settles O1: the encoder's word has the command's opcode and fields, and the decoder reads these back. -/
theorem decodingAnEncodedCommandGivesItBack : Obligations.DecodingAnEncodedCommandGivesItBack :=
  fun i hwf => (decode_eq_ok_iff (encode i) i).mpr ⟨hwf, rfl⟩

/-- Settles O2: it is the other direction of `decode_eq_ok_iff`. -/
theorem everyDecodedWordIsItsCommandsWord : Obligations.EveryDecodedWordIsItsCommandsWord :=
  fun w i => (decode_eq_ok_iff w i).mp

/-! The rows of the opcode map -/

/-- A format I word lies in a row when its bits 15:8 are the row's. -/
theorem maskI_iff (w m : CmdWord) (hm : m.toNat % 256 = 0) :
    w &&& 0xFF00#16 = m ↔ w.toNat / 256 = m.toNat / 256 := by
  have hhigh : (w.toNat &&& 0xFF00) / 256 = w.toNat / 256 % 256 := by
    rw [Nat.and_div_two_pow (n := 8)]
    exact Nat.and_two_pow_sub_one_eq_mod _ 8
  have hlow : (w.toNat &&& 0xFF00) % 256 = 0 := by
    rw [Nat.and_mod_two_pow (n := 8)]
    exact Nat.and_zero _
  have hand : (w &&& 0xFF00#16).toNat = w.toNat &&& 0xFF00 := BitVec.toNat_and ..
  rw [← BitVec.toNat_inj, hand]
  omega

/-- A format C word lies in the row when its opcode is 7 and its bits 9:8 are 0. -/
theorem maskC_iff (w : CmdWord) :
    w &&& 0xF300#16 = 0x7000#16 ↔ w.toNat / 4096 = 7 ∧ w.toNat / 256 % 4 = 0 := by
  have hop : (w.toNat &&& 0xF300) / 4096 = w.toNat / 4096 % 16 := by
    rw [Nat.and_div_two_pow (n := 12)]
    exact Nat.and_two_pow_sub_one_eq_mod _ 4
  have hzero : (w.toNat &&& 0xF300) / 256 % 16 = w.toNat / 256 % 16 % 4 := by
    rw [Nat.and_div_two_pow (n := 8), Nat.and_mod_two_pow (n := 4)]
    exact Nat.and_two_pow_sub_one_eq_mod _ 2
  have hlow : (w.toNat &&& 0xF300) % 256 = 0 := by
    rw [Nat.and_mod_two_pow (n := 8)]
    exact Nat.and_zero _
  have hand : (w &&& 0xF300#16).toNat = w.toNat &&& 0xF300 := BitVec.toNat_and ..
  rw [← BitVec.toNat_inj, hand, BitVec.toNat_ofNat]
  omega

theorem decode_rowZ_iff (w : CmdWord) (i : Instr) (hwf : i.wellFormed = true) :
    decode w = .ok i ↔ w &&& 0xFFFF#16 = encode i := by
  have hmask : w &&& 0xFFFF#16 = w := BitVec.and_allOnes
  rw [decode_eq_ok_iff, hmask, eq_comm (a := w)]
  exact and_iff_right hwf

theorem decode_chkFeedlo_iff (w : CmdWord) (imm : Byte) :
    decode w = .ok (.chkFeedlo imm) ↔ w &&& 0xFF00#16 = 0x3000#16 ∧ w.toNat % 256 = imm.toNat := by
  rw [decode_eq_ok_iff, encode_eq_iff, maskI_iff w _ rfl, lowBits_chkFeedlo_toNat]
  simp only [Instr.wellFormed, Instr.opcode, BitVec.toNat_ofNat, true_and]
  omega

theorem decode_chkFeedhi_iff (w : CmdWord) (imm : Byte) :
    decode w = .ok (.chkFeedhi imm) ↔ w &&& 0xFF00#16 = 0x4000#16 ∧ w.toNat % 256 = imm.toNat := by
  rw [decode_eq_ok_iff, encode_eq_iff, maskI_iff w _ rfl, lowBits_chkFeedhi_toNat]
  simp only [Instr.wellFormed, Instr.opcode, BitVec.toNat_ofNat, true_and]
  omega

theorem toNat_toBit_eq_one_iff (dir : Dir) : dir = .s2b ↔ dir.toBit.toNat = 1 := by cases dir <;> decide

theorem decode_convert_iff (w : CmdWord) (dir : Dir) (pad : Bool) (inb outb : BitVec 4) :
    decode w = .ok (.convert dir pad inb outb) ↔
      w &&& 0xF300#16 = 0x7000#16 ∧ (dir = .s2b ↔ w.toNat / 2048 % 2 = 1) ∧ (pad = true ↔ w.toNat / 1024 % 2 = 1) ∧
        w.toNat / 16 % 16 = inb.toNat ∧ w.toNat % 16 = outb.toNat ∧
        1 ≤ inb.toNat ∧ inb.toNat ≤ 8 ∧ 1 ≤ outb.toNat ∧ outb.toNat ≤ 8 := by
  have hdir := dir.toBit.toNat_lt
  have hpad := pad.toNat_lt
  have hwf : (Instr.convert dir pad inb outb).wellFormed = true ↔
      (1 ≤ inb.toNat ∧ inb.toNat ≤ 8) ∧ 1 ≤ outb.toNat ∧ outb.toNat ≤ 8 := by
    simp only [Instr.wellFormed, Bool.and_eq_true, legalWidth_iff]
  rw [decode_eq_ok_iff, encode_eq_iff, maskC_iff, lowBits_convert_toNat, hwf, toNat_toBit_eq_one_iff,
    ← Bool.toNat_eq_one (b := pad)]
  simp only [Instr.opcode, BitVec.toNat_ofNat]
  omega

/-- Settles O3: each row's mask and match are the command's fixed bits, and the fields are the operands. -/
theorem wordsSelectTheirOpcodeRow : Obligations.WordsSelectTheirOpcodeRow :=
  fun w => ⟨decode_rowZ_iff w .chkInit rfl, decode_rowZ_iff w .chkStep rfl, decode_chkFeedlo_iff w,
    decode_chkFeedhi_iff w, decode_rowZ_iff w .encode rfl, decode_rowZ_iff w .decode rfl, decode_convert_iff w,
    decode_rowZ_iff w .addrEnc rfl, decode_rowZ_iff w .addrDec rfl⟩

/-- Settles O5: each word is the computed word of its command. -/
theorem specWordsDecode : Obligations.SpecWordsDecode := by
  refine ⟨?_, ?_, ?_, ?_, ?_, ?_, ?_, ?_, ?_, ?_⟩ <;> exact (decode_eq_ok_iff _ _).mpr ⟨rfl, rfl⟩

/-- A term of `CONVERT` with an illegal width takes the host fault of an illegal command (log entry 7). -/
theorem exec_convert_illegal {dir : Dir} {pad : Bool} {inb outb : BitVec 4}
    (hwf : (Instr.convert dir pad inb outb).wellFormed = false) (s : State) :
    exec (.convert dir pad inb outb) s = .next (s.raiseHostFault .illegalCommand) := by
  rw [exec, execConvert]
  exact if_neg (Bool.eq_false_iff.mp hwf)

/-- Settles O39: an ill-formed term is one whose widths `CONVERT` refuses, and the decoder yields commands only. -/
theorem convertWithIllegalWidthIsAHostFault : Obligations.ConvertWithIllegalWidthIsAHostFault := by
  refine ⟨fun dir pad inb outb s hwf => ?_, fun w dir pad inb outb h => wellFormed_of_decode h⟩
  exact exec_convert_illegal hwf s

end Sys2Proof.WordNumbers

/-! How every command ends: one attempt and one list of outputs per command (R220 to R222), and what a failure
leaves. -/

namespace Sys2Proof.CommandEnds

open Sys2Proof.Machine Sys2Proof.Claims Sys2Proof.HostFaults

/-- The command up to how it ends. The four that drive `CHK` always succeed (R222). -/
def attempt (i : Instr) (s : State) : Except Cause State :=
  match i with
  | .chkInit => .ok (s.setChk ident)
  | .chkStep => .ok (s.setChk (chkStep s.chk))
  | .chkFeedlo imm => .ok (s.setChk (chkStep s.chk ^^^ low5 imm))
  | .chkFeedhi imm => .ok (s.setChk (chkStep s.chk ^^^ high3 imm))
  | .encode => s.encodeAttempt
  | .decode => s.decodeAttempt
  | .convert dir pad inb outb => s.convertAttempt dir pad inb.toNat outb.toNat s.convertCap
  | .addrEnc => s.addrEncAttempt
  | .addrDec => s.addrDecAttempt

/-- The command's outputs, in the lists of the statements (R222). -/
def outputs (i : Instr) : Outputs := { regions := failRegions i, regs := outRegs i, chk := failChk i }

/-- A command answers how its attempt ends (R220). -/
theorem exec_eq_complete {i : Instr} (hwf : i.wellFormed = true) (s : State) :
    exec i s = .next (s.complete (outputs i) (attempt i s)) := by
  cases i with
  | convert dir pad inb outb =>
    rw [exec_convert dir pad inb outb s hwf]
    cases dir <;> rfl
  | _ => rfl

/-- A command leaves what its attempt wrote, or a failure. -/
theorem exec_cases {i : Instr} (hwf : i.wellFormed = true) {s t : State} (h : exec i s = .next t) :
    (∃ u, attempt i s = .ok u ∧ t = u.succeed) ∨ ∃ c, attempt i s = .error c ∧ t = s.fail (outputs i) c := by
  obtain rfl := Host.Outcome.next.inj ((exec_eq_complete hwf s).symm.trans h)
  exact State.complete_cases ..

/-- `OK` clear is a failure (R222). -/
theorem fails_of_not_ok {i : Instr} (hwf : i.wellFormed = true) {s t : State} (h : exec i s = .next t)
    (hok : t.ok = false) : ∃ c, attempt i s = .error c ∧ t = s.fail (outputs i) c := by
  obtain ⟨u, -, rfl⟩ | hfail := exec_cases hwf h
  · cases hok
  · exact hfail

/-- `OK` set is a success (R221). -/
theorem succeeds_of_ok {i : Instr} (hwf : i.wellFormed = true) {s t : State} (h : exec i s = .next t)
    (hok : t.ok = true) : ∃ u, attempt i s = .ok u ∧ t = u.succeed := by
  obtain hsucceed | ⟨c, -, rfl⟩ := exec_cases hwf h
  · exact hsucceed
  · cases hok

/-- Where the verdict of a command is known to say whether its inputs are legal, `OK` set says that they were. -/
theorem legal_of_ok {i : Instr} {s t : State} {Legal : Prop}
    (hverdict : ∃ u, exec i s = .next u ∧ (u.ok = true ↔ Legal)) (hexec : exec i s = .next t) (hok : t.ok = true) :
    Legal := by
  obtain ⟨u, hexec', hiff⟩ := hverdict
  obtain rfl := Host.Outcome.next.inj (hexec'.symm.trans hexec)
  exact hiff.mp hok

/-- The four commands that drive `CHK` have no failure (R222). -/
theorem isChk_of_attempt_error {i : Instr} {s : State} {c : Cause} (h : attempt i s = .error c) : isChk i = false := by
  cases i with
  | chkInit => cases h
  | chkStep => cases h
  | chkFeedlo imm => cases h
  | chkFeedhi imm => cases h
  | _ => rfl

/-- A byte of a region after a failure (R222). -/
theorem cell_fail (o : Outputs) (c : Cause) (s : State) (r : Region) {k : Nat} (hk : k < 128) :
    cell (s.fail o c) r k = if r ∈ o.regions then Config.unspecByte s.draw (r.base + k) else cell s r k := by
  have hregion : inRegions o.regions (r.base + k) = true ↔ r ∈ o.regions := by
    simp [inRegions_eq, Region.ofAddr_base_add r hk]
  simp only [cell, State.readByte_fail, hregion]

/-- Settles O52: `OK` clear is a failure, and each clause is a field or a byte of `State.fail`. -/
theorem failureLeavesExactlyTheOutputsUnspecified : Obligations.FailureLeavesExactlyTheOutputsUnspecified := by
  intro i s t hwf hexec hok
  obtain ⟨c, herror, rfl⟩ := fails_of_not_ok hwf hexec hok
  refine ⟨isChk_of_attempt_error herror, fun r k hk => cell_fail _ c s r hk, fun r => ?_, rfl, rfl, ⟨rfl, rfl, rfl⟩,
    rfl⟩
  simp only [State.getReg8_fail, State.regAfterFail, outputs, List.contains_iff_mem]

/-- Settles O51: every meaning answers a next state, and no command writes `HFLT`. -/
theorem everyCommandCompletes : Obligations.EveryCommandCompletes := by
  intro i s hwf
  obtain ⟨t, hexec⟩ := exec_next i s
  exact ⟨t, hexec, hflt_of_exec hwf hexec⟩

end Sys2Proof.CommandEnds

/-! The invariant of every step (R28, R60, U1), and the index in the run. -/

namespace Sys2Proof.Invariant

open Sys2Proof.Machine Sys2Proof.Claims Sys2Proof.Encoding Sys2Proof.HostFaults Sys2Proof.WordNumbers
  Sys2Proof.CommandEnds

/-- What everything done to the block keeps: the run and the place in it (R28), the canonical form of memory (R60), and
that no region holds the next draw (U1). -/
structure Keeps (s t : State) : Prop where
  program : t.program = s.program
  pc : t.pc = s.pc
  wf : Memory.wf s.mem = true → Memory.wf t.mem = true
  fresh : (∀ r, s.fill.get r < s.draw) → ∀ r, t.fill.get r < t.draw

theorem Keeps.refl (s : State) : Keeps s s := ⟨rfl, rfl, id, id⟩

theorem Keeps.trans {s t u : State} (h : Keeps s t) (h' : Keeps t u) : Keeps s u :=
  ⟨h'.program.trans h.program, h'.pc.trans h.pc, h'.wf ∘ h.wf, h'.fresh ∘ h.fresh⟩

theorem inv_iff (s : State) :
    s.Inv ↔ Memory.wf s.mem = true ∧ s.pc ≤ s.program.length ∧ ∀ r, s.fill.get r < s.draw := by
  refine and_congr_right' (and_congr_right' ⟨fun ⟨hstr, hhrp, hsym, hbyte, hexp⟩ r => ?_, fun h => ?_⟩)
  · cases r <;> assumption
  · exact ⟨h .str, h .hrp, h .sym, h .byte, h .exp⟩

/-! Each update of the state -/

theorem keeps_succeed (s : State) : Keeps s s.succeed := ⟨rfl, rfl, id, id⟩

theorem keeps_setChk (v : Chk) (s : State) : Keeps s (s.setChk v) := ⟨rfl, rfl, id, id⟩

theorem keeps_setReg8 (r : Reg8) (v : Byte) (s : State) : Keeps s (s.setReg8 r v) := by constructor <;> simp

theorem keeps_raiseHostFault (x : HostFault) (s : State) : Keeps s (s.raiseHostFault x) := by constructor <;> simp

theorem keeps_writeSpan (r : Region) (i : Nat) (bs : List Byte) (s : State) : Keeps s (s.writeSpan r i bs) := by
  refine ⟨?_, ?_, State.wf_writeSpan r i bs, ?_⟩ <;> simp

theorem keeps_writeByte (a : Nat) (v : Byte) (s : State) : Keeps s (s.writeByte a v) := by
  refine ⟨?_, ?_, State.wf_writeByte a v, ?_⟩ <;> simp

/-- A draw given to some regions is below the next one (U1). -/
theorem refresh_lt {f : Fill} {d : Nat} (rs : List Region) (h : ∀ r, f.get r < d) (r : Region) :
    (Fill.refresh rs d f).get r < d + 1 := by
  rw [Fill.get_refresh]
  split
  · exact Nat.lt_succ_self d
  · exact (h r).trans (Nat.lt_succ_self d)

theorem keeps_fail (o : Outputs) (c : Cause) (s : State) : Keeps s (s.fail o c) :=
  ⟨rfl, rfl, Memory.wf_forget _, refresh_lt _⟩

theorem keeps_resetBlock (s : State) : Keeps s s.resetBlock := ⟨rfl, rfl, fun _ => Memory.wf_nil, refresh_lt _⟩

/-! Each command -/

theorem keeps_of_encodeAttempt {s t : State} (h : s.encodeAttempt = .ok t) : Keeps s t := by
  obtain ⟨-, -, -, -, rfl⟩ := (State.encodeAttempt_eq_ok s t).mp h
  exact ((keeps_writeSpan ..).trans (keeps_setReg8 ..)).trans (keeps_setChk ..)

theorem keeps_of_decodeAttempt {s t : State} (h : s.decodeAttempt = .ok t) : Keeps s t := by
  obtain ⟨-, -, p, syms, -, rfl⟩ := (State.decodeAttempt_eq_ok s t).mp h
  simp only [State.putParsed]
  exact ((((keeps_setChk ..).trans (keeps_writeSpan ..)).trans (keeps_writeSpan ..)).trans (keeps_setReg8 ..)).trans
    (keeps_setReg8 ..)

theorem keeps_of_convertAttempt {dir : Dir} {pad : Bool} {inbits outbits room : Nat} (ho : 1 ≤ outbits) {s t : State}
    (h : s.convertAttempt dir pad inbits outbits room = .ok t) : Keeps s t := by
  obtain ⟨-, -, -, -, rfl⟩ := (State.convertAttempt_eq_ok dir pad ho room s t).mp h
  exact (keeps_writeSpan ..).trans (keeps_setReg8 ..)

theorem keeps_of_addrEncAttempt {s t : State} (h : s.addrEncAttempt = .ok t) : Keeps s t := by
  obtain ⟨u, hconv, henc⟩ := (State.addrEncAttempt_eq_ok s t).mp h
  exact ((keeps_setReg8 ..).trans (keeps_of_convertAttempt (by decide) hconv)).trans (keeps_of_encodeAttempt henc)

theorem keeps_of_addrDecAttempt {s t : State} (h : s.addrDecAttempt = .ok t) : Keeps s t := by
  obtain ⟨u, hdec, -, -, -, hconv, -⟩ := (State.addrDecAttempt_eq_ok s t).mp h
  exact ((keeps_of_decodeAttempt hdec).trans (keeps_setReg8 ..)).trans (keeps_of_convertAttempt (by decide) hconv)

theorem keeps_of_attempt {i : Instr} (hwf : i.wellFormed = true) {s t : State} (h : attempt i s = .ok t) :
    Keeps s t := by
  cases i with
  | chkInit => cases h; exact keeps_setChk ..
  | chkStep => cases h; exact keeps_setChk ..
  | chkFeedlo imm => cases h; exact keeps_setChk ..
  | chkFeedhi imm => cases h; exact keeps_setChk ..
  | encode => exact keeps_of_encodeAttempt h
  | decode => exact keeps_of_decodeAttempt h
  | convert dir pad inb outb => exact keeps_of_convertAttempt (wellFormed_convert hwf).2.1 h
  | addrEnc => exact keeps_of_addrEncAttempt h
  | addrDec => exact keeps_of_addrDecAttempt h

/-- A command, success or failure, and also a term that is no command (log entry 7). -/
theorem keeps_of_exec {i : Instr} {s t : State} (h : exec i s = .next t) : Keeps s t := by
  cases hwf : i.wellFormed with
  | true =>
    obtain ⟨u, hok, rfl⟩ | ⟨c, -, rfl⟩ := exec_cases hwf h
    · exact (keeps_of_attempt hwf hok).trans (keeps_succeed u)
    · exact keeps_fail ..
  | false =>
    cases i with
    | convert dir pad inb outb =>
      obtain rfl := Host.Outcome.next.inj ((exec_convert_illegal hwf s).symm.trans h)
      exact keeps_raiseHostFault ..
    | _ => cases hwf

/-! Each transaction -/

/-- What a transaction can do to the block (R16): an access leaves it, takes a host fault or writes one byte or
register; a legal word performs its command, an illegal one is a host fault; and a reset. -/
inductive Performs (s : State) : Transaction → State → Prop
  | leave {x : Transaction} : Performs s x s
  | accessFault {x : Transaction} {r : HostFault} (hr : r ≠ .illegalCommand) : Performs s x (s.raiseHostFault r)
  | writeByte (a : BufAddr) (v : Word) : Performs s (.bufWrite a v) (s.writeByte a.toNat (v.setWidth 8))
  | setChk (n : RegNum) (v : Word) : Performs s (.regWrite n v) (s.setChk (v.setWidth 30))
  | setReg8 (n : RegNum) (v : Word) (r : Reg8) : Performs s (.regWrite n v) (s.setReg8 r (v.setWidth 8))
  | command {w : CmdWord} {i : Instr} {u : State} (hd : decode w = .ok i) (h : exec i s = .next u) :
    Performs s (.cmd w) u
  | illegal (w : CmdWord) : Performs s (.cmd w) (s.raiseHostFault .illegalCommand)
  | reset : Performs s .reset s.resetBlock

theorem performs_of_perform {x : Transaction} {s u : State} (h : s.perform x = .next u) : Performs s x u := by
  cases x with
  | bufRead a =>
    cases h
    rw [bufRead_eq]
    split
    · exact .accessFault nofun
    · exact .leave
  | bufWrite a v =>
    cases h
    rw [bufWrite_eq]
    split
    · exact .accessFault nofun
    · exact .writeByte a v
  | regRead n =>
    cases h
    rw [portRead_eq]
    split
    · exact .accessFault nofun
    · exact .leave
  | regWrite n v =>
    cases h
    unfold State.portWrite
    split
    · exact .setChk n v
    · exact .leave
    · exact .setReg8 n v _
    · exact .accessFault nofun
  | cmd w =>
    cases hd : decode w with
    | ok i =>
      rw [State.perform, State.runCmd, hd] at h
      exact .command hd h
    | error e =>
      obtain rfl := Host.Outcome.next.inj ((perform_illegalWord ((decode_error_iff w).mp ⟨e, hd⟩) s).symm.trans h)
      exact .illegal w
  | reset => cases h; exact .reset

theorem keeps_of_perform {x : Transaction} {s u : State} (h : s.perform x = .next u) : Keeps s u := by
  cases performs_of_perform h with
  | leave => exact Keeps.refl s
  | accessFault => exact keeps_raiseHostFault ..
  | writeByte => exact keeps_writeByte ..
  | setChk => exact keeps_setChk ..
  | setReg8 => exact keeps_setReg8 ..
  | command _ hexec => exact keeps_of_exec hexec
  | illegal => exact keeps_raiseHostFault ..
  | reset => exact keeps_resetBlock s

/-- The step that performs a transaction: what it performs, and then only the reply and the index (R28). -/
theorem step_performs {s : State} {x : Transaction} (hnext : nextIs s x) :
    ∃ u, s.perform x = .next u ∧ step s = .next (u.finish (s.replyTo x)) := by
  obtain ⟨u, hperform⟩ := State.perform_next x s
  exact ⟨u, hperform, step_of_next hnext hperform⟩

/-- Settles O20: with no transaction left nothing changes, and a transaction that is left keeps everything but the
index, which goes one further within the run. -/
theorem everyStepKeepsTheInvariant : Obligations.EveryStepKeepsTheInvariant := by
  intro s t hinv hstep
  rw [inv_iff] at hinv ⊢
  obtain ⟨hwf, hpc, hfresh⟩ := hinv
  cases hx : s.program[s.pc]? with
  | none =>
    obtain rfl := Host.Outcome.next.inj ((step_of_ended hx).symm.trans hstep)
    exact ⟨hwf, hpc, hfresh⟩
  | some x =>
    obtain ⟨u, hperform, hfinish⟩ := step_performs hx
    obtain rfl := Host.Outcome.next.inj (hfinish.symm.trans hstep)
    have hkeeps := keeps_of_perform hperform
    obtain ⟨hlt, -⟩ := List.getElem?_eq_some_iff.mp hx
    refine ⟨hkeeps.wf hwf, ?_, hkeeps.fresh hfresh⟩
    rw [State.finish_pc, State.finish_program, hkeeps.pc, hkeeps.program]
    exact hlt

/-- Settles O19: every clause is evaluated at reset. -/
theorem invariantHoldsAtReset : Obligations.InvariantHoldsAtReset := by
  unfold Obligations.InvariantHoldsAtReset
  decide

/-! The index -/

/-- Settles O8: what is performed keeps the run and the index, and the step adds 1 to the index. -/
theorem indexAdvancesByOneAtEveryTransaction : Obligations.IndexAdvancesByOneAtEveryTransaction := by
  refine ⟨rfl, fun s x hnext => ?_, fun i s t hexec => ?_, fun s => step_of_ended⟩
  · obtain ⟨u, hperform, hstep⟩ := step_performs hnext
    have hkeeps := keeps_of_perform hperform
    exact ⟨_, hstep, congrArg (· + 1) hkeeps.pc, hkeeps.program⟩
  · exact ⟨(keeps_of_exec hexec).pc, (keeps_of_exec hexec).program⟩

/-- Settles O7: a legal word performs its command, and a `Cmd` has no reply. -/
theorem stepRunsTheDecodedCommand : Obligations.StepRunsTheDecodedCommand := by
  intro s w i hnext hd
  obtain ⟨u, hperform, hstep⟩ := step_performs hnext
  refine ⟨u, ?_, hstep⟩
  rwa [State.perform, State.runCmd, hd] at hperform

/-- Settles O9: with the index at the end of the run there is no transaction left, and reset leaves an empty run. -/
theorem blockHoldsItsStateWithoutATransaction : Obligations.BlockHoldsItsStateWithoutATransaction :=
  ⟨step_of_ended rfl, fun _ h => step_of_ended (List.getElem?_eq_none h)⟩

end Sys2Proof.Invariant

/-! The host's ports, reset and the maps: what each transaction that is no `Cmd` does (R21, R65, R250), and `HFLT` after
every transaction (R226). -/

namespace Sys2Proof.HostPorts

open Sys2Proof.Machine Sys2Proof.Claims Sys2Proof.HostFaults Sys2Proof.Invariant

/-! Reset -/

/-- Settles O10: every clause is evaluated. -/
theorem resetStateHoldsTheSpecsValues : Obligations.ResetStateHoldsTheSpecsValues :=
  ⟨rfl, rfl, rfl, rfl, rfl, rfl, rfl, rfl, rfl, rfl, fun _ => rfl⟩

/-- Settles O11: `Reset` leaves `State.resetBlock`, and `HFLT` stays set under any other transaction. -/
theorem resetTransactionRestoresTheBlock : Obligations.ResetTransactionRestoresTheBlock := by
  refine ⟨fun s hnext => ⟨_, step_of_next hnext rfl, rfl, rfl, rfl, rfl, rfl, rfl, rfl, rfl, rfl, fun a ha => ?_, rfl,
    rfl, rfl, fun r => ?_, rfl⟩, hostFaultSetsTheStickyFlagOnly.2⟩
  · rw [State.readByte_finish, State.readByte_resetBlock]
    exact if_pos ha
  · cases r <;> rfl

/-! `HFLT` -/

/-- What a transaction makes of `HFLT`: reset clears it, and a break of the protocol sets it (R226, R250). -/
theorem hflt_after {x : Transaction} {s u : State} (hperform : s.perform x = .next u) :
    u.hflt = if x = .reset then false else s.hflt || x.breaksProtocol := by
  split
  · next hx =>
    subst hx
    obtain rfl := Host.Outcome.next.inj hperform
    rfl
  · next hx => exact hflt_of_perform hx hperform

/-- Settles O15: a step performs its transaction, and `hflt_after` says what this makes of `HFLT`. -/
theorem hfltRecordsExactlyTheProtocolBreaks : Obligations.HfltRecordsExactlyTheProtocolBreaks := by
  intro s t x hnext hstep
  obtain ⟨u, hperform, hfinish⟩ := step_performs hnext
  obtain rfl := Host.Outcome.next.inj (hfinish.symm.trans hstep)
  exact (State.finish_hflt ..).trans (hflt_after hperform)

/-! The register port -/

/-- The register numbers that are not reserved, one by one (R21). -/
theorem num_cases {n : RegNum} (h : n.toNat < 8) :
    n = 0#4 ∨ n = 1#4 ∨ n = 2#4 ∨ n = 3#4 ∨ n = 4#4 ∨ n = 5#4 ∨ n = 6#4 ∨ n = 7#4 := by
  revert n
  decide

theorem statusWord_eq (s : State) : s.statusWord = BitVec.ofNat 32 (s.ok.toNat + 2 * s.hflt.toNat) := by
  unfold State.statusWord
  cases s.ok <;> cases s.hflt <;> rfl

/-- Settles O12: the numbers one by one; a read returns the register with zeros above it and changes nothing, a write
keeps the register's bits. -/
theorem registerPortReadsAndWrites : Obligations.RegisterPortReadsAndWrites := by
  refine fun s n v => ⟨fun hnext hn => ?_, fun hnext hn => ?_⟩
  · have hread : s.portRead n = s := by rw [portRead_eq, if_neg (by omega)]
    rw [step_of_next hnext (congrArg Host.Outcome.next hread)]
    refine congrArg (fun v => Host.Outcome.next (s.finish (.word v))) (?_ : s.portValue n = _)
    obtain rfl | rfl | rfl | rfl | rfl | rfl | rfl | rfl := num_cases hn
    case inr.inl => exact statusWord_eq s
    all_goals exact (BitVec.ofNat_toNat ..).symm
  · rw [step_of_next hnext rfl]
    obtain rfl | rfl | rfl | rfl | rfl | rfl | rfl | rfl := num_cases hn <;> rfl

/-! The buffer port -/

/-- Settles O13: reads and writes on both sides of 0x280, and the byte that a write leaves. -/
theorem bufferPortReadsAndWritesOneByte : Obligations.BufferPortReadsAndWritesOneByte := by
  refine fun s => ⟨fun a hnext => ?_, fun a v hnext ha => ?_, fun a v hnext ha => ?_, fun r i hi hfree => ?_⟩
  · rw [step_of_next hnext rfl, bufRead_eq]
    by_cases ha : 0x280 ≤ a.toNat
    · have hreply : s.replyTo (.bufRead a) = .byte 0x00#8 := congrArg Reply.byte (State.readByte_unmapped ha)
      rw [if_pos ha, if_neg (by omega), hreply, decide_eq_true ha, Bool.or_true]
      rfl
    · rw [if_neg ha, if_pos (by omega), decide_eq_false ha, Bool.or_false]
      rfl
  · have hwrite : s.bufWrite a v = s.writeByte a.toNat (v.setWidth 8) := by rw [bufWrite_eq, if_neg (by omega)]
    refine ⟨_, step_of_next hnext (congrArg Host.Outcome.next hwrite), ?_, fun b hb => ?_, ?_⟩
    · rw [State.readByte_finish, State.readByte_writeByte]
      exact if_pos ⟨rfl, ha⟩
    · rw [State.readByte_finish, State.readByte_writeByte]
      exact if_neg fun h => hb h.1
    · unfold State.writeByte
      cases Region.ofAddr a.toNat <;> rfl
  · rw [step_of_next hnext rfl, bufWrite_eq, if_pos ha]
    rfl
  · rw [State.readByte, Region.ofAddr_base_add r hi, hfree]

/-! The maps -/

theorem ofAddr_eq_some_iff (a : Nat) (r : Region) : Region.ofAddr a = some r ↔ r.base ≤ a ∧ a < r.base + 128 := by
  refine ⟨Region.ofAddr_eq_some, fun ⟨hlo, hhi⟩ => ?_⟩
  have haddr := Region.ofAddr_base_add r (i := a - r.base) (by omega)
  rwa [Nat.add_sub_cancel' hlo] at haddr

/-- Settles O55: the bases and numbers are evaluated, and each region has the 128 addresses from its base up. -/
theorem regionsAndRegistersAreThoseOfTheMaps : Obligations.RegionsAndRegistersAreThoseOfTheMaps :=
  ⟨rfl, rfl, rfl, rfl, rfl, ofAddr_eq_some_iff, fun _ => Region.ofAddr_eq_none, fun _ => ⟨rfl, rfl, rfl, rfl, rfl, rfl⟩,
    rfl⟩

end Sys2Proof.HostPorts

/-! The checksum engine: the tables (R31 to R33), `STEP` bit by bit, its linearity and injectivity (R121, R123), the
command stream of a pass (R128), and that emitted checksums validate (R129). -/

namespace Sys2Proof.ChecksumEngine

open Sys2Proof.Machine Sys2Proof.Claims

/-- Settles O21: the tables are evaluated entry by entry, and a byte of 128 or above fails the bound of `rev`. -/
theorem constantTablesAreTheSpecs : Obligations.ConstantTablesAreTheSpecs := by
  refine ⟨by decide, by decide, by decide +kernel, fun c hc => ?_⟩
  rw [rev, if_neg (by omega)]

/-! `STEP` bit by bit -/

/-- Settles O26: the low 25 bits stand 5 higher, and each generator is folded in at its bit of the high part. -/
theorem stepHasItsBitLevelForm : Obligations.StepHasItsBitLevelForm := by
  intro c k hk
  have hshift : (c.extractLsb' 0 25 ++ 0#5 : Chk).getLsbD k = (decide (5 ≤ k) && c.getLsbD (k - 5)) := by
    have hlt : k - 5 < 25 := by omega
    rw [BitVec.getLsbD_append]
    by_cases h : k < 5
    · simp [h]
    · simp [h, hlt, Nat.le_of_not_lt h]
  have hgen (i : Nat) (hi : i < 5) : (genIf (c.extractLsb' 25 5) i).getLsbD k = genBit c i k := by
    simp [getLsbD_genIf, hi]
  simp only [chkStep, BitVec.getLsbD_xor, hshift]
  rw [hgen 0 (by decide), hgen 1 (by decide), hgen 2 (by decide), hgen 3 (by decide), hgen 4 (by decide)]

theorem xor_pairs_comm : ∀ a b c d : Bool, ((a ^^ b) ^^ (c ^^ d)) = ((a ^^ c) ^^ (b ^^ d)) := by decide

/-- `STEP` is linear over GF(2): its bit-level form is (R123). -/
theorem chkStep_xor (a b : Chk) : chkStep (a ^^^ b) = chkStep a ^^^ chkStep b := by
  apply BitVec.eq_of_getLsbD_eq
  intro k hk
  have hgen (i : Nat) : genBit (a ^^^ b) i k = (genBit a i k ^^ genBit b i k) := by
    rw [genBit, BitVec.getLsbD_xor, Bool.and_xor_distrib_right]
  rw [BitVec.getLsbD_xor, stepHasItsBitLevelForm _ k hk, stepHasItsBitLevelForm _ k hk, stepHasItsBitLevelForm _ k hk]
  simp only [hgen, BitVec.getLsbD_xor, Bool.and_xor_distrib_left, xor_pairs_comm]

/-- Settles O27: linearity is `chkStep_xor`, and the unit vectors are evaluated. -/
theorem stepIsLinear : Obligations.StepIsLinear :=
  ⟨chkStep_xor, by decide, by decide, by decide⟩

/-- The low 5 bits of the generators are linearly independent. -/
theorem low_generators_independent : ∀ b : BitVec 5,
    (genIf b 0 ^^^ genIf b 1 ^^^ genIf b 2 ^^^ genIf b 3 ^^^ genIf b 4).extractLsb' 0 5 = 0#5 → b = 0#5 := by decide

/-- With the high part 0 nothing is folded in, and `STEP` only moves bits up (R121). -/
theorem chkStep_bit_of_high_zero {c : Chk} (h : ∀ i < 5, c.getLsbD (25 + i) = false) {k : Nat} (hk : k < 30) :
    (chkStep c).getLsbD k = (decide (5 ≤ k) && c.getLsbD (k - 5)) := by
  have hgen (i : Nat) (hi : i < 5) : genBit c i k = false := by rw [genBit, h i hi, Bool.false_and]
  rw [stepHasItsBitLevelForm c k hk, hgen 0 (by decide), hgen 1 (by decide), hgen 2 (by decide), hgen 3 (by decide),
    hgen 4 (by decide)]
  simp only [Bool.xor_false]

/-- `STEP` loses nothing: the low 5 bits of its result tell which generators were folded in, and without them the other
bits are those of the operand. -/
theorem eq_zero_of_chkStep_eq_zero {c : Chk} (h : chkStep c = 0#30) : c = 0#30 := by
  have hhigh : c.extractLsb' 25 5 = 0#5 := by
    apply low_generators_independent
    have hlow := congrArg (BitVec.extractLsb' 0 5) h
    have hshift : (c.extractLsb' 0 25 ++ 0#5 : Chk).extractLsb' 0 5 = 0#5 := BitVec.extractLsb'_append_eq_right
    simpa [chkStep, BitVec.extractLsb'_xor, hshift] using hlow
  have hbit (i : Nat) (hi : i < 5) : c.getLsbD (25 + i) = false := by
    have hi' := congrArg (BitVec.getLsbD · i) hhigh
    simpa [hi] using hi'
  apply BitVec.eq_of_getLsbD_eq
  intro k hk
  rw [BitVec.getLsbD_zero]
  by_cases hlow : k < 25
  · have hstep := chkStep_bit_of_high_zero hbit (k := k + 5) (by omega)
    rw [h] at hstep
    simpa using hstep.symm
  · obtain ⟨i, rfl⟩ := Nat.exists_eq_add_of_le (Nat.le_of_not_lt hlow)
    exact hbit i (by omega)

theorem chkStep_injective {a b : Chk} (h : chkStep a = chkStep b) : a = b := by
  rw [← BitVec.xor_eq_zero_iff]
  apply eq_zero_of_chkStep_eq_zero
  rw [chkStep_xor, h, BitVec.xor_self]

/-! Feeding values -/

/-- An accumulator XORed in goes its own way, with nothing folded in (R123). -/
theorem feedAll_xor (a b : Chk) (vs : List Chk) :
    feedAll (a ^^^ b) vs = feedAll a (List.replicate vs.length 0#30) ^^^ feedAll b vs := by
  induction vs generalizing a b with
  | nil => rfl
  | cons v vs ih =>
    simp only [List.length_cons, List.replicate_succ, feedAll_cons]
    rw [chkStep_xor, BitVec.xor_assoc, ih, BitVec.xor_zero]

/-- Feeding the checksum symbols of `k` from 0 brings `k` in from its top, 5 bits at a time (R129, R147). -/
theorem feedAll_checkSymbols_prefix (k : Chk) {t : Nat} (ht : t ≤ 6) :
    feedAll 0#30 ((List.range t).map fun t => ((k.extractLsb' (25 - 5 * t) 5).setWidth 8).setWidth 30) =
      k >>> (30 - 5 * t) := by
  induction t with
  | zero => exact (BitVec.ushiftRight_eq_zero (Nat.le_refl 30)).symm
  | succ t ih =>
    rw [List.range_succ, List.map_append, feedAll_append, ih (by omega)]
    simp only [List.map_cons, List.map_nil, feedAll_cons, feedAll_nil]
    apply BitVec.eq_of_getLsbD_eq
    intro j hj
    rw [BitVec.getLsbD_xor, chkStep_bit_of_high_zero _ hj]
    · simp only [BitVec.getLsbD_ushiftRight, BitVec.getLsbD_setWidth, BitVec.getLsbD_extractLsb']
      by_cases hlow : j < 5
      · have hindex : 25 - 5 * t + j = 30 - 5 * (t + 1) + j := by omega
        have hlow' : ¬5 ≤ j := by omega
        have hbyte : j < 8 := by omega
        simp [hlow, hlow', hbyte, hj, hindex]
      · have hindex : 30 - 5 * t + (j - 5) = 30 - 5 * (t + 1) + j := by omega
        simp [hlow, Nat.le_of_not_lt hlow, hindex]
    · intro i _
      rw [BitVec.getLsbD_ushiftRight, BitVec.getLsbD_of_ge k _ (by omega)]

theorem feedAll_checkSymbols (k : Chk) : feedAll 0#30 ((checkSymbols k).map fun v => v.setWidth 30) = k := by
  have hall := feedAll_checkSymbols_prefix k (Nat.le_refl 6)
  simpa [checkSymbols, ckLen, Function.comp_def] using hall

/-- Settles O29: by linearity the emitted symbols add themselves to what six zeros would leave. -/
theorem emittedChecksumAlwaysValidates : Obligations.EmittedChecksumAlwaysValidates := by
  intro p d
  have hlinear := feedAll_xor (pass p d) 0#30 ((checkSymbols (checksum p d)).map fun v => v.setWidth 30)
  rw [BitVec.xor_zero, feedAll_checkSymbols, List.length_map, length_checkSymbols] at hlinear
  rw [pass_append, hlinear, checksum, pass_append, List.map_replicate, ckLen]
  rw [← BitVec.xor_assoc]
  exact (congrArg (· ^^^ ident) BitVec.xor_self).trans BitVec.zero_xor

/-! The command stream of a pass (R128) -/

theorem execAll_append (is js : List Instr) {s t : State} (h : execAll is s = .next t) :
    execAll (is ++ js) s = execAll js t := by
  induction is generalizing s with
  | nil => cases h; rfl
  | cons i is ih =>
    obtain ⟨u, hexec⟩ := exec_next i s
    simp only [List.cons_append, execAll, hexec] at h ⊢
    exact ih h

/-- Commands that fold values into `CHK` one by one leave it as fed, with `OK` set. -/
theorem execAll_feed (mk : Byte → Instr) (value : Byte → Chk)
    (hexec : ∀ c s, exec (mk c) s = .next (s.setChk (chkStep s.chk ^^^ value c)).succeed) (cs : List Byte) (v : Chk)
    (s : State) :
    execAll (cs.map mk) { s with chk := v, ok := true } =
      .next { s with chk := feedAll v (cs.map value), ok := true } := by
  induction cs generalizing v with
  | nil => rfl
  | cons c cs ih =>
    rw [List.map_cons, execAll, hexec]
    exact ih _

/-- Settles O28: the stream's five parts one after the other; the low part of a symbol is the symbol. -/
theorem commandsOfAPassComputeIt : Obligations.CommandsOfAPassComputeIt := by
  intro p syms s hsyms
  have hlow : syms.map low5 = syms.map fun v => v.setWidth 30 :=
    List.map_congr_left fun v hv => low5_of_lt (hsyms v hv)
  have hhigh := execAll_feed .chkFeedhi high3 exec_chkFeedhi p ident s
  have hprefix := execAll_feed .chkFeedlo low5 exec_chkFeedlo p (chkStep (feedAll ident (p.map high3))) s
  have hdata := execAll_feed .chkFeedlo low5 exec_chkFeedlo syms
    (feedAll (chkStep (feedAll ident (p.map high3))) (p.map low5)) s
  rw [passCommands, List.append_assoc, List.append_assoc, List.append_assoc]
  rw [execAll_append [.chkInit] _ rfl]
  refine (execAll_append _ _ hhigh).trans ((execAll_append _ _ rfl).trans ((execAll_append _ _ hprefix).trans ?_))
  rw [hlow] at hdata
  exact hdata

end Sys2Proof.ChecksumEngine

/-! What the codec guarantees between its two commands: `DECODE` undoes `ENCODE` (R159), does not mind the case of the
whole string (R155), and notices a changed character of the checksum (R160). -/

namespace Sys2Proof.CodecRoundTrip

open Sys2Proof.Machine Sys2Proof.Claims Sys2Proof.CodecCommands Sys2Proof.ChecksumEngine Sys2Proof.CommandEnds

/-! The decoder on an encoded string -/

/-- The data part of an encoded string: the data and its checksum symbols (R147). -/
def dataPart (p d : List Byte) : List Byte := d ++ checkSymbols (checksum p d)

@[simp] theorem length_dataPart (p d : List Byte) : (dataPart p d).length = d.length + 6 := by simp [dataPart]

theorem encodedString_eq (p d : List Byte) : encodedString p d = p ++ sepChar :: (dataPart p d).map charsetAt := by
  simp [encodedString, dataPart]

theorem dataPart_lt {p d : List Byte} (hd : ∀ v ∈ d, v.toNat < 32) : ∀ v ∈ dataPart p d, v.toNat < 32 := by
  intro v hv
  obtain hv | hv := List.mem_append.mp hv
  · exact hd v hv
  · exact checkSymbols_lt _ v hv

/-- Every character of the alphabet is read back as its symbol (R32, R33). -/
theorem revAll_map_charsetAt {vs : List Byte} (hvs : ∀ v ∈ vs, v.toNat < 32) : revAll (vs.map charsetAt) = some vs := by
  rw [revAll_eq_some, List.map_map]
  exact List.map_congr_left fun v hv => rev_charsetAt (hvs v hv)

/-- No character of the alphabet is the separator. -/
theorem sepChar_notMem_map_charsetAt {vs : List Byte} (hvs : ∀ v ∈ vs, v.toNat < 32) : sepChar ∉ vs.map charsetAt := by
  intro hmem
  obtain ⟨v, hv, heq⟩ := List.mem_map.mp hmem
  exact (charsetAt_legal (hvs v hv)).1 heq

/-- A string without upper-case letters is not of mixed case (R155). -/
theorem mixedCase_of_no_upper {cs : List Byte} (h : ∀ c ∈ cs, isUpper c = false) : mixedCase cs = false := by
  have hnone : cs.any isUpper = false := List.any_eq_false.mpr fun c hc => Bool.eq_false_iff.mp (h c hc)
  rw [mixedCase, hnone, Bool.and_false]

/-- The string of a prefix and symbols that `ENCODE` accepts passes the decoder's tests, which recover both (R159). -/
theorem parseString_encodedString {p d : List Byte} (hpos : p ≠ [])
    (hp : ∀ c ∈ p, inHrpRange c = true ∧ isUpper c = false) (hd : ∀ v ∈ d, v.toNat < 32) :
    parseString (encodedString p d) = .ok (p, dataPart p d) := by
  have hdata := dataPart_lt (p := p) hd
  have htake : (encodedString p d).take p.length = p := by rw [encodedString_eq, List.take_left]
  have hdrop : (encodedString p d).drop (p.length + 1) = (dataPart p d).map charsetAt := by
    rw [encodedString_eq, ← List.drop_drop, List.drop_left, List.drop_one, List.tail_cons]
  have hlower : p.map toLower = p :=
    (List.map_congr_left fun c hc => toLower_of_not_upper (hp c hc).2).trans (List.map_id p)
  have hsep : lastSep (encodedString p d) = some p.length := by
    rw [lastSep_eq_some, htake, hdrop]
    exact ⟨encodedString_eq p d, sepChar_notMem_map_charsetAt hdata, by simp; omega⟩
  have hcase : mixedCase (p ++ (dataPart p d).map charsetAt) = false := by
    refine mixedCase_of_no_upper fun c hc => ?_
    obtain hc | hc := List.mem_append.mp hc
    · exact (hp c hc).2
    · obtain ⟨v, hv, rfl⟩ := List.mem_map.mp hc
      exact (charsetAt_legal (hdata v hv)).2.1
  rw [parseString_eq_ok]
  refine ⟨p.length, hsep, by simp; omega, by simpa using hpos, ?_⟩
  rw [htake, hdrop, hlower]
  exact ⟨fun c hc => (hp c hc).1, revAll_map_charsetAt hdata, hcase, emittedChecksumAlwaysValidates p d, rfl⟩

/-! The round trip -/

/-- Once a string is put in place, STR holds it (R141, R148). -/
theorem span_str_putString (p d : List Byte) (s : State) (hlen : p.length + 7 + d.length ≤ 127) :
    (s.putString p d).span .str (p.length + 7 + d.length) = encodedString p d := by
  apply List.ext_getElem
  · simp
  · intro i hi hi'
    rw [State.length_span] at hi
    rw [State.getElem_span, State.readByte_putString p d s hlen, Region.base, Nat.zero_add, if_pos (by omega),
      List.getD_eq_getElem?_getD, List.getElem?_append_left hi', List.getElem?_eq_getElem hi', Option.getD_some]

/-- Where the string of a prefix and symbols that `ENCODE` accepts stands in STR, the decoder recovers both (R159). -/
theorem decodeAttempt_of_encodedString {p d : List Byte} {s : State} (hpos : p ≠ [])
    (hp : ∀ c ∈ p, inHrpRange c = true ∧ isUpper c = false) (hd : ∀ v ∈ d, v.toNat < 32)
    (hlen : p.length + 7 + d.length ≤ 90) (hslen : s.slen.toNat = p.length + 7 + d.length)
    (hstr : s.span .str (p.length + 7 + d.length) = encodedString p d) :
    s.decodeAttempt = .ok (s.putParsed p (dataPart p d)) := by
  have hprefix := List.length_pos_iff.mpr hpos
  rw [State.decodeAttempt_eq_ok, hslen, hstr]
  exact ⟨by omega, hlen, p, dataPart p d, parseString_encodedString hpos hp hd, rfl⟩

/-- Settles O34: the string is that of the prefix and the symbols, which the decoder recovers, and each clause is a
field or a position of what it puts in place. -/
theorem decodeInvertsEncode : Obligations.DecodeInvertsEncode := by
  intro s t t' hexec hok hslen hstr
  obtain rfl := Host.Outcome.next.inj ((exec_encode s).symm.trans hexec)
  obtain ⟨u, hattempt⟩ := (State.complete_ok ..).mp hok
  obtain ⟨hpos, hlen, hp, hd, rfl⟩ := (State.encodeAttempt_eq_ok s u).mp hattempt
  rw [hattempt] at hslen hstr
  set p := s.span .hrp s.hlen.toNat with hpdef
  set d := s.span .sym s.dlen.toNat with hddef
  have hplen : p.length = s.hlen.toNat := State.length_span ..
  have hdlen : d.length = s.dlen.toNat := State.length_span ..
  obtain ⟨-, hputlen, -⟩ := State.putString_fields p d s (by omega)
  have hstr' : t'.span .str (p.length + 7 + d.length) = encodedString p d := by
    refine (State.span_congr fun i hi => hstr i ?_).trans (span_str_putString p d s (by omega))
    exact hi.trans_eq hputlen.symm
  have hdec := decodeAttempt_of_encodedString (List.ne_nil_of_length_pos (by omega)) hp hd (by omega)
    ((congrArg BitVec.toNat hslen).trans hputlen) hstr'
  have hdata := length_dataPart p d
  obtain ⟨-, hhlen, hdlen', -⟩ := State.putParsed_fields p (dataPart p d) t' (by omega) (by omega)
  have hread := State.readByte_putParsed p (dataPart p d) t' (by omega) (by omega)
  refine ⟨(t'.putParsed p (dataPart p d)).succeed, ?_, rfl, ?_, ?_, fun i hi => ?_, fun j hj => ?_⟩
  · rw [exec_decode, hdec, State.complete]
  · exact BitVec.eq_of_toNat_eq (hhlen.trans hplen)
  · exact BitVec.eq_of_toNat_eq (hdlen'.trans (by omega))
  · rw [cell, State.readByte_succeed, hread, Region.base, if_neg (by omega), if_pos (by omega), Nat.add_sub_cancel_left,
      List.getD_append _ _ _ _ (by omega), hpdef, getD_span s .hrp hi]
  · rw [cell, State.readByte_succeed, hread, Region.base, if_pos (by omega), Nat.add_sub_cancel_left, dataPart,
      List.getD_append _ _ _ _ (by omega), hddef, getD_span s .sym hj]

/-! Case invariance -/

/-- A pass depends on the values it is fed, and on nothing else (R128). -/
theorem passOf_congr {h m : Nat} {p p' e e' : Nat → Byte} (hp : ∀ i < h, p i = p' i) (he : ∀ j < m, e j = e' j) :
    passOf h p m e = passOf h p' m e' := by
  rw [passOf, List.map_congr_left fun i hi => hp i (List.mem_range.mp hi),
    List.map_congr_left fun j hj => he j (List.mem_range.mp hj)]

/-- Raising a letter changes nothing that the decoder takes from it. -/
theorem rev_raised : ∀ c : Byte, rev (raised c) = rev c := by decide +kernel

theorem lowered_raised : ∀ c : Byte, lowered (raised c) = lowered c := by decide +kernel

theorem raised_eq_separator_iff : ∀ c : Byte, raised c = 0x31#8 ↔ c = 0x31#8 := by decide +kernel

theorem not_lowerLetter_raised : ∀ c : Byte, ¬lowerLetter (raised c) := by decide +kernel

theorem raised_in_range : ∀ c : Byte,
    33 ≤ c.toNat ∧ c.toNat ≤ 126 → 33 ≤ (raised c).toNat ∧ (raised c).toNat ≤ 126 := by decide +kernel

/-- A valid string stays valid when all its letters are raised (R155). -/
theorem decodeLegal_of_raised {s s' : State} {sep : Nat} (h : decodeLegal s sep) (hslen : s'.slen = s.slen)
    (hstr : ∀ i < s.slen.toNat, cell s' .str i = raised (cell s .str i)) : decodeLegal s' sep := by
  obtain ⟨hlo, hhi, hpos, hsep, hone, hlast, hrange, hrev, -, hpass⟩ := h
  rw [decodeLegal, hslen]
  refine ⟨hlo, hhi, hpos, hsep, ?one, fun i hi hlt => ?last, fun i hi => ?range, fun i hi hlt => ?rev, ?case, ?pass⟩
  case one => rw [hstr sep (by omega), (raised_eq_separator_iff _).mpr hone]
  case last =>
    rw [hstr i hi, ne_eq, raised_eq_separator_iff]
    exact hlast i hi hlt
  case range =>
    rw [hstr i (by omega)]
    exact raised_in_range _ (hrange i hi)
  case rev =>
    rw [hstr i hi, rev_raised]
    exact hrev i hi hlt
  case case =>
    rintro ⟨⟨i, hi, hlower⟩, -⟩
    rw [hstr i hi] at hlower
    exact not_lowerLetter_raised _ hlower
  case pass =>
    refine (passOf_congr (fun i hi => ?_) fun j hj => ?_).trans hpass
    · rw [hstr i (by omega), lowered_raised]
    · rw [hstr _ (by omega), revOr0, rev_raised]

/-- Settles O35: both strings are valid, and what the decoder takes from each character is the same. -/
theorem uppercasedStringDecodesTheSame : Obligations.UppercasedStringDecodesTheSame := by
  intro s s' sep hlegal hnoupper hslen hstr
  obtain ⟨-, -, -, hsep, -⟩ := id hlegal
  obtain ⟨t, hexec, hok, hhlen, hdlen, -, hhrp, -, hsym, -⟩ := decodeRecoversPrefixAndData s sep hlegal
  obtain ⟨t', hexec', hok', hhlen', hdlen', -, hhrp', -, hsym', -⟩ :=
    decodeRecoversPrefixAndData s' sep (decodeLegal_of_raised hlegal hslen hstr)
  rw [hslen] at hdlen' hsym'
  refine ⟨t, t', hexec, hexec', hok, hok', BitVec.eq_of_toNat_eq (hhlen'.trans hhlen.symm),
    BitVec.eq_of_toNat_eq (hdlen'.trans hdlen.symm), fun i hi => ?_, fun j hj => ?_⟩
  · have hlow : lowered (cell s .str i) = cell s .str i := if_neg (hnoupper i (by omega))
    have hcell : cell t' .hrp i = lowered (cell s .str i) := by
      rw [hhrp' i hi, hstr i (by omega), lowered_raised]
    exact ⟨hcell.trans hlow, hcell.trans (hhrp i hi).symm⟩
  · rw [hdlen] at hj
    have hrev := (hsym' j hj).1
    rw [hstr _ (by omega), rev_raised, ← (hsym j hj).1] at hrev
    exact Option.some.inj hrev

/-! A changed character of the checksum -/

/-- A change of one value changes what is fed, since `STEP` loses nothing. -/
theorem feedAll_range_inj {c : Chk} {e e' : Nat → Chk} {j m : Nat} (hj : j < m)
    (hsame : ∀ k < m, k ≠ j → e' k = e k)
    (h : feedAll c ((List.range m).map e') = feedAll c ((List.range m).map e)) : e' j = e j := by
  induction m with
  | zero => omega
  | succ m ih =>
    simp only [List.range_succ, List.map_append, List.map_cons, List.map_nil, feedAll_append, feedAll_cons,
      feedAll_nil] at h
    by_cases hlast : j = m
    · subst hlast
      have hbefore : (List.range j).map e' = (List.range j).map e :=
        List.map_congr_left fun k hk => by
          have hk' := List.mem_range.mp hk
          exact hsame k (by omega) (by omega)
      rw [hbefore] at h
      exact (BitVec.xor_right_inj _).mp h
    · rw [hsame m (by omega) (Ne.symm hlast)] at h
      exact ih (by omega) (fun k hk => hsame k (by omega)) (chkStep_injective ((BitVec.xor_left_inj _).mp h))

theorem passOf_inj {h m j : Nat} {p e e' : Nat → Byte} (hj : j < m) (hsame : ∀ k < m, k ≠ j → e' k = e k)
    (hpass : passOf h p m e' = passOf h p m e) : e' j = e j := by
  have hwide : (e' j).setWidth 30 = (e j).setWidth 30 := by
    simp only [passOf, Machine.pass, List.map_map] at hpass
    exact feedAll_range_inj hj (fun k hk hne => congrArg (BitVec.setWidth 30) (hsame k hk hne)) hpass
  have hnat := congrArg BitVec.toNat hwide
  rw [BitVec.toNat_setWidth_of_le (by decide), BitVec.toNat_setWidth_of_le (by decide)] at hnat
  exact BitVec.eq_of_toNat_eq hnat

/-- A character of the alphabet is no separator, so a change of one to another leaves the separator where it was. -/
theorem separator_unique {s s' : State} {sep sep' q : Nat} {v' : Byte} (h : decodeLegal s sep)
    (h' : decodeLegal s' sep') (hslen : s'.slen = s.slen) (hq : sep < q)
    (hsame : ∀ i < s.slen.toNat, i ≠ q → cell s' .str i = cell s .str i)
    (hrev : rev (cell s' .str q) = some v') : sep' = sep := by
  obtain ⟨-, -, -, hsep, hone, hlast, -⟩ := h
  obtain ⟨-, -, -, hsep', hone', hlast', -⟩ := h'
  rw [hslen] at hsep' hlast'
  obtain hlt | heq | hlt := Nat.lt_trichotomy sep' sep
  · exact absurd ((hsame sep (by omega) (by omega)).trans hone) (hlast' sep (by omega) hlt)
  · exact heq
  · by_cases hq' : sep' = q
    · have hnone := rev_sepChar
      rw [← hq', hone'] at hrev
      rw [sepChar, hrev] at hnone
      cases hnone
    · exact absurd ((hsame sep' (by omega) hq').symm.trans hone') (hlast sep' (by omega) hlt)

/-- Settles O36: were the changed string valid too, it would have the same separator and the same pass, and then the
same value at the changed place. -/
theorem checksumRegionSubstitutionIsCaught : Obligations.ChecksumRegionSubstitutionIsCaught := by
  intro s s' sep q v v' hlegal hslen hqlo hqhi hsame hrev hrev' hne
  refine ⟨_, exec_decode s', ?_⟩
  rw [← Bool.not_eq_true, decode_ok_iff]
  rintro ⟨sep', hlegal'⟩
  obtain ⟨-, -, -, hsep, -, -, -, -, -, hpass⟩ := id hlegal
  obtain rfl := separator_unique hlegal hlegal' hslen (by omega) hsame hrev'
  obtain ⟨-, -, -, -, -, -, -, -, -, hpass'⟩ := hlegal'
  rw [hslen] at hpass'
  have hprefix := hpass'.symm.trans
    (passOf_congr (fun i hi => congrArg (fun c => lowered c) (hsame i (by omega) (by omega))) fun _ _ => rfl)
  have hchar : sep' + 1 + (q - (sep' + 1)) = q := by omega
  have hvalue := passOf_inj (j := q - (sep' + 1)) (by omega)
    (fun k hk hkne => congrArg revOr0 (hsame _ (by omega) (by omega))) (hprefix.symm.trans hpass.symm)
  rw [hchar, revOr0, revOr0, hrev, hrev'] at hvalue
  exact hne hvalue.symm

end Sys2Proof.CodecRoundTrip

/-! Regrouping there and back (R180, R190): the stream of the regrouped values is the stream of the inputs with the
padding's zeros, so the unpadded conversion back finds the inputs. -/

namespace Sys2Proof.ConverterRoundTrip

open Sys2Proof.Machine Sys2Proof.Claims Sys2Proof.CodecCommands Sys2Proof.ConverterCommand Sys2Proof.CommandEnds

/-! Streams as numbers -/

theorem stream_lt {inbits : Nat} {x : Nat → Byte} {n : Nat} (hx : ∀ i < n, (x i).toNat < 2 ^ inbits) :
    stream inbits x n < 2 ^ (n * inbits) := by
  induction n with
  | zero => simp [stream]
  | succ n ih =>
    have hhead := ih fun i hi => hx i (by omega)
    have hlast := hx n (by omega)
    calc stream inbits x n * 2 ^ inbits + (x n).toNat
        < stream inbits x n * 2 ^ inbits + 2 ^ inbits := by omega
      _ = (stream inbits x n + 1) * 2 ^ inbits := by ring
      _ ≤ 2 ^ (n * inbits) * 2 ^ inbits := Nat.mul_le_mul_right _ hhead
      _ = 2 ^ ((n + 1) * inbits) := by rw [← Nat.pow_add, Nat.add_mul, Nat.one_mul]

/-- Each value stands in the stream at its place (R180). -/
theorem stream_div_mod {inbits : Nat} {x : Nat → Byte} {n i : Nat} (hx : ∀ i < n, (x i).toNat < 2 ^ inbits)
    (hi : i < n) : stream inbits x n / 2 ^ (n * inbits - (i + 1) * inbits) % 2 ^ inbits = (x i).toNat := by
  induction n with
  | zero => omega
  | succ n ih =>
    have hlast := hx n (by omega)
    rw [stream, Nat.mul_comm]
    by_cases heq : i = n
    · subst heq
      rw [Nat.sub_self, Nat.pow_zero, Nat.div_one, Nat.mul_add_mod, Nat.mod_eq_of_lt hlast]
    · have hle : (i + 1) * inbits ≤ n * inbits := Nat.mul_le_mul_right _ (by omega)
      have hexp : (n + 1) * inbits - (i + 1) * inbits = inbits + (n * inbits - (i + 1) * inbits) := by
        rw [Nat.add_mul n]
        omega
      rw [hexp, Nat.pow_add, ← Nat.div_div_eq_div_mul, Nat.mul_add_div (Nat.two_pow_pos _), Nat.div_eq_of_lt hlast]
      exact ih (fun i hi => hx i (by omega)) (by omega)

/-- The stream of the first `j` whole groups of a number of `total` bits is what stands above them. -/
theorem stream_groups {outbits total v : Nat} {y : Nat → Byte} (hv : v < 2 ^ total) {j : Nat}
    (hj : j * outbits ≤ total)
    (hy : ∀ k < j, (y k).toNat = v / 2 ^ (total - (k + 1) * outbits) % 2 ^ outbits) :
    stream outbits y j = v / 2 ^ (total - j * outbits) := by
  induction j with
  | zero => simp [stream, Nat.div_eq_of_lt hv]
  | succ j ih =>
    have hle : j * outbits + outbits ≤ total := by rwa [← Nat.succ_mul]
    have hexp : total - j * outbits = total - (j + 1) * outbits + outbits := by
      rw [Nat.succ_mul]
      omega
    rw [stream, ih (by omega) (fun k hk => hy k (by omega)), hy j (by omega), hexp, Nat.pow_add,
      ← Nat.div_div_eq_div_mul, Nat.div_add_mod']

/-- The padded conversion makes the stream longer by zeros and changes nothing else (R186). -/
theorem stream_outValue {inbits outbits n : Nat} {x y : Nat → Byte} (ho : 1 ≤ outbits)
    (hx : ∀ i < n, (x i).toNat < 2 ^ inbits)
    (hy : ∀ j < outCount true inbits outbits n, (y j).toNat = outValue inbits outbits x n j) :
    stream outbits y (outCount true inbits outbits n) =
      stream inbits x n * 2 ^ (outCount true inbits outbits n * outbits - n * inbits) := by
  have hwhole : stream outbits y (n * inbits / outbits) =
      stream inbits x n / 2 ^ (n * inbits - n * inbits / outbits * outbits) :=
    stream_groups (stream_lt hx) (Nat.div_mul_le_self ..) fun k hk =>
      (hy k (hk.trans_le (Nat.le_add_right ..))).trans (if_pos ((group_le_total_iff ho _ _).mpr hk))
  have hmod : n * inbits - n * inbits / outbits * outbits = n * inbits % outbits := by
    have := Nat.div_add_mod' (n * inbits) outbits
    omega
  rw [hmod] at hwhole
  by_cases hleft : n * inbits % outbits = 0
  · have hcount : outCount true inbits outbits n = n * inbits / outbits := by simp [outCount, hleft]
    rw [hcount, hwhole, hleft, Nat.div_mul_cancel (Nat.dvd_of_mod_eq_zero hleft), Nat.sub_self]
    simp
  · have hcount : outCount true inbits outbits n = n * inbits / outbits + 1 := by simp [outCount, hleft]
    have hlast := (hy (n * inbits / outbits) (by omega)).trans (outValue_tail ho inbits x n)
    have hlt := Nat.mod_lt (n * inbits) ho
    have hpad : (n * inbits / outbits + 1) * outbits - n * inbits = outbits - n * inbits % outbits := by
      rw [Nat.succ_mul]
      omega
    have hsplit : 2 ^ outbits = 2 ^ (n * inbits % outbits) * 2 ^ (outbits - n * inbits % outbits) := by
      rw [← Nat.pow_add, Nat.add_sub_cancel' hlt.le]
    rw [hcount, stream, hwhole, hlast, hpad, hsplit, ← Nat.mul_assoc, ← Nat.add_mul, Nat.div_add_mod']

/-- A regrouped value has `outbits` bits (R188). -/
theorem outValue_lt {outbits : Nat} (ho : 1 ≤ outbits) (inbits : Nat) (x : Nat → Byte) (n j : Nat) :
    outValue inbits outbits x n j < 2 ^ outbits := by
  unfold outValue
  split
  · exact Nat.mod_lt _ (Nat.two_pow_pos _)
  · exact leftover_lt ho ..

/-! From 8 to 5 bits and back -/

/-- The padded symbols of `n` bytes have a clean tail, make `n` bytes, and these are the bytes (R190). -/
theorem regroup_back {n : Nat} {x y : Nat → Byte}
    (hy : ∀ j < outCount true 8 5 n, (y j).toNat = outValue 8 5 x n j) :
    cleanTail 5 8 y (outCount true 8 5 n) ∧ outCount false 5 8 (outCount true 8 5 n) = n ∧
      ∀ i < n, outValue 5 8 y (outCount true 8 5 n) i = (x i).toNat := by
  have hx : ∀ i < n, (x i).toNat < 2 ^ 8 := fun i _ => (x i).isLt
  have hstream := stream_outValue (by decide) hx hy
  have hcount : outCount true 8 5 n * 5 % 8 = outCount true 8 5 n * 5 - n * 8 ∧
      outCount true 8 5 n * 5 - n * 8 < 5 ∧ n * 8 ≤ outCount true 8 5 n * 5 := by
    simp only [outCount, true_and]
    split <;> omega
  obtain ⟨hmod, hlt, hle⟩ := hcount
  refine ⟨⟨by omega, ?_⟩, ?_, fun i hi => ?_⟩
  · rw [hstream, hmod, Nat.mul_mod_left]
  · simp only [outCount, Bool.false_eq_true, false_and, if_false] at hle hlt ⊢
    omega
  · have hexp : outCount true 8 5 n * 5 - (i + 1) * 8 = n * 8 - (i + 1) * 8 + (outCount true 8 5 n * 5 - n * 8) := by
      omega
    rw [outValue, if_pos (by omega), hstream, hexp, Nat.pow_add, Nat.mul_div_mul_right _ _ (Nat.two_pow_pos _)]
    exact stream_div_mod hx hi

/-! The statements -/

/-- `OK` set means that the inputs were legal (R182 to R186). -/
theorem convertLegal_of_ok {dir : Dir} {pad : Bool} {inb outb : BitVec 4} {s t : State}
    (hwf : (Instr.convert dir pad inb outb).wellFormed = true) (hexec : exec (.convert dir pad inb outb) s = .next t)
    (hok : t.ok = true) : convertLegal dir pad inb.toNat outb.toNat s := by
  obtain ⟨u, hexec', hiff, -⟩ := convertSucceedsExactlyOnLegalInputs dir pad inb outb s hwf
  exact legal_of_ok ⟨u, hexec', hiff⟩ hexec hok

/-- Settles O40: the symbols meet the conditions of the conversion back, and `regroup_back` says what it gives. -/
theorem convertBackGivesTheBytes : Obligations.ConvertBackGivesTheBytes := by
  intro s t t' hdlen hexec hok hdlen' hsym hblen hcap
  have hlegal := convertLegal_of_ok rfl hexec hok
  obtain ⟨u, hexec', -, hcount, hvalues, -⟩ := convertRegroupsTheStream .b2s true 8#4 5#4 s rfl hlegal
  obtain rfl := Host.Outcome.next.inj (hexec'.symm.trans hexec)
  obtain ⟨hin, -, hroom, -⟩ := hlegal
  replace hin : s.blen.toNat ≤ 128 := hin
  have hzero : (s.getReg8 (outLenOf .b2s)).toNat = 0 := congrArg BitVec.toNat hdlen
  rw [hzero, Nat.zero_add] at hcount hroom
  rw [hzero] at hvalues
  have hlen : t'.dlen.toNat = outCount true 8 5 s.blen.toNat := (congrArg BitVec.toNat hdlen').trans hcount
  have hsym' : ∀ j < outCount true 8 5 s.blen.toNat,
      (cell t' .sym j).toNat = outValue 8 5 (cell s .byte) s.blen.toNat j := by
    intro j hj
    have hval := hvalues j hj
    rw [Nat.zero_add] at hval
    rw [hsym j (hj.trans_eq hcount.symm)]
    exact hval
  obtain ⟨htail, hback, hbytes⟩ := regroup_back hsym'
  have hzero' : (t'.getReg8 (outLenOf .s2b)).toNat = 0 := congrArg BitVec.toNat hblen
  have hlen' : (t'.getReg8 (inLenOf .s2b)).toNat = outCount true 8 5 s.blen.toNat := hlen
  have hlegal' : convertLegal .s2b false 5 8 t' := by
    simp only [convertLegal, hzero', hlen', hback, Nat.zero_add]
    refine ⟨?_, fun j hj => ?_, .inr (le_min hcap hin), .inr htail⟩
    · obtain hnone | hfit := hroom
      · exact (le_of_eq hnone).trans (Nat.zero_le _)
      · exact hfit.trans (min_le_right ..)
    · exact (hsym' j hj).trans_lt (outValue_lt (by decide) ..)
  obtain ⟨u, hexec, hok, hblen', hvalues', -⟩ := convertRegroupsTheStream .s2b false 5#4 8#4 t' rfl hlegal'
  rw [hzero', hlen'] at hblen' hvalues'
  refine ⟨u, hexec, hok, BitVec.eq_of_toNat_eq ?_, fun i hi => BitVec.eq_of_toNat_eq ?_⟩
  · exact hblen'.trans ((Nat.zero_add _).trans hback)
  · have hval := hvalues' i (hi.trans_eq hback.symm)
    rw [Nat.zero_add] at hval
    exact hval.trans (hbytes i hi)

/-- Settles O41: the clean tail leaves fewer than 5 bits, and O37 counts the bytes. -/
theorem unpaddedFiveToEightNeedsWholeBytes : Obligations.UnpaddedFiveToEightNeedsWholeBytes := by
  intro s t hexec hok
  have hlegal := convertLegal_of_ok rfl hexec hok
  obtain ⟨u, hexec', -, hcount, -⟩ := convertRegroupsTheStream .s2b false 5#4 8#4 s rfl hlegal
  obtain rfl := Host.Outcome.next.inj (hexec'.symm.trans hexec)
  obtain ⟨-, -, -, hpad | ⟨hleft, -⟩⟩ := hlegal
  · cases hpad
  have hmod : s.dlen.toNat * 5 % 8 < 5 := hleft
  have hfive : outCount false 5 8 s.dlen.toNat = 5 * s.dlen.toNat / 8 := by
    rw [Nat.mul_comm]
    rfl
  refine ⟨?_, hcount.trans (congrArg (s.blen.toNat + ·) hfive)⟩
  simp only [List.mem_cons, List.not_mem_nil, or_false]
  omega

end Sys2Proof.ConverterRoundTrip

/-! The address wrapper's encoder (R201 to R203): when `ADDR.ENC` succeeds, and what its two stages leave. -/

namespace Sys2Proof.AddressEncoder

open Sys2Proof.Machine Sys2Proof.Claims Sys2Proof.CodecCommands Sys2Proof.ConverterCommand
  Sys2Proof.CodecRoundTrip Sys2Proof.ConverterRoundTrip

/-! The conversion stage -/

/-- The symbols of the bytes in BYTE (R180). -/
def payloadSymbols (s : State) : List Byte := convertValues true 8 5 (s.span .byte s.blen.toNat)

@[simp] theorem length_payloadSymbols (s : State) : (payloadSymbols s).length = outCount true 8 5 s.blen.toNat := by
  rw [payloadSymbols, length_convertValues, State.length_span]
  rfl

/-- `s` with its bytes regrouped to symbols from the start of SYM up and counted (R201). -/
def staged (s : State) : State :=
  ((s.setReg8 .dlen 0).writeSpan .sym 0 (payloadSymbols s)).setReg8 .dlen
    (BitVec.ofNat 8 (outCount true 8 5 s.blen.toNat))

/-- 64 symbols are 40 bytes. -/
theorem outCount_le_stageCap_iff (n : Nat) : outCount true 8 5 n ≤ 64 ↔ n ≤ 40 := by
  simp only [outCount, true_and]
  split <;> omega

/-- Every byte is in range and padding leaves no tail over, so the conversion of bytes can fail on nothing but the
wrapper's capacity (R201, R202). -/
theorem convertBytes_eq_ok_iff (s t : State) :
    (s.setReg8 .dlen 0).convertAttempt .b2s true 8 5 64 = .ok t ↔ s.blen.toNat ≤ 40 ∧ t = staged s := by
  have hin : (s.setReg8 .dlen 0).getReg8 (Dir.inLen .b2s) = s.blen := State.getReg8_setReg8 ..
  have hout : (s.setReg8 .dlen 0).getReg8 (Dir.outLen .b2s) = 0 := State.getReg8_setReg8 ..
  have hspan : (s.setReg8 .dlen 0).span (Dir.source .b2s) s.blen.toNat = s.span .byte s.blen.toNat :=
    State.span_congr fun i _ => State.readByte_setReg8 ..
  have hzero : (0 : Byte).toNat = 0 := rfl
  have hcount : convertCount true 8 5 s.blen.toNat = outCount true 8 5 s.blen.toNat := rfl
  have hcap := outCount_le_stageCap_iff s.blen.toNat
  rw [State.convertAttempt_eq_ok .b2s true (by decide), hin, hout, hspan, hcount, ← payloadSymbols, hzero, Nat.zero_add]
  constructor
  · rintro ⟨-, -, hfits, -, rfl⟩
    exact ⟨by omega, rfl⟩
  · rintro ⟨hlen, rfl⟩
    exact ⟨by omega, fun x _ => x.isLt, by omega, .inl rfl, rfl⟩

section
variable {s : State} (hlen : s.blen.toNat ≤ 40)
include hlen

theorem readByte_staged (a : Nat) :
    (staged s).readByte a = if inSpan .sym 0 (outCount true 8 5 s.blen.toNat) a then
      (payloadSymbols s).getD (a - Region.sym.base) 0#8 else s.readByte a := by
  have hcap := (outCount_le_stageCap_iff s.blen.toNat).mpr hlen
  rw [staged, State.readByte_setReg8, State.readByte_writeSpan _ _ _ _ _ (by rw [length_payloadSymbols]; omega),
    length_payloadSymbols, State.readByte_setReg8]
  rfl

theorem dlen_staged : (staged s).dlen.toNat = outCount true 8 5 s.blen.toNat := by
  have hcap := (outCount_le_stageCap_iff s.blen.toNat).mpr hlen
  simp only [staged, State.setReg8_dlen, if_true, BitVec.toNat_ofNat]
  omega

theorem sym_staged {j : Nat} (hj : j < outCount true 8 5 s.blen.toNat) :
    (cell (staged s) .sym j).toNat = outValue 8 5 (cell s .byte) s.blen.toNat j := by
  rw [cell, readByte_staged hlen, if_pos ⟨by omega, by omega⟩, Nat.add_sub_cancel_left]
  exact toNat_getD_convertValues s .byte true 8 _ (by decide) (by decide) hj

theorem readByte_staged_of_not_sym {a : Nat} (ha : ¬inSpan .sym 0 (outCount true 8 5 s.blen.toNat) a) :
    (staged s).readByte a = s.readByte a := (readByte_staged hlen a).trans (if_neg ha)

theorem hrp_staged {i : Nat} (hi : i < 128) : cell (staged s) .hrp i = cell s .hrp i := by
  refine readByte_staged_of_not_sym hlen ?_
  simp only [inSpan, Region.base]
  omega

end

theorem hlen_staged (s : State) : (staged s).hlen = s.hlen := by simp [staged]

/-- The encoder's conditions on the staged symbols are R202's. -/
theorem encodeLegal_staged_iff {s : State} (hlen : s.blen.toNat ≤ 40) :
    encodeLegal (staged s) ↔ encodePrefix s ∧ s.hlen.toNat + 7 + outCount true 8 5 s.blen.toNat ≤ 90 := by
  have hsym : ∀ j < outCount true 8 5 s.blen.toNat, (cell (staged s) .sym j).toNat < 32 :=
    fun j hj => (sym_staged hlen hj).trans_lt (outValue_lt (by decide) ..)
  rw [encodeLegal, encodePrefix, hlen_staged, dlen_staged hlen]
  constructor
  · rintro ⟨⟨hpos, hprefix⟩, hstr, -⟩
    exact ⟨⟨hpos, fun i hi => hrp_staged hlen (i := i) (by omega) ▸ hprefix i hi⟩, hstr⟩
  · rintro ⟨⟨hpos, hprefix⟩, hstr⟩
    exact ⟨⟨hpos, fun i hi => (hrp_staged hlen (i := i) (by omega)).symm ▸ hprefix i hi⟩, hstr, hsym⟩

/-! The whole command -/

/-- `ADDR.ENC`'s success in the conditions of R201 and R202: the staged state is one that `ENCODE` accepts. -/
theorem addrEncLegal_iff (s : State) : addrEncLegal s ↔ s.blen.toNat ≤ 40 ∧ encodeLegal (staged s) :=
  and_congr_right fun hlen => (encodeLegal_staged_iff hlen).symm

theorem addrEncAttempt_eq_ok_iff (s t : State) :
    s.addrEncAttempt = .ok t ↔ s.blen.toNat ≤ 40 ∧ (staged s).encodeAttempt = .ok t := by
  simp only [State.addrEncAttempt_eq_ok, convertBytes_eq_ok_iff, and_assoc, exists_and_left, exists_eq_left]

/-- Settles O44: the attempt succeeds exactly where the staged state is one that `ENCODE` accepts. -/
theorem addrEncSucceedsExactlyOnLegalInputs : Obligations.AddrEncSucceedsExactlyOnLegalInputs := by
  refine fun s => ⟨_, exec_addrEnc s, ?_⟩
  simp only [State.complete_ok, addrEncAttempt_eq_ok_iff, encodeAttempt_eq_ok_iff, exists_and_left, exists_eq, and_true,
    ← addrEncLegal_iff]

/-- From legal inputs `ADDR.ENC` answers what `ENCODE` answers from the staged state (R201). -/
theorem exec_addrEnc_of_legal {s : State} (h : addrEncLegal s) : exec .addrEnc s = exec .encode (staged s) := by
  obtain ⟨hlen, henc⟩ := (addrEncLegal_iff s).mp h
  have hattempt := (encodeAttempt_eq_ok_iff (staged s) _).mpr ⟨henc, rfl⟩
  rw [exec_encode_of_legal henc, exec_addrEnc, (addrEncAttempt_eq_ok_iff s _).mpr ⟨hlen, hattempt⟩, State.complete]

/-- Settles O43: each clause is what O30 says from the staged state, or what the conversion stage left there. -/
theorem addrEncWritesSymbolsAndString : Obligations.AddrEncWritesSymbolsAndString := by
  intro s hlegal h n
  obtain ⟨hlen, henc⟩ := (addrEncLegal_iff s).mp hlegal
  obtain ⟨-, -, hstrlen⟩ := id hlegal
  obtain ⟨t, hexec, hok, hslen, hchk, hpre, hsep, hdata, hcheck, hterm, hrest, hregs, hhflt, hhost, hdraws⟩ :=
    encodeWritesTheString (staged s) henc
  have hn := dlen_staged hlen
  rw [hlen_staged, hn] at hslen hchk hterm hrest
  rw [hlen_staged] at hpre hsep hdata hcheck
  rw [hn] at hdata hcheck
  have hsym : ∀ j < n, cell t .sym j = cell (staged s) .sym j := fun j hj => hrest _ (by
    simp only [inSpan, Region.base]
    omega)
  have hhrp : ∀ i < h, cell (staged s) .hrp i = cell s .hrp i := fun i hi => hrp_staged hlen (by omega)
  refine ⟨t, (exec_addrEnc_of_legal hlegal).trans hexec, hok, ?dlen, hslen, ?sym, ?chk, ?pre, hsep, ?data, hcheck,
    hterm, ?rest, ?regs, ?hflt, ?host, ?draws⟩
  case dlen => exact (congrArg BitVec.toNat (hregs .dlen (by decide))).trans hn
  case sym =>
    intro j hj
    rw [hsym j hj]
    exact sym_staged hlen hj
  case chk =>
    refine hchk.trans (congrArg (· ^^^ 1#30) (passOf_congr hhrp fun j _ => ?_))
    by_cases hj : j < n
    · rw [if_pos hj, if_pos hj, hsym j hj]
    · rw [if_neg hj, if_neg hj]
  case pre => exact fun i hi => (hpre i hi).trans (hhrp i hi)
  case data =>
    intro j hj
    rw [hsym j hj]
    exact hdata j hj
  case rest => exact fun a hsym hstr => (hrest a hstr).trans (readByte_staged_of_not_sym hlen hsym)
  case regs =>
    intro r hr
    simp only [List.mem_cons, List.not_mem_nil, or_false, not_or] at hr
    exact (hregs r (by simpa using hr.2)).trans (by simp [staged, hr.1])
  case hflt => exact hhflt.trans (by simp [staged])
  case host => simpa [sameHost, staged] using hhost
  case draws => simpa [sameDraws, staged] using hdraws

end Sys2Proof.AddressEncoder

/-! The address wrapper's decoder (R204 to R208): what `ADDR.DEC` leaves, and that it undoes `ADDR.ENC` (R209). -/

namespace Sys2Proof.AddressDecoder

open Sys2Proof.Machine Sys2Proof.Claims Sys2Proof.CodecCommands Sys2Proof.ConverterCommand Sys2Proof.CommandEnds
  Sys2Proof.AddressCommands Sys2Proof.CodecRoundTrip Sys2Proof.ConverterRoundTrip Sys2Proof.AddressEncoder

/-! The conversion stage -/

theorem readByte_regrouped {s : State} (hlen : s.dlen.toNat ≤ 64) {a : Nat}
    (ha : ¬inSpan .byte 0 (s.dlen.toNat * 5 / 8) a) : (regrouped s).readByte a = s.readByte a := by
  rw [regrouped, State.readByte_setReg8, State.readByte_writeSpan _ _ _ _ _ (by rw [length_payloadBytes]; omega),
    length_payloadBytes, State.readByte_setReg8]
  exact if_neg ha

theorem blen_regrouped {s : State} (hlen : s.dlen.toNat ≤ 64) :
    (regrouped s).blen.toNat = s.dlen.toNat * 5 / 8 := by
  simp only [regrouped, State.setReg8_blen, if_true, BitVec.toNat_ofNat]
  omega

theorem getReg8_regrouped (s : State) {r : Reg8} (hr : r ≠ .blen) : (regrouped s).getReg8 r = s.getReg8 r := by
  simp [regrouped, hr]

/-! The whole command -/

/-- From legal inputs `ADDR.DEC` answers the decoded state with its payload regrouped (R204). -/
theorem exec_addrDec_of_legal {s : State} {sep : Nat} (h : addrDecLegal s sep) :
    exec .addrDec s = .next (regrouped (decoded s sep)).succeed := by
  rw [exec_addrDec, (addrDecAttempt_eq_ok_iff s _).mpr ⟨sep, h, rfl⟩, State.complete]

/-- Settles O46: each clause is what O32 says of the decoding stage, or what the conversion stage left. -/
theorem addrDecRecoversTheBytes : Obligations.AddrDecRecoversTheBytes := by
  intro s sep hlegal d e
  obtain ⟨hdec, -, hd64, -⟩ := id hlegal
  obtain ⟨-, hslen, -, hseple, -⟩ := id hdec
  obtain ⟨t, hexec, -, hhlen, hdlen, hchk, hpre, hterm, -, hrest, hregs, hhflt, hhost, hdraws⟩ :=
    decodeRecoversPrefixAndData s sep hdec
  obtain rfl := Host.Outcome.next.inj ((exec_decode_of_legal hdec).symm.trans hexec)
  obtain ⟨-, -, -, -, -, hsym⟩ := decoded_inputs hdec
  have hdlen' : (decoded s sep).dlen.toNat = d := hdlen
  have hlen : (decoded s sep).dlen.toNat ≤ 64 := hdlen'.trans_le hd64
  have hcount : (decoded s sep).dlen.toNat * 5 / 8 = 5 * d / 8 := by rw [hdlen', Nat.mul_comm]
  have hframe : ∀ a, ¬inSpan .byte 0 (5 * d / 8) a →
      (regrouped (decoded s sep)).readByte a = (decoded s sep).readByte a :=
    fun a ha => readByte_regrouped hlen (hcount ▸ ha)
  have houtside : ∀ r i, r ≠ .byte → i < 128 → cell (regrouped (decoded s sep)) r i = cell (decoded s sep) r i := by
    intro r i hr hi
    refine hframe _ ?_
    cases r with
    | byte => exact absurd rfl hr
    | _ =>
      simp only [inSpan, Region.base]
      omega
  refine ⟨_, exec_addrDec_of_legal hlegal, rfl, ?hlen, ?dlen, ?blen, ?chk, ?pre, ?term, ?syms, ?bytes, ?rest, ?regs,
    ?hflt, ?host, ?draws⟩
  case hlen => exact (congrArg BitVec.toNat (getReg8_regrouped _ (r := .hlen) (by decide))).trans hhlen
  case dlen => exact (congrArg BitVec.toNat (getReg8_regrouped _ (r := .dlen) (by decide))).trans hdlen
  case blen => exact (blen_regrouped hlen).trans hcount
  case chk => simpa [regrouped, decoded] using hchk
  case pre => exact fun i hi => (houtside .hrp i (by decide) (by omega)).trans (hpre i hi)
  case term => exact (houtside .hrp sep (by decide) (by omega)).trans hterm
  case syms => exact fun j hj => (houtside .sym j (by decide) (by omega)).trans (hsym j hj).1
  case bytes =>
    intro j hj
    refine (toNat_byte_regrouped hlen (hj.trans_eq hcount.symm)).trans ?_
    have hstream := stream_congr (inbits := 5) fun j hj => (hsym j hj).1
    simp only [outValue, hdlen']
    rw [hstream]
  case rest => exact fun a hhrp hsym hbyte => (hframe a hbyte).trans (hrest a hhrp hsym)
  case regs =>
    intro r hr
    simp only [List.mem_cons, List.not_mem_nil, or_false, not_or] at hr
    obtain ⟨hr₁, hr₂, hr₃⟩ := hr
    refine (State.getReg8_succeed ..).trans ((getReg8_regrouped _ hr₃).trans ?_)
    exact (State.getReg8_succeed ..).symm.trans (hregs r (by simp [hr₁, hr₂]))
  case hflt => simpa [regrouped, decoded] using hhflt
  case host => simpa [sameHost, regrouped, decoded] using hhost
  case draws => simpa [sameDraws, regrouped, decoded] using hdraws

/-- Settles O49: at most 64 symbols make at most 40 bytes, a clean tail leaves at least one, and the first is 0. -/
theorem acceptedAddressHasAZeroDiscriminant : Obligations.AcceptedAddressHasAZeroDiscriminant := by
  intro s t hexec hok
  obtain ⟨sep, hlegal⟩ := legal_of_ok (addrDecSucceedsExactlyOnLegalInputs s) hexec hok
  obtain ⟨-, hpos, hd64, helen, hprefix, ⟨hleft, -⟩, hzero⟩ := id hlegal
  obtain ⟨u, hexec', -, hhlen, -, hblen, -, hpre, -, -, hbyte, -⟩ := addrDecRecoversTheBytes s sep hlegal
  obtain rfl := Host.Outcome.next.inj (hexec'.symm.trans hexec)
  have hone : 1 ≤ 5 * (s.slen.toNat - 7 - sep) / 8 := by
    rw [Nat.mul_comm]
    omega
  refine ⟨hblen ▸ hone, by omega, ?_, BitVec.eq_of_toNat_eq (hhlen.trans helen.symm), fun i hi => ?_⟩
  · exact BitVec.eq_of_toNat_eq ((hbyte 0 hone).trans hzero)
  · rw [helen] at hi
    exact (hpre i hi).trans (hprefix i hi)

/-! The round trip of addresses -/

/-- Settles O50: the decoding stage undoes the encoding stage (O34), and the conversion of the symbols undoes that of
the bytes (`regroup_back`). -/
theorem addressRoundTrip : Obligations.AddressRoundTrip := by
  intro s t t' hexec hok hblen hfirst hslen hstr helen hexp
  have hlegal := legal_of_ok (addrEncSucceedsExactlyOnLegalInputs s) hexec hok
  obtain ⟨hlen, henc⟩ := (addrEncLegal_iff s).mp hlegal
  obtain ⟨-, -, hstrlen⟩ := id hlegal
  rw [exec_addrEnc_of_legal hlegal] at hexec
  obtain ⟨u, hdec, hdecok, hhlen, hdlen, hhrp, hsym⟩ := decodeInvertsEncode (staged s) t t' hexec hok hslen hstr
  obtain ⟨sep, hdeclegal⟩ := legal_of_ok (decodeSucceedsExactlyOnValidStrings t') hdec hdecok
  obtain rfl := Host.Outcome.next.inj ((exec_decode_of_legal hdeclegal).symm.trans hdec)
  replace hhlen : (decoded t' sep).hlen = s.hlen := hhlen.trans (hlen_staged s)
  replace hdlen : (decoded t' sep).dlen.toNat = outCount true 8 5 s.blen.toNat :=
    (congrArg BitVec.toNat hdlen).trans (dlen_staged hlen)
  have hsym' : ∀ j < outCount true 8 5 s.blen.toNat,
      (cell (decoded t' sep) .sym j).toNat = outValue 8 5 (cell s .byte) s.blen.toNat j := fun j hj =>
    (congrArg BitVec.toNat (hsym j (hj.trans_eq (dlen_staged hlen).symm))).trans (sym_staged hlen hj)
  have hhrp' : ∀ i < s.hlen.toNat, cell (decoded t' sep) .hrp i = cell s .hrp i := fun i hi =>
    (hhrp i (by rwa [hlen_staged])).trans (hrp_staged hlen (by omega))
  obtain ⟨htail, hback, hbytes⟩ := regroup_back hsym'
  have hd64 := (outCount_le_stageCap_iff s.blen.toNat).mpr hlen
  have hpre : (decoded t' sep).prefixMatches = true := by
    obtain ⟨hsep, -, -, hlow, -⟩ := decoded_inputs hdeclegal
    rw [hhlen] at hsep
    rw [prefixMatches_decoded_iff hdeclegal, helen]
    refine ⟨hsep, fun i hi => ?_⟩
    rw [← hlow i hi, hhrp' i (by omega), hexp i (by omega)]
  rw [outCount_payload] at hback
  have hdeclegal' : addrDecLegal t' sep := by
    rw [addrDecLegal_iff hdeclegal, hdlen]
    exact ⟨by omega, hd64, hpre, htail, (hbytes 0 hblen).trans (congrArg BitVec.toNat hfirst)⟩
  have hd64' : (decoded t' sep).dlen.toNat ≤ 64 := hdlen.trans_le hd64
  refine ⟨_, exec_addrDec_of_legal hdeclegal', rfl, BitVec.eq_of_toNat_eq ?blen, ?hlen, fun i hi => ?pre,
    fun i hi => BitVec.eq_of_toNat_eq ?bytes⟩
  case blen =>
    refine (blen_regrouped hd64').trans ?_
    rw [hdlen, hback]
  case hlen => exact (getReg8_regrouped _ (r := .hlen) (by decide)).trans hhlen
  case pre =>
    refine (readByte_regrouped hd64' ?_).trans (hhrp' i hi)
    simp only [inSpan, Region.base]
    omega
  case bytes =>
    refine (toNat_byte_regrouped hd64' ?_).trans ?_
    · rwa [hdlen, hback]
    · rw [hdlen]
      exact hbytes i hi

end Sys2Proof.AddressDecoder

/-! What no attempt reads or writes: `OK` (R29) and, but for the capacity of `CONVERT`, `CCAP` (R30). The commands that
are sequences of others (R209) follow, since the sequences differ from them in these two registers only. -/

namespace Sys2Proof.UnreadRegisters

open Sys2Proof.Machine Sys2Proof.Claims Sys2Proof.HostFaults Sys2Proof.WordNumbers Sys2Proof.CommandEnds
  Sys2Proof.Invariant Sys2Proof.Encoding

/-- An update of the state that neither changes what an attempt reads nor touches what it writes. -/
structure Transparent (f : State → State) : Prop where
  readByte : ∀ s a, (f s).readByte a = s.readByte a
  getReg8 : ∀ s r, r ≠ .ccap → (f s).getReg8 r = s.getReg8 r
  setChk : ∀ v s, (f s).setChk v = f (s.setChk v)
  setReg8 : ∀ r v s, r ≠ .ccap → (f s).setReg8 r v = f (s.setReg8 r v)
  writeByte : ∀ a v s, (f s).writeByte a v = f (s.writeByte a v)

theorem transparent_setOk (b : Bool) : Transparent (State.setOk b) where
  readByte _ _ := rfl
  getReg8 _ r _ := by cases r <;> rfl
  setChk _ _ := rfl
  setReg8 r _ _ _ := by cases r <;> rfl
  writeByte a _ _ := by
    unfold State.writeByte
    cases Region.ofAddr a <;> rfl

theorem transparent_setCcap (c : Byte) : Transparent (State.setReg8 .ccap c) where
  readByte _ _ := State.readByte_setReg8 ..
  getReg8 _ r hr := by simp [hr]
  setChk _ _ := rfl
  setReg8 r _ _ hr := by
    cases r with
    | ccap => exact absurd rfl hr
    | _ => rfl
  writeByte a _ _ := by
    unfold State.writeByte
    cases Region.ofAddr a <;> rfl

theorem Transparent.comp {f g : State → State} (hf : Transparent f) (hg : Transparent g) : Transparent (f ∘ g) where
  readByte s a := (hf.readByte _ a).trans (hg.readByte s a)
  getReg8 s r hr := (hf.getReg8 _ r hr).trans (hg.getReg8 s r hr)
  setChk v s := (hf.setChk v _).trans (congrArg f (hg.setChk v s))
  setReg8 r v s hr := (hf.setReg8 r v _ hr).trans (congrArg f (hg.setReg8 r v s hr))
  writeByte a v s := (hf.writeByte a v _).trans (congrArg f (hg.writeByte a v s))

theorem map_eq_ok {f : State → State} {x : Except Cause State} {t : State} (h : x.map f = .ok t) :
    ∃ u, x = .ok u ∧ f u = t := by
  cases x with
  | ok u => exact ⟨u, rfl, Except.ok.inj h⟩
  | error c => cases h

namespace Transparent

variable {f : State → State} (hf : Transparent f)
include hf

theorem span (s : State) (r : Region) (n : Nat) : (f s).span r n = s.span r n :=
  State.span_congr fun i _ => hf.readByte s (r.base + i)

theorem writeSpan (r : Region) (i : Nat) (bs : List Byte) (s : State) :
    (f s).writeSpan r i bs = f (s.writeSpan r i bs) := by
  induction bs generalizing i s with
  | nil => rfl
  | cons b bs ih => rw [State.writeSpan, State.writeSpan, hf.writeByte, ih]

theorem putString (p d : List Byte) (s : State) : (f s).putString p d = f (s.putString p d) := by
  simp only [State.putString]
  rw [hf.writeSpan, hf.setReg8 _ _ _ (by decide), hf.setChk]

theorem putParsed (p syms : List Byte) (s : State) : (f s).putParsed p syms = f (s.putParsed p syms) := by
  simp only [State.putParsed]
  rw [hf.setChk, hf.writeSpan, hf.writeSpan, hf.setReg8 _ _ _ (by decide), hf.setReg8 _ _ _ (by decide)]

theorem encodeAttempt (s : State) : (f s).encodeAttempt = s.encodeAttempt.map f := by
  have hhlen : (f s).hlen = s.hlen := hf.getReg8 s .hlen (by decide)
  have hdlen : (f s).dlen = s.dlen := hf.getReg8 s .dlen (by decide)
  simp only [State.encodeAttempt, hhlen, hdlen, hf.span, hf.putString]
  split
  · rfl
  · split
    · rfl
    · cases prefixFault (s.span .hrp s.hlen.toNat) with
      | some c => rfl
      | none => simp only; split <;> rfl

theorem decodeAttempt (s : State) : (f s).decodeAttempt = s.decodeAttempt.map f := by
  have hslen : (f s).slen = s.slen := hf.getReg8 s .slen (by decide)
  simp only [State.decodeAttempt, hslen, hf.span, hf.putParsed]
  split
  · rfl
  · cases parseString (s.span .str s.slen.toNat) <;> rfl

theorem convertAttempt (dir : Dir) (pad : Bool) (inbits outbits room : Nat) (s : State) :
    (f s).convertAttempt dir pad inbits outbits room = (s.convertAttempt dir pad inbits outbits room).map f := by
  have hin : Dir.inLen dir ≠ .ccap := by cases dir <;> decide
  have hout : Dir.outLen dir ≠ .ccap := by cases dir <;> decide
  simp only [State.convertAttempt, hf.getReg8 _ _ hin, hf.getReg8 _ _ hout, hf.span, hf.writeSpan,
    hf.setReg8 _ _ _ hout]
  split
  · rfl
  · cases regroup pad inbits outbits _ room _ <;> rfl

theorem addrEncAttempt (s : State) : (f s).addrEncAttempt = s.addrEncAttempt.map f := by
  rw [State.addrEncAttempt, State.addrEncAttempt, hf.setReg8 _ _ _ (by decide), hf.convertAttempt]
  cases (s.setReg8 .dlen 0).convertAttempt .b2s true 8 5 stageCap with
  | error c => rfl
  | ok t => exact hf.encodeAttempt t

theorem prefixMatches (s : State) : (f s).prefixMatches = s.prefixMatches := by
  have hhlen : (f s).hlen = s.hlen := hf.getReg8 s .hlen (by decide)
  have helen : (f s).elen = s.elen := hf.getReg8 s .elen (by decide)
  simp only [State.prefixMatches, hhlen, helen, hf.span]

theorem acceptPayload (s : State) : (f s).acceptPayload = s.acceptPayload.map f := by
  have hdlen : (f s).dlen = s.dlen := hf.getReg8 s .dlen (by decide)
  simp only [State.acceptPayload, hdlen, hf.prefixMatches, hf.setReg8 .blen _ _ (by decide), hf.convertAttempt]
  split
  · rfl
  · split
    · rfl
    · cases (s.setReg8 .blen 0).convertAttempt .s2b false 5 8 stageCap with
      | error c => rfl
      | ok t =>
        simp only [Except.map, hf.readByte]
        split <;> rfl

theorem addrDecAttempt (s : State) : (f s).addrDecAttempt = s.addrDecAttempt.map f := by
  rw [State.addrDecAttempt, State.addrDecAttempt, hf.decodeAttempt]
  cases s.decodeAttempt with
  | error c => rfl
  | ok t => exact hf.acceptPayload t

end Transparent

/-! `OK` -/

theorem attempt_setOk (b : Bool) (i : Instr) (s : State) :
    attempt i (s.setOk b) = (attempt i s).map (State.setOk b) := by
  have hf := transparent_setOk b
  cases i with
  | encode => exact hf.encodeAttempt s
  | decode => exact hf.decodeAttempt s
  | convert dir pad inb outb => exact hf.convertAttempt dir pad inb.toNat outb.toNat s.convertCap s
  | addrEnc => exact hf.addrEncAttempt s
  | addrDec => exact hf.addrDecAttempt s
  | _ => rfl

/-- No command reads `OK`, and every command writes it (R29, R220). -/
theorem exec_setOk {i : Instr} (hwf : i.wellFormed = true) (b : Bool) (s : State) : exec i (s.setOk b) = exec i s := by
  rw [exec_eq_complete hwf, exec_eq_complete hwf, attempt_setOk]
  cases attempt i s <;> rfl

/-- A buffer or register access leaves `OK` (R29). -/
theorem ok_of_perform_access {x : Transaction} (hcmd : isCmd x = false) (hx : x ≠ .reset) {s u : State}
    (h : s.perform x = .next u) : u.ok = s.ok := by
  cases performs_of_perform h with
  | leave => rfl
  | accessFault hr => exact (State.raiseHostFault_ok ..).trans (if_neg hr)
  | writeByte => exact State.writeByte_ok ..
  | setChk => rfl
  | setReg8 => exact State.setReg8_ok ..
  | command => cases hcmd
  | illegal => cases hcmd
  | reset => exact absurd rfl hx

/-- Settles O16: accesses leave `OK`, reset and an illegal word clear it, and `exec_setOk` says that a command does not
read it. -/
theorem okDescribesTheMostRecentCommand : Obligations.OkDescribesTheMostRecentCommand := by
  intro s t x hnext hstep
  obtain ⟨u, hperform, hfinish⟩ := step_performs hnext
  obtain rfl := Host.Outcome.next.inj (hfinish.symm.trans hstep)
  refine ⟨fun hcmd hx => (State.finish_ok ..).trans (ok_of_perform_access hcmd hx hperform), ?_, ?_, ?_⟩
  · rintro rfl
    obtain rfl := Host.Outcome.next.inj hperform
    rfl
  · rintro w rfl hw
    obtain rfl := Host.Outcome.next.inj ((perform_illegalWord hw s).symm.trans hperform)
    rfl
  · rintro w i rfl hd
    rw [State.perform, State.runCmd, hd] at hperform
    exact ⟨⟨u, hperform, rfl⟩, fun b => exec_setOk (wellFormed_of_decode hd) b s⟩

/-! `CCAP` -/

/-- An attempt that does not depend on `CCAP` keeps it. -/
theorem ccap_of_attempt {a : State → Except Cause State}
    (ha : ∀ c s, a (s.setReg8 .ccap c) = (a s).map (State.setReg8 .ccap c)) {s t : State} (h : a s = .ok t) :
    t.ccap = s.ccap := by
  have hself := ha s.ccap s
  rw [show s.setReg8 .ccap s.ccap = s from rfl, h] at hself
  have heq : t = t.setReg8 .ccap s.ccap := Except.ok.inj hself
  rw [heq]
  rfl

/-- A failure that does not have `CCAP` among its outputs leaves it as the host wrote it. -/
theorem fail_setCcap {o : Outputs} (ho : .ccap ∉ o.regs) (cause : Cause) (c : Byte) (s : State) :
    (s.setReg8 .ccap c).fail o cause = (s.fail o cause).setReg8 .ccap c := by
  simp [State.fail, State.setReg8, State.regAfterFail, State.getReg8, ho]

theorem complete_setCcap {o : Outputs} (ho : .ccap ∉ o.regs) (a : Except Cause State) (c : Byte) (s : State) :
    (s.setReg8 .ccap c).complete o (a.map (State.setReg8 .ccap c)) = (s.complete o a).setReg8 .ccap c := by
  cases a with
  | ok t => rfl
  | error cause => exact fail_setCcap ho cause c s

/-- A term of `CONVERT`, legal or not, treats capacities of 128 and more alike (R30). -/
theorem exec_convert_setCcap (dir : Dir) (pad : Bool) (inb outb : BitVec 4) {c : Byte} {s : State}
    (hcap : (s.setReg8 .ccap c).convertCap = s.convertCap) {t : State}
    (h : exec (.convert dir pad inb outb) s = .next t) :
    exec (.convert dir pad inb outb) (s.setReg8 .ccap c) = .next (t.setReg8 .ccap c) := by
  have ho : Reg8.ccap ∉ (convertOutputs dir).regs := by cases dir <;> decide
  cases hwf : (Instr.convert dir pad inb outb).wellFormed with
  | true =>
    rw [exec_convert _ _ _ _ _ hwf] at h ⊢
    cases h
    rw [hcap, (transparent_setCcap c).convertAttempt, complete_setCcap ho]
  | false =>
    rw [exec_convert_illegal hwf] at h ⊢
    cases h
    rfl

/-- Settles O42: from 128 up the capacity is 128, and no attempt but `CONVERT`'s reads `CCAP`. -/
theorem capacityRegisterBoundsTheConverterOnly : Obligations.CapacityRegisterBoundsTheConverterOnly := by
  refine ⟨rfl, fun dir pad inb outb s t c hc hexec => ?_, fun i s t c hi hexec => ?_⟩
  · have hcap : min c.toNat 128 = min (128#8).toNat 128 := min_eq_right hc
    exact exec_convert_setCcap dir pad inb outb (s := { s with ccap := 128#8 }) hcap hexec
  · obtain rfl | rfl := hi
    · cases hexec
      refine congrArg Host.Outcome.next (Eq.trans ?_ (complete_setCcap (by decide) _ c s))
      rw [← (transparent_setCcap c).addrEncAttempt]
      rfl
    · cases hexec
      refine congrArg Host.Outcome.next (Eq.trans ?_ (complete_setCcap (by decide) _ c s))
      rw [← (transparent_setCcap c).addrDecAttempt]
      rfl

/-! The wrappers as command sequences (R209) -/

/-- The host's preparation of the capacity for a stage of the wrapper, `OK` being set by the stage before it. -/
def hostStage : State → State := State.setReg8 .ccap 64#8 ∘ State.setOk true

theorem transparent_hostStage : Transparent hostStage := (transparent_setCcap _).comp (transparent_setOk _)

/-- Once the host puts `CCAP` back, a success of a prepared stage is a success of the wrapper's own. -/
theorem succeed_hostStage {c : Byte} {t : State} (h : t.ccap = c) :
    t.succeed = { (hostStage t).succeed with ccap := c } := by
  subst h
  rfl

/-- Settles O45: the two stages of the sequence succeed with the wrapper's, which do not see the host's capacity. -/
theorem addrEncEqualsItsCommandSequence : Obligations.AddrEncEqualsItsCommandSequence := by
  intro s t u hconv htok henc huok
  obtain ⟨t₀, hattempt, rfl⟩ := succeeds_of_ok rfl hconv htok
  obtain ⟨u₀, hencode, rfl⟩ := succeeds_of_ok rfl henc huok
  have hcap : ((s.setReg8 .dlen 0).convertAttempt .b2s true 8 5 64).map (State.setReg8 .ccap 64#8) = .ok t₀ :=
    ((transparent_setCcap 64#8).convertAttempt ..).symm.trans hattempt
  obtain ⟨x, hx, rfl⟩ := map_eq_ok hcap
  obtain ⟨y, hy, rfl⟩ := map_eq_ok ((transparent_hostStage.encodeAttempt x).symm.trans hencode)
  have hwrapper : s.addrEncAttempt = .ok y := (State.addrEncAttempt_eq_ok s y).mpr ⟨x, hx, hy⟩
  have hccap := ccap_of_attempt (fun c => (transparent_setCcap c).addrEncAttempt) hwrapper
  rw [exec_addrEnc, hwrapper, State.complete, succeed_hostStage hccap]

/-- Settles O48: the same for `ADDR.DEC`, the host's tests being those that the wrapper makes between its stages. -/
theorem addrDecEqualsItsCommandSequence : Obligations.AddrDecEqualsItsCommandSequence := by
  intro s t u hdec htok hpos hd64 hhlen hprefix hconv huok hzero
  obtain ⟨t₀, hdecode, rfl⟩ := succeeds_of_ok rfl hdec htok
  obtain ⟨u₀, hattempt, rfl⟩ := succeeds_of_ok rfl hconv huok
  have hmatch : t₀.prefixMatches = true :=
    (State.prefixMatches_iff t₀).mpr ⟨hhlen, AddressCommands.span_eq_span_iff.mpr hprefix⟩
  have hcap : ((t₀.setReg8 .blen 0).convertAttempt .s2b false 5 8 64).map hostStage = .ok u₀ :=
    (transparent_hostStage.convertAttempt ..).symm.trans hattempt
  obtain ⟨y, hy, rfl⟩ := map_eq_ok hcap
  have hwrapper : s.addrDecAttempt = .ok y :=
    (State.addrDecAttempt_eq_ok s y).mpr ⟨t₀, hdecode, hpos, hd64, hmatch, hy, hzero⟩
  have hccap := ccap_of_attempt (fun c => (transparent_setCcap c).addrDecAttempt) hwrapper
  rw [exec_addrDec, hwrapper, State.complete, succeed_hostStage hccap]

end Sys2Proof.UnreadRegisters

/-! What a successful command writes: the bytes and registers that the spec lists, and nothing else (R66, R221). -/

namespace Sys2Proof.SuccessFrame

open Sys2Proof.Machine Sys2Proof.Claims Sys2Proof.CodecCommands Sys2Proof.ConverterCommand Sys2Proof.CommandEnds
  Sys2Proof.ConverterRoundTrip Sys2Proof.AddressCommands Sys2Proof.AddressEncoder Sys2Proof.AddressDecoder

/-- From `s` to `t` only the bytes `W`, all of them in the outputs of command `i`, and output registers are written. -/
def WritesOnly (i : Instr) (W : Nat → Prop) (s t : State) : Prop :=
  (∀ a, ¬W a → t.readByte a = s.readByte a) ∧ (∀ a, W a → ∃ r ∈ failRegions i, inSpan r 0 128 a) ∧
    keepsRegs (outRegs i) s t ∧ (isChk i = false → failChk i = false → t.chk = s.chk) ∧
    t.hflt = s.hflt ∧ sameHost s t ∧ sameDraws s t

/-- A span within the first 128 bytes of an output region is in the outputs. -/
theorem inSpan_of_le {r : Region} {rs : List Region} {lo hi a : Nat} (hr : r ∈ rs) (hhi : hi ≤ 128)
    (ha : inSpan r lo hi a) : ∃ r ∈ rs, inSpan r 0 128 a :=
  ⟨r, hr, by omega, by omega⟩

theorem chk_writesOnly {i : Instr} (hi : isChk i = true) (v : Chk) (s : State) :
    WritesOnly i (fun _ => False) s (s.setChk v).succeed :=
  ⟨fun _ _ => rfl, fun _ h => h.elim, fun r _ => by simp, fun h => by simp [hi] at h, rfl, ⟨rfl, rfl, rfl⟩, rfl, rfl⟩

theorem encode_writesOnly {s t : State} (hexec : exec .encode s = .next t) (hok : t.ok = true) :
    WritesOnly .encode (inSpan .str 0 (t.slen.toNat + 1)) s t := by
  have hlegal := legal_of_ok ⟨_, exec_encode s, encode_ok_iff s⟩ hexec hok
  obtain ⟨u, hexec', -, hslen, -, -, -, -, -, -, hrest, hregs, hhflt, hhost, hdraws⟩ := encodeWritesTheString s hlegal
  obtain rfl := Host.Outcome.next.inj (hexec'.symm.trans hexec)
  obtain ⟨-, hlen, -⟩ := hlegal
  have hend : u.slen.toNat + 1 = s.hlen.toNat + 8 + s.dlen.toNat := by omega
  rw [hend]
  exact ⟨hrest, fun a => inSpan_of_le (by decide) (by omega), hregs, nofun, hhflt, hhost, hdraws⟩

theorem decode_writesOnly {s t : State} (hexec : exec .decode s = .next t) (hok : t.ok = true) :
    WritesOnly .decode (fun a => inSpan .hrp 0 (t.hlen.toNat + 1) a ∨ inSpan .sym 0 t.dlen.toNat a) s t := by
  obtain ⟨sep, hlegal⟩ := legal_of_ok (decodeSucceedsExactlyOnValidStrings s) hexec hok
  obtain ⟨u, hexec', -, hhlen, hdlen, -, -, -, -, hrest, hregs, hhflt, hhost, hdraws⟩ :=
    decodeRecoversPrefixAndData s sep hlegal
  obtain rfl := Host.Outcome.next.inj (hexec'.symm.trans hexec)
  obtain ⟨-, hlen, -, hsep, -⟩ := hlegal
  rw [hhlen, hdlen]
  refine ⟨fun a ha => ?_, fun a ha => ?_, hregs, nofun, hhflt, hhost, hdraws⟩
  · rw [not_or] at ha
    exact hrest a ha.1 ha.2
  · obtain ha | ha := ha <;> exact inSpan_of_le (by decide) (by omega) ha

theorem convert_writesOnly {dir : Dir} {pad : Bool} {inb outb : BitVec 4} {s t : State}
    (hwf : (Instr.convert dir pad inb outb).wellFormed = true) (hexec : exec (.convert dir pad inb outb) s = .next t)
    (hok : t.ok = true) :
    WritesOnly (.convert dir pad inb outb)
      (inSpan (dstOf dir) (s.getReg8 (outLenOf dir)).toNat (t.getReg8 (outLenOf dir)).toNat) s t := by
  have hlegal := convertLegal_of_ok hwf hexec hok
  obtain ⟨u, hexec', -, hlen, -, hrest, hregs, hchk, hhflt, hhost, hdraws⟩ :=
    convertRegroupsTheStream dir pad inb outb s hwf hlegal
  obtain rfl := Host.Outcome.next.inj (hexec'.symm.trans hexec)
  obtain ⟨-, -, hroom, -⟩ := hlegal
  rw [hlen]
  refine ⟨hrest, fun a ha => ?_, hregs, fun _ _ => hchk, hhflt, hhost, hdraws⟩
  obtain hnone | hfit := hroom
  · rw [hnone, Nat.add_zero] at ha
    omega
  · exact inSpan_of_le (List.mem_singleton_self _) (hfit.trans (min_le_right ..)) ha

theorem addrEnc_writesOnly {s t : State} (hexec : exec .addrEnc s = .next t) (hok : t.ok = true) :
    WritesOnly .addrEnc (fun a => inSpan .sym 0 t.dlen.toNat a ∨ inSpan .str 0 (t.slen.toNat + 1) a) s t := by
  have hlegal := legal_of_ok (addrEncSucceedsExactlyOnLegalInputs s) hexec hok
  obtain ⟨u, hexec', -, hdlen, hslen, -, -, -, -, -, -, -, hrest, hregs, hhflt, hhost, hdraws⟩ :=
    addrEncWritesSymbolsAndString s hlegal
  obtain rfl := Host.Outcome.next.inj (hexec'.symm.trans hexec)
  obtain ⟨-, -, hlen⟩ := hlegal
  have hend : u.slen.toNat + 1 = s.hlen.toNat + 8 + outCount true 8 5 s.blen.toNat := by omega
  rw [hdlen, hend]
  refine ⟨fun a ha => ?_, fun a ha => ?_, hregs, nofun, hhflt, hhost, hdraws⟩
  · rw [not_or] at ha
    exact hrest a ha.1 ha.2
  · obtain ha | ha := ha <;> exact inSpan_of_le (by decide) (by omega) ha

theorem addrDec_writesOnly {s t : State} (hexec : exec .addrDec s = .next t) (hok : t.ok = true) :
    WritesOnly .addrDec (fun a => inSpan .hrp 0 (t.hlen.toNat + 1) a ∨ inSpan .sym 0 t.dlen.toNat a ∨
      inSpan .byte 0 t.blen.toNat a) s t := by
  obtain ⟨sep, hlegal⟩ := legal_of_ok (addrDecSucceedsExactlyOnLegalInputs s) hexec hok
  obtain ⟨u, hexec', -, hhlen, hdlen, hblen, -, -, -, -, -, hrest, hregs, hhflt, hhost, hdraws⟩ :=
    addrDecRecoversTheBytes s sep hlegal
  obtain rfl := Host.Outcome.next.inj (hexec'.symm.trans hexec)
  obtain ⟨⟨-, hlen, -, hsep, -⟩, -⟩ := hlegal
  rw [hhlen, hdlen, hblen]
  refine ⟨fun a ha => ?_, fun a ha => ?_, hregs, nofun, hhflt, hhost, hdraws⟩
  · rw [not_or, not_or] at ha
    exact hrest a ha.1 ha.2.1 ha.2.2
  · obtain ha | ha | ha := ha <;> exact inSpan_of_le (by decide) (by omega) ha

/-- Settles O53: command by command, by what the statement on its success says of its frame. -/
theorem successWritesOnlyTheListedBytes : Obligations.SuccessWritesOnlyTheListedBytes := by
  intro i s t hwf hexec hok
  cases i with
  | chkInit => cases hexec; exact chk_writesOnly rfl _ s
  | chkStep => cases hexec; exact chk_writesOnly rfl _ s
  | chkFeedlo imm => cases hexec; exact chk_writesOnly rfl _ s
  | chkFeedhi imm => cases hexec; exact chk_writesOnly rfl _ s
  | encode => exact encode_writesOnly hexec hok
  | decode => exact decode_writesOnly hexec hok
  | convert dir pad inb outb => exact convert_writesOnly hwf hexec hok
  | addrEnc => exact addrEnc_writesOnly hexec hok
  | addrDec => exact addrDec_writesOnly hexec hok

end Sys2Proof.SuccessFrame

/-! Runs of the host's transactions (R16, R261): what every transaction keeps, a whole run keeps. -/

namespace Sys2Proof.HostRuns

open Sys2Proof.Machine Sys2Proof.Claims Sys2Proof.Encoding Sys2Proof.HostFaults Sys2Proof.CommandEnds
  Sys2Proof.Invariant Sys2Proof.HostPorts Sys2Proof.SuccessFrame

/-- The run's transactions from the next one on. -/
abbrev remaining (s : State) : List Transaction := s.program.drop s.pc

theorem nextIs_of_remaining {s : State} {x : Transaction} {xs : List Transaction} (h : remaining s = x :: xs) :
    nextIs s x := by
  have hhead := congrArg (·[0]?) h
  simpa [remaining] using hhead

/-- A step performs the next transaction and leaves the later ones. -/
theorem step_of_remaining {s : State} {x : Transaction} {xs : List Transaction} (h : remaining s = x :: xs) :
    ∃ u, s.perform x = .next u ∧ step s = .next (u.finish (s.replyTo x)) ∧ remaining (u.finish (s.replyTo x)) = xs := by
  obtain ⟨u, hperform, hstep⟩ := step_performs (nextIs_of_remaining h)
  have hkeeps := keeps_of_perform hperform
  refine ⟨u, hperform, hstep, ?_⟩
  rw [remaining, State.finish_program, State.finish_pc, hkeeps.program, hkeeps.pc, ← List.tail_drop, ← remaining, h,
    List.tail_cons]

/-- A property of the transactions still to come and the state, kept by each transaction, holds after all of them. -/
theorem steps_induction {Φ : List Transaction → State → Prop}
    (hkeep : ∀ x xs s u, s.perform x = .next u → Φ (x :: xs) s → Φ xs (u.finish (s.replyTo x)))
    (ts rest : List Transaction) (s : State) (hrun : remaining s = ts ++ rest) (hstart : Φ ts s) :
    ∃ t, steps ts.length s = .next t ∧ remaining t = rest ∧ t.pc = s.pc + ts.length ∧ Φ [] t := by
  induction ts generalizing s with
  | nil => exact ⟨s, rfl, hrun, rfl, hstart⟩
  | cons x xs ih =>
    obtain ⟨u, hperform, hstep, hrest⟩ := step_of_remaining hrun
    obtain ⟨t, hsteps, hleft, hpc, hend⟩ := ih _ hrest (hkeep x xs s u hperform hstart)
    refine ⟨t, ?_, hleft, ?_, hend⟩
    · rw [List.length_cons, steps, hstep]
      exact hsteps
    · rw [hpc, State.finish_pc, (keeps_of_perform hperform).pc, List.length_cons]
      omega

theorem steps_add {m : Nat} (n : Nat) {s t : State} (h : steps m s = .next t) : steps (m + n) s = steps n t := by
  induction m generalizing s with
  | zero =>
    cases h
    rw [Nat.zero_add]
  | succ m ih =>
    rw [steps] at h
    rw [Nat.add_right_comm, steps]
    cases hstep : step s with
    | next u =>
      rw [hstep] at h
      exact ih h
    | fault f => rw [hstep] at h; cases h
    | refused r => rw [hstep] at h; cases h

theorem steps_one {s t : State} (h : step s = .next t) : steps 1 s = .next t := by
  rw [steps, h]
  rfl

theorem remaining_load (ts : List Transaction) (s : State) : remaining (s.load ts) = ts := List.drop_zero

/-- The record of protocol breaks, carried over one transaction: a reset clears it (R226, R250). -/
def recordBreak (wrong : Bool) (x : Transaction) : Bool := if x = .reset then false else wrong || x.breaksProtocol

/-- The record at the end of the run, as the state and the transactions still to come give it, is `wrong`. -/
def EndsWrong (wrong : Bool) (xs : List Transaction) (s : State) : Prop := xs.foldl recordBreak s.hflt = wrong

theorem endsWrong_kept (wrong : Bool) (x : Transaction) (xs : List Transaction) (s u : State)
    (hperform : s.perform x = .next u) (h : EndsWrong wrong (x :: xs) s) :
    EndsWrong wrong xs (u.finish (s.replyTo x)) := by
  rw [EndsWrong, State.finish_hflt, hflt_after hperform]
  exact h

/-- Settles O17: what the transactions still to come make of `HFLT` is the same after each of them. -/
theorem runGoesWrongExactlyWhenTheHostBreaksTheProtocol :
    Obligations.RunGoesWrongExactlyWhenTheHostBreaksTheProtocol := by
  intro ts s
  obtain ⟨t, hsteps, -, hpc, hwrong⟩ := steps_induction (endsWrong_kept _) ts [] (s.load ts)
    ((remaining_load ts s).trans (List.append_nil ts).symm) rfl
  exact ⟨t, hsteps, hpc.trans (Nat.zero_add _), hwrong⟩

/-! A byte that no transaction writes -/

theorem inRegions_of_inSpan {rs : List Region} {r : Region} {a : Nat} (hr : r ∈ rs) (ha : inSpan r 0 128 a) :
    inRegions rs a = true :=
  (inRegions_eq rs a).mpr ⟨r, (ofAddr_eq_some_iff a r).mpr ha, hr⟩

/-- A command leaves every byte outside its output regions, whether it succeeds or fails (R221, R222). -/
theorem readByte_of_exec {i : Instr} (hwf : i.wellFormed = true) {a : Nat} (ha : inRegions (failRegions i) a = false)
    {s t : State} (h : exec i s = .next t) : t.readByte a = s.readByte a := by
  cases hok : t.ok with
  | true =>
    obtain ⟨hrest, hinside, -⟩ := successWritesOnlyTheListedBytes i s t hwf h hok
    refine hrest a fun hwritten => ?_
    obtain ⟨r, hr, hspan⟩ := hinside a hwritten
    exact Bool.false_ne_true (ha.symm.trans (inRegions_of_inSpan hr hspan))
  | false =>
    obtain ⟨c, -, rfl⟩ := fails_of_not_ok hwf h hok
    rw [State.readByte_fail, outputs, ha]
    rfl

/-- A transaction that may not write a byte leaves it (R65, R66). -/
theorem readByte_of_perform {x : Transaction} {a : Nat} (hx : mayWrite a x = false) {s u : State}
    (h : s.perform x = .next u) : u.readByte a = s.readByte a := by
  cases performs_of_perform h with
  | leave => rfl
  | accessFault => exact State.readByte_raiseHostFault ..
  | writeByte b v =>
    rw [State.readByte_writeByte]
    exact if_neg fun hb => of_decide_eq_false hx hb.1.symm
  | setChk => rfl
  | setReg8 => exact State.readByte_setReg8 ..
  | command hd hexec =>
    rw [mayWrite, hd] at hx
    exact readByte_of_exec (wellFormed_of_decode hd) hx hexec
  | illegal => exact State.readByte_raiseHostFault ..
  | reset => cases hx

/-- The byte at `a` is `b`, and no transaction still to come may write it. -/
def Holds (a : Nat) (b : Byte) (xs : List Transaction) (s : State) : Prop :=
  (∀ x ∈ xs, mayWrite a x = false) ∧ s.readByte a = b

theorem holds_kept (a : Nat) (b : Byte) (x : Transaction) (xs : List Transaction) (s u : State)
    (hperform : s.perform x = .next u) (h : Holds a b (x :: xs) s) : Holds a b xs (u.finish (s.replyTo x)) := by
  obtain ⟨hfree, hheld⟩ := h
  refine ⟨fun y hy => hfree y (List.mem_cons_of_mem x hy), ?_⟩
  rw [State.readByte_finish, readByte_of_perform (hfree x List.mem_cons_self) hperform, hheld]

/-- Settles O18: the write puts the byte there, the transactions between leave it, and the read returns it. -/
theorem readReturnsTheLatestWrite : Obligations.ReadReturnsTheLatestWrite := by
  intro ts s a v ha hts
  obtain ⟨u, hperform, hwrite, hrest⟩ := step_of_remaining (remaining_load ([.bufWrite a v] ++ ts ++ [.bufRead a]) s)
  have hbyte : (u.finish .none).readByte a.toNat = v.setWidth 8 := by
    obtain rfl := Host.Outcome.next.inj hperform
    rw [State.readByte_finish, bufWrite_eq, if_neg (by omega), State.readByte_writeByte]
    exact if_pos ⟨rfl, ha⟩
  obtain ⟨t, hsteps, hleft, -, -, hheld⟩ := steps_induction (holds_kept _ _) ts [.bufRead a] _ hrest ⟨hts, hbyte⟩
  obtain ⟨w, -, hread, -⟩ := step_of_remaining hleft
  refine ⟨w.finish (t.replyTo (.bufRead a)), ?_, congrArg Reply.byte (hheld.trans (BitVec.ofNat_toNat ..).symm)⟩
  have hsum : ts.length + 2 = 1 + (ts.length + 1) := by omega
  rw [hsum, steps_add _ (steps_one hwrite), steps_add _ hsteps]
  exact steps_one hread

end Sys2Proof.HostRuns

/-! A command reads nothing but its inputs (R66): from two states with the same registers and the same input bytes it
ends the same way and writes the same values. -/

namespace Sys2Proof.InputsOnly

open Sys2Proof.Machine Sys2Proof.Claims Sys2Proof.CodecCommands Sys2Proof.ConverterCommand Sys2Proof.AddressCommands
  Sys2Proof.AddressEncoder Sys2Proof.AddressDecoder Sys2Proof.CommandEnds

/-- Two states with the same `CHK`, the same 8-bit registers, and the same bytes at the addresses `P`. -/
structure Agree (P : Nat → Prop) (s s' : State) : Prop where
  chk : s'.chk = s.chk
  reg : ∀ r, s'.getReg8 r = s.getReg8 r
  byte : ∀ a, P a → s'.readByte a = s.readByte a

namespace Agree

variable {P Q : Nat → Prop} {s s' : State}

theorem mono (h : Agree P s s') (hPQ : ∀ a, Q a → P a) : Agree Q s s' := ⟨h.chk, h.reg, fun a ha => h.byte a (hPQ a ha)⟩

theorem setChk (h : Agree P s s') (v : Chk) : Agree P (s.setChk v) (s'.setChk v) := by
  refine ⟨rfl, fun r => ?_, h.byte⟩
  rw [State.getReg8_setChk, State.getReg8_setChk, h.reg]

theorem setReg8 (h : Agree P s s') (r : Reg8) (v : Byte) : Agree P (s.setReg8 r v) (s'.setReg8 r v) := by
  refine ⟨?_, fun q => ?_, fun a ha => ?_⟩
  · rw [State.setReg8_chk, State.setReg8_chk, h.chk]
  · rw [State.getReg8_setReg8, State.getReg8_setReg8, h.reg]
  · rw [State.readByte_setReg8, State.readByte_setReg8, h.byte a ha]

/-- A byte written to both states is the same in both, and so is an address where nothing is implemented. -/
theorem writeByte (h : Agree P s s') (a : Nat) (v : Byte) :
    Agree (fun b => P b ∨ b = a) (s.writeByte a v) (s'.writeByte a v) := by
  refine ⟨?_, fun q => ?_, fun b hb => ?_⟩
  · rw [State.writeByte_chk, State.writeByte_chk, h.chk]
  · rw [State.getReg8_writeByte, State.getReg8_writeByte, h.reg]
  · rw [State.readByte_writeByte, State.readByte_writeByte]
    split
    · rfl
    · next hno =>
      obtain hb | rfl := hb
      · exact h.byte b hb
      · have hunmapped : bufSize ≤ b := by simpa using hno
        rw [State.readByte_unmapped hunmapped, State.readByte_unmapped hunmapped]

theorem writeSpan (h : Agree P s s') (r : Region) (i : Nat) (bs : List Byte) :
    Agree (fun a => P a ∨ inSpan r i (i + bs.length) a) (s.writeSpan r i bs) (s'.writeSpan r i bs) := by
  induction bs generalizing P i s s' with
  | nil =>
    refine h.mono fun a ha => ha.resolve_right ?_
    simp only [inSpan, List.length_nil]
    omega
  | cons b bs ih =>
    refine (ih (h.writeByte (r.base + i) b) (i + 1)).mono fun a ha => ?_
    simp only [inSpan, List.length_cons] at ha ⊢
    by_cases hfirst : a = r.base + i
    · exact .inl (.inr hfirst)
    · obtain ha | ha := ha
      · exact .inl (.inl ha)
      · exact .inr (by omega)

/-- The writes of `ENCODE` (R141). -/
theorem putString (h : Agree P s s') (p d : List Byte) :
    Agree (fun a => P a ∨ inSpan .str 0 (p.length + 7 + d.length + 1) a) (s.putString p d) (s'.putString p d) := by
  simp only [State.putString]
  refine (((h.writeSpan ..).setReg8 ..).setChk _).mono fun a ha => ?_
  rwa [List.length_append, length_encodedString, Nat.zero_add]

/-- The writes of `DECODE` (R157). -/
theorem putParsed (h : Agree P s s') (p syms : List Byte) :
    Agree (fun a => P a ∨ inSpan .hrp 0 (p.length + 1) a ∨ inSpan .sym 0 (syms.length - 6) a) (s.putParsed p syms)
      (s'.putParsed p syms) := by
  simp only [State.putParsed]
  refine (((((h.setChk _).writeSpan ..).writeSpan ..).setReg8 ..).setReg8 ..).mono fun a ha => ?_
  simpa [ckLen, or_assoc] using ha

/-- Where the bytes of a run agree, the run is the same. -/
theorem span (r : Region) {n : Nat} (len : Byte) (hlen : n = len.toNat) (hn : n ≤ 128) (h : sameCells r len s s') :
    s'.span r n = s.span r n :=
  State.span_congr fun i hi => (h i (by omega) (by omega)).symm

end Agree

/-- The two attempts both fail, or both succeed with states that agree at the addresses that `P` gives for the first. -/
inductive SameEnd (P : State → Nat → Prop) : Except Cause State → Except Cause State → Prop
  | ok {t t' : State} (h : Agree (P t) t t') : SameEnd P (.ok t) (.ok t')
  | error (c c' : Cause) : SameEnd P (.error c) (.error c')

theorem SameEnd.mono {P Q : State → Nat → Prop} {x x' : Except Cause State} (h : SameEnd P x x')
    (hPQ : ∀ t, x = .ok t → ∀ a, Q t a → P t a) : SameEnd Q x x' := by
  cases h with
  | ok h => exact .ok (h.mono (hPQ _ rfl))
  | error => exact .error ..

/-- A second stage that treats what the first one leaves alike makes the two of them end alike. -/
theorem SameEnd.bind {P Q : State → Nat → Prop} {x x' : Except Cause State} {f : State → Except Cause State}
    (h : SameEnd P x x') (hf : ∀ t t', x = .ok t → Agree (P t) t t' → SameEnd Q (f t) (f t')) :
    SameEnd Q (x.bind f) (x'.bind f) := by
  cases h with
  | ok h => exact hf _ _ rfl h
  | error => exact .error ..

section
variable {P : Nat → Prop} {s s' : State}

theorem encodeAttempt_sameEnd (h : Agree P s s') (hhrp : sameCells .hrp s.hlen s s')
    (hsym : sameCells .sym s.dlen s s') :
    SameEnd (fun t a => P a ∨ inSpan .str 0 (t.slen.toNat + 1) a) s.encodeAttempt s'.encodeAttempt := by
  have hhlen : s'.hlen = s.hlen := h.reg .hlen
  have hdlen : s'.dlen = s.dlen := h.reg .dlen
  simp only [State.encodeAttempt, hhlen, hdlen]
  split
  · exact .error ..
  · split
    · exact .error ..
    · next hlen =>
      rw [maxStr] at hlen
      rw [Agree.span .hrp s.hlen rfl (by omega) hhrp, Agree.span .sym s.dlen rfl (by omega) hsym]
      cases prefixFault (s.span .hrp s.hlen.toNat) with
      | some c => exact .error ..
      | none =>
        simp only
        split
        · obtain ⟨-, hslen, -⟩ := State.putString_fields (s.span .hrp s.hlen.toNat) (s.span .sym s.dlen.toNat) s
            (by simp; omega)
          refine .ok ((h.putString ..).mono fun a ha => ?_)
          rwa [hslen] at ha
        · exact .error ..

/-- What is recovered is no longer than the string. -/
theorem length_of_parseString {str p syms : List Byte} (h : parseString str = .ok (p, syms)) :
    p.length ≤ str.length ∧ syms.length ≤ str.length := by
  obtain ⟨sep, -, -, -, -, hrev, -, -, rfl⟩ := (parseString_eq_ok str p syms).mp h
  rw [length_of_revAll hrev, List.length_map, List.length_take, List.length_drop]
  omega

theorem decodeAttempt_sameEnd (h : Agree P s s') (hstr : sameCells .str s.slen s s') :
    SameEnd (fun t a => P a ∨ inSpan .hrp 0 (t.hlen.toNat + 1) a ∨ inSpan .sym 0 t.dlen.toNat a)
      s.decodeAttempt s'.decodeAttempt := by
  have hslen : s'.slen = s.slen := h.reg .slen
  simp only [State.decodeAttempt, hslen]
  split
  · exact .error ..
  · next hlen =>
    rw [minStr, maxStr] at hlen
    rw [Agree.span .str s.slen rfl (by omega) hstr]
    cases hparse : parseString (s.span .str s.slen.toNat) with
    | error c => exact .error ..
    | ok r =>
      obtain ⟨p, syms⟩ := r
      obtain ⟨hp, hsyms⟩ := length_of_parseString hparse
      rw [State.length_span] at hp hsyms
      obtain ⟨-, hhlen, hdlen, -⟩ := State.putParsed_fields p syms s (by omega) (by omega)
      refine .ok ((h.putParsed p syms).mono fun a ha => ?_)
      rwa [hhlen, hdlen] at ha

theorem convertAttempt_sameEnd (h : Agree P s s') (dir : Dir) (pad : Bool) (inbits : Nat) {outbits room : Nat}
    (ho : 1 ≤ outbits) (hroom : room ≤ 128)
    (hsrc : sameCells (srcOf dir) (s.getReg8 (inLenOf dir)) s s') :
    SameEnd (fun t a => P a ∨
        inSpan (dstOf dir) (s.getReg8 (outLenOf dir)).toNat (t.getReg8 (outLenOf dir)).toNat a)
      (s.convertAttempt dir pad inbits outbits room) (s'.convertAttempt dir pad inbits outbits room) := by
  simp only [State.convertAttempt, inLen_eq_inLenOf, outLen_eq_outLenOf, source_eq_srcOf, target_eq_dstOf, h.reg]
  split
  · exact .error ..
  · next hlen =>
    rw [regionSize] at hlen
    rw [Agree.span (srcOf dir) (s.getReg8 (inLenOf dir)) rfl (by omega) hsrc]
    cases hregroup : regroup pad inbits outbits (s.getReg8 (outLenOf dir)).toNat room
        (s.span (srcOf dir) (s.getReg8 (inLenOf dir)).toNat) with
    | error c => exact .error ..
    | ok out =>
      obtain ⟨-, hfits, -, rfl⟩ := (regroup_eq_ok ho ..).mp hregroup
      rw [← length_convertValues] at hfits
      have hbase := (s.getReg8 (outLenOf dir)).isLt
      refine .ok (((h.writeSpan ..).setReg8 ..).mono fun a ha => ?_)
      rwa [State.getReg8_setReg8, if_pos rfl, BitVec.toNat_ofNat, Nat.mod_eq_of_lt (by omega)] at ha

/-! The address wrapper, stage by stage -/

theorem addrEncAttempt_eq_bind (s : State) :
    s.addrEncAttempt = ((s.setReg8 .dlen 0).convertAttempt .b2s true 8 5 64).bind State.encodeAttempt := by
  rw [State.addrEncAttempt, stageCap]
  cases (s.setReg8 .dlen 0).convertAttempt .b2s true 8 5 64 <;> rfl

/-- An encoding that succeeds leaves `DLEN` as it is. -/
theorem dlen_of_encodeAttempt {s t : State} (h : s.encodeAttempt = .ok t) : t.dlen = s.dlen := by
  obtain ⟨-, -, -, -, rfl⟩ := (State.encodeAttempt_eq_ok s t).mp h
  simp [State.putString]

theorem addrEncAttempt_sameEnd (h : Agree P s s') (hbyte : sameCells .byte s.blen s s')
    (hhrp : ∀ i < s.hlen.toNat, i < 128 → P (Region.hrp.base + i)) :
    SameEnd (fun t a => P a ∨ inSpan .sym 0 t.dlen.toNat a ∨ inSpan .str 0 (t.slen.toNat + 1) a)
      s.addrEncAttempt s'.addrEncAttempt := by
  have hconv := convertAttempt_sameEnd (h.setReg8 .dlen 0) .b2s true 8 (outbits := 5) (room := 64) (by decide)
    (by decide) hbyte
  rw [addrEncAttempt_eq_bind, addrEncAttempt_eq_bind]
  refine hconv.bind fun t t' ht hagree => ?_
  obtain ⟨-, rfl⟩ := (convertBytes_eq_ok_iff s t).mp ht
  refine (encodeAttempt_sameEnd hagree (fun i hi hlt => ?_) fun j hj hlt => ?_).mono fun u hu a ha => ?_
  · rw [hlen_staged] at hi
    exact (hagree.byte _ (.inl (hhrp i hi hlt))).symm
  · exact (hagree.byte _ (.inr ⟨Nat.le_add_right .., Nat.add_lt_add_left hj _⟩)).symm
  · rw [dlen_of_encodeAttempt hu] at ha
    exact or_assoc.mpr ha

theorem addrDecAttempt_eq_bind (s : State) : s.addrDecAttempt = s.decodeAttempt.bind State.acceptPayload := by
  rw [State.addrDecAttempt]
  cases s.decodeAttempt <;> rfl

/-- The test of the first byte (R207). -/
def checkDiscriminant (u : State) : Except Cause State := if u.readByte 0x180 ≠ 0#8 then .error .discriminant else .ok u

theorem acceptPayload_eq (t : State) :
    t.acceptPayload =
      if t.dlen.toNat = 0 ∨ t.dlen.toNat > 64 then .error .payloadLen
      else if !t.prefixMatches then .error .prefixMismatch
      else ((t.setReg8 .blen 0).convertAttempt .s2b false 5 8 64).bind checkDiscriminant := by
  rw [State.acceptPayload, stageCap]
  cases (t.setReg8 .blen 0).convertAttempt .s2b false 5 8 64 <;> rfl

/-- EXP is compared only when it has the length of the recovered prefix, and then it is an input (R206). -/
theorem prefixMatches_same {t t' : State} (hreg : ∀ r, t'.getReg8 r = t.getReg8 r)
    (hhrp : ∀ i < t.hlen.toNat, cell t' .hrp i = cell t .hrp i)
    (hexp : t.hlen = t.elen → ∀ i < t.elen.toNat, cell t' .exp i = cell t .exp i) :
    t'.prefixMatches = t.prefixMatches := by
  have hhlen : t'.hlen = t.hlen := hreg .hlen
  have helen : t'.elen = t.elen := hreg .elen
  rw [State.prefixMatches, State.prefixMatches, hhlen, helen]
  split
  · next heq => rw [State.span_congr hhrp, State.span_congr (hexp heq)]
  · rfl

theorem addrDecAttempt_sameEnd (h : Agree P s s') (hstr : sameCells .str s.slen s s')
    (hexp : ∀ sep, decodeLegal s sep → s.elen.toNat = sep → ∀ i < s.elen.toNat, i < 128 → P (Region.exp.base + i)) :
    SameEnd (fun t a => P a ∨ inSpan .hrp 0 (t.hlen.toNat + 1) a ∨ inSpan .sym 0 t.dlen.toNat a ∨
      inSpan .byte 0 t.blen.toNat a) s.addrDecAttempt s'.addrDecAttempt := by
  rw [addrDecAttempt_eq_bind, addrDecAttempt_eq_bind]
  refine (decodeAttempt_sameEnd h hstr).bind fun t t' ht hagree => ?_
  obtain ⟨sep, hlegal, hdec⟩ := (decodeAttempt_eq_ok_iff s t).mp ht
  obtain rfl : t = decoded s sep := hdec
  obtain ⟨hhlen, -, helen, -⟩ := decoded_inputs hlegal
  obtain ⟨-, hstrlen, -, hsep, -⟩ := id hlegal
  have hdlen : t'.dlen = (decoded s sep).dlen := hagree.reg .dlen
  have hpre : t'.prefixMatches = (decoded s sep).prefixMatches := by
    refine prefixMatches_same hagree.reg (fun i hi => hagree.byte _ (.inr (.inl ⟨by omega, by omega⟩)))
      fun heq i hi => ?_
    rw [heq, helen] at hhlen
    rw [helen] at hi
    exact hagree.byte _ (.inl (hexp sep hlegal hhlen i hi (by omega)))
  rw [acceptPayload_eq, acceptPayload_eq, hdlen, hpre]
  split
  · exact .error ..
  · next hd64 =>
    split
    · exact .error ..
    · refine (convertAttempt_sameEnd (hagree.setReg8 .blen 0) .s2b false 5 (outbits := 8) (room := 64) (by decide)
        (by decide) fun j hj _ => ?sym).bind fun u u' hu hagree' => ?_
      case sym => exact (hagree.byte _ (.inr (.inr ⟨Nat.le_add_right .., Nat.add_lt_add_left hj _⟩))).symm
      have hlen : (decoded s sep).dlen.toNat ≤ 64 := by omega
      obtain ⟨⟨hleft, -⟩, rfl⟩ := (convertPayload_eq_ok_iff hlen (sym_decoded_lt hlegal) u).mp hu
      have hblen := blen_regrouped hlen
      have hfirst : u'.readByte 0x180 = (regrouped (decoded s sep)).readByte 0x180 :=
        hagree'.byte 0x180 (.inr ⟨Nat.le_refl _, Nat.lt_add_of_pos_right (hblen.symm ▸ by omega)⟩)
      have hhlen' : (regrouped (decoded s sep)).hlen = (decoded s sep).hlen :=
        getReg8_regrouped _ (r := .hlen) (by decide)
      have hdlen' : (regrouped (decoded s sep)).dlen = (decoded s sep).dlen :=
        getReg8_regrouped _ (r := .dlen) (by decide)
      simp only [checkDiscriminant, hfirst]
      split
      · exact .error ..
      · refine .ok (hagree'.mono fun a ha => ?_)
        rw [hhlen', hdlen'] at ha
        exact or_assoc.mpr (ha.imp_right or_assoc.mpr)

end

/-! The statement -/

/-- Every command ends alike in two states with the same registers and the same input bytes, and what it writes
agrees. -/
theorem attempt_sameEnd {i : Instr} (hwf : i.wellFormed = true) {s s' : State}
    (h : Agree (fun a => s'.readByte a = s.readByte a) s s') (hin : sameInputs i s s') :
    SameEnd (fun t a => written i s t a) (attempt i s) (attempt i s') := by
  cases i with
  | chkInit => exact .ok ((h.setChk _).mono fun _ ha => ha.elim)
  | chkStep =>
    rw [attempt, attempt, h.chk]
    exact .ok ((h.setChk _).mono fun _ ha => ha.elim)
  | chkFeedlo imm =>
    rw [attempt, attempt, h.chk]
    exact .ok ((h.setChk _).mono fun _ ha => ha.elim)
  | chkFeedhi imm =>
    rw [attempt, attempt, h.chk]
    exact .ok ((h.setChk _).mono fun _ ha => ha.elim)
  | encode => exact (encodeAttempt_sameEnd h hin.1 hin.2).mono fun _ _ _ => .inr
  | decode => exact (decodeAttempt_sameEnd h hin).mono fun _ _ _ => .inr
  | convert dir pad inb outb =>
    have hccap : s'.ccap = s.ccap := h.reg .ccap
    rw [attempt, attempt, State.convertCap, State.convertCap, hccap]
    exact (convertAttempt_sameEnd h dir pad _ (wellFormed_convert hwf).2.1 (min_le_right ..) hin).mono fun _ _ _ => .inr
  | addrEnc =>
    exact (addrEncAttempt_sameEnd h hin.1 fun j hj hlt => (hin.2 j hj hlt).symm).mono fun _ _ _ => .inr
  | addrDec =>
    refine (addrDecAttempt_sameEnd h hin.1 fun sep hlegal helen j hj hlt => ?_).mono fun _ _ _ => .inr
    exact (hin.2 sep hlegal helen j hj hlt).symm

theorem written_succeed (i : Instr) (s t : State) (a : Nat) : written i s t.succeed a ↔ written i s t a := by
  cases i with
  | convert dir pad inb outb => simp only [written, State.getReg8_succeed]
  | _ => exact Iff.rfl

/-- Settles O54: `attempt_sameEnd` for the two states, and `OK` says how the attempts ended. -/
theorem commandsDependOnTheirInputsOnly : Obligations.CommandsDependOnTheirInputsOnly := by
  intro i s s' t t' hwf hchk hreg hin hexec hexec'
  obtain rfl := Host.Outcome.next.inj ((exec_eq_complete hwf s).symm.trans hexec)
  obtain rfl := Host.Outcome.next.inj ((exec_eq_complete hwf s').symm.trans hexec')
  have hend := attempt_sameEnd hwf ⟨hchk, hreg, fun _ h => h⟩ hin
  revert hend
  generalize attempt i s = x, attempt i s' = x'
  rintro (⟨hagree⟩ | ⟨c, c'⟩)
  · refine ⟨rfl, fun _ => ⟨hagree.chk, fun r => ?_, fun a ha => ?_⟩⟩
    · exact (State.getReg8_succeed ..).trans ((hagree.reg r).trans (State.getReg8_succeed ..).symm)
    · exact hagree.byte a ((written_succeed ..).mp ha)
  · exact ⟨rfl, nofun⟩

end Sys2Proof.InputsOnly
